-- ==== Sys2Proof/Word.lean ====
section
/-! DEFINITION. The word types of the a5hash CORE: every value is an unsigned word of a stated width
(spec/00_scope.md R9, R10). `+`, `^^^`, `&&&`, `|||`, `<<<`, `>>>` on `BitVec` are R10's operators. -/

namespace Sys2Proof

/-- A 64-bit word: a host-visible register, a lane of the 64-bit and 128-bit mixers (R8, R24). -/
abbrev Word := BitVec 64

/-- A 32-bit word: a lane of the 32-bit mixer (R24). -/
abbrev Half := BitVec 32

/-- One byte of the input memory IN (R40). -/
abbrev Byte := BitVec 8

end Sys2Proof
end

