-- ==== Sys2Proof/Syntax.lean ====
section
/-! DEFINITION. What the host can say to the block: the 13 commands (spec/30_encoding.md R62), the
fields of a command word (R60), the register names (spec/10_state.md R20), the host accesses and the
pseudo-instructions (R65, R66). -/

namespace Sys2Proof

/-- The 13 commands of R62, one constructor for each row of spec/opcode_table.json. A command carries
no operand in its word (R61). -/
inductive Instr where
  | hash32Buf   -- R186
  | hash64Buf   -- R187
  | hash128Buf  -- R188
  | hash32T16   -- R189
  | hash64T16   -- R190
  | hash128T16  -- R191
  | hash32V4    -- R192
  | hash64V4    -- R193
  | hash128V4   -- R194
  | hash32V8    -- R195
  | hash64V8    -- R196
  | hash128V8   -- R197
  | hash32x4    -- R198
  deriving DecidableEq, Repr

/-- The fields of a 64-bit command word (R60). -/
structure CmdFields where
  /-- `[1:0]`: 0 = 32-bit digest, 1 = 64-bit, 2 = 128-bit, 3 = reserved. -/
  width : BitVec 2
  /-- `[3:2]`: 0 = BUF, 1 = T16, 2 = V4, 3 = V8. -/
  shape : BitVec 2
  /-- `[4]`: 1 = the batch of four 4-byte values. -/
  x4 : BitVec 1
  /-- `[63:5]`: must be 0. -/
  rsvd : BitVec 59
  deriving DecidableEq, Repr

/-- The 13 host-visible registers (R20). -/
inductive Reg where
  | cmd | status | seed | src | len | val0 | val1 | val2 | val3 | res0 | res1 | res2 | res3
  deriving DecidableEq, Repr

/-- What the host, or the platform for `reset`, does in one slot (R65, R40, R240). -/
inductive HostOp where
  /-- A write to the register window: byte offset, width in bits, value. -/
  | write (offset width : Nat) (value : Word)
  /-- A read of the register window: byte offset, width in bits. -/
  | read (offset width : Nat)
  /-- Repeated reads of STATUS until BUSY = 0 (R65). -/
  | poll
  /-- A write of one byte of IN, by the host's own path (R40). -/
  | writeIn (addr : Nat) (value : Byte)
  /-- The platform asserts reset (R240). -/
  | reset
  /-- No access. -/
  | idle
  deriving DecidableEq, Repr

/-- One slot of the host's script: the core makes `core` sequencer steps, and then the host's access
takes effect (R51, R215; DESIGN CHOICE, safe: log 1). -/
structure Slot where
  core : Nat
  op : HostOp
  deriving DecidableEq, Repr

/-- The three digest widths (R3). -/
inductive Width where
  | w32 | w64 | w128
  deriving DecidableEq, Repr

/-- The pseudo-instructions of R66, each with an optional seed. -/
inductive Pseudo where
  | buf (w : Width) (src len : Word) (seed : Option Word)
  | t16 (w : Width) (src units : Word) (seed : Option Word)
  | v4 (w : Width) (v : Word) (seed : Option Word)
  | v8 (w : Width) (v : Word) (seed : Option Word)
  | x4 (v0 v1 v2 v3 : Word) (seed : Option Word)
  /-- The suffix `.WAIT`: the command's expansion, then POLL. -/
  | wait (p : Pseudo)
  deriving DecidableEq, Repr

end Sys2Proof
end

