-- ==== Sys2Proof/WellFormed.lean ====
section
/-! DEFINITION. The checks on what the host sends: the legality of a command word's fields
(spec/30_encoding.md R62, R63) and of a window access (spec/60_exceptions.md R214). -/

namespace Sys2Proof

/-- No reserved bit of `[63:5]` is set (R60). -/
def CmdFields.rsvdOk (f : CmdFields) : Bool := f.rsvd == 0#59

/-- WIDTH is not the reserved value 3 (R63). -/
def CmdFields.widthOk (f : CmdFields) : Bool := f.width != 3#2

/-- X4 = 1 only with WIDTH = 00 and SHAPE = 10 (R60, R63). -/
def CmdFields.x4Ok (f : CmdFields) : Bool := f.x4 == 0#1 || (f.width == 0#2 && f.shape == 2#2)

/-- The fields of one of R62's 13 command words. -/
def CmdFields.wf (f : CmdFields) : Bool := f.rsvdOk && f.widthOk && f.x4Ok

/-- The fields each command has (R62's table, read by R60's columns). -/
def Instr.fields : Instr → CmdFields
  | .hash32Buf  => ⟨0, 0, 0, 0⟩
  | .hash64Buf  => ⟨1, 0, 0, 0⟩
  | .hash128Buf => ⟨2, 0, 0, 0⟩
  | .hash32T16  => ⟨0, 1, 0, 0⟩
  | .hash64T16  => ⟨1, 1, 0, 0⟩
  | .hash128T16 => ⟨2, 1, 0, 0⟩
  | .hash32V4   => ⟨0, 2, 0, 0⟩
  | .hash64V4   => ⟨1, 2, 0, 0⟩
  | .hash128V4  => ⟨2, 2, 0, 0⟩
  | .hash32V8   => ⟨0, 3, 0, 0⟩
  | .hash64V8   => ⟨1, 3, 0, 0⟩
  | .hash128V8  => ⟨2, 3, 0, 0⟩
  | .hash32x4   => ⟨0, 2, 1, 0⟩

/-- A command is well formed when its fields are legal; every command is. -/
def Instr.wf (i : Instr) : Bool := i.fields.wf

/-- A window access is inside the interface when it is a 64-bit access at a multiple of 8 inside
0x00..0xFF (R45, R214). -/
def accessOk (offset width : Nat) : Bool :=
  width == 64 && offset % 8 == 0 && Nat.blt offset 0x100

/-- A slot's access is well formed when it is no window access, or one inside the interface. -/
def HostOp.wf : HostOp → Bool
  | .write offset width _ => accessOk offset width
  | .read offset width => accessOk offset width
  | .poll => true
  | .writeIn _ _ => true
  | .reset => true
  | .idle => true

end Sys2Proof
end

