-- ==== Sys2Proof/Decode.lean ====
section
/-! DEFINITION. The command decoder and encoder (spec/30_encoding.md R60, R62, R63, R64): total on
every 64-bit value, each illegal value rejected by the name of the rule it breaks. -/

namespace Sys2Proof

/-- Why a command value is illegal: the three classes of R63. -/
inductive DecodeError where
  /-- A bit of `[63:5]` is set. -/
  | reservedBits
  /-- WIDTH = 11. -/
  | reservedWidth
  /-- X4 = 1 with another (WIDTH, SHAPE) than (00, 10). -/
  | reservedX4
  deriving DecidableEq, Repr

/-- R60's columns of a command word. -/
def fieldsOf (v : Word) : CmdFields :=
  { width := v.extractLsb' 0 2
    shape := v.extractLsb' 2 2
    x4 := v.extractLsb' 4 1
    rsvd := v.extractLsb' 5 59 }

/-- The four commands of one width, by SHAPE (R60). -/
def byShape (shape : BitVec 2) (buf t16 v4 v8 : Instr) : Instr :=
  if shape = 0#2 then buf else if shape = 1#2 then t16 else if shape = 2#2 then v4 else v8

/-- The decoder: the whole 64-bit value decides (R62, R63, R64). -/
def decode (v : Word) : Except DecodeError Instr :=
  let f := fieldsOf v
  if f.rsvd ≠ 0#59 then .error .reservedBits
  else if f.width = 3#2 then .error .reservedWidth
  else if f.x4 = 1#1 then
    if f.width = 0#2 ∧ f.shape = 2#2 then .ok .hash32x4 else .error .reservedX4
  else if f.width = 0#2 then .ok (byShape f.shape .hash32Buf .hash32T16 .hash32V4 .hash32V8)
  else if f.width = 1#2 then .ok (byShape f.shape .hash64Buf .hash64T16 .hash64V4 .hash64V8)
  else .ok (byShape f.shape .hash128Buf .hash128T16 .hash128V4 .hash128V8)

/-- The CMD value of a command: R62's table. -/
def encode : Instr → Word
  | .hash32Buf  => 0x00#64
  | .hash64Buf  => 0x01#64
  | .hash128Buf => 0x02#64
  | .hash32T16  => 0x04#64
  | .hash64T16  => 0x05#64
  | .hash128T16 => 0x06#64
  | .hash32V4   => 0x08#64
  | .hash64V4   => 0x09#64
  | .hash128V4  => 0x0A#64
  | .hash32V8   => 0x0C#64
  | .hash64V8   => 0x0D#64
  | .hash128V8  => 0x0E#64
  | .hash32x4   => 0x18#64

/-- The decoder applied to a row of the opcode table: a command is one 64-bit word (R60), its bits
above `nbits` zero. -/
def decodeTableWord (nbits w : Nat) : Option Instr :=
  (decode (BitVec.ofNat 64 (w % 2 ^ nbits))).toOption

end Sys2Proof
end

