-- ==== Sys2Proof/Config.lean ====
section
/-! DEFINITION. The parameters the spec leaves open (spec/00_scope.md R8) and the free values
(spec/93_implementation_defined.md). No constant here has a value that a proof can see. LATENCY is no
constant: the schedule in State stands for it (DESIGN CHOICE, safe: log 1). -/

namespace Sys2Proof

/-- The highest byte address of IN at reset (DESIGN CHOICE, safe: log 6). -/
opaque Config.inTop : Word

/-- IN_SIZE at reset: open, with `1 ≤ IN_SIZE ≤ 2^64` by its form (R8, U11; DESIGN CHOICE, safe: log 6). -/
def Config.inSize : Nat := Config.inTop.toNat + 1

/-- What the byte of IN at an address holds at power-up (R240, U13; DESIGN CHOICE, safe: log 5). -/
opaque Config.powerUpByte : Nat → Byte

/-- The `n`-th free word: a digest word after the host broke R50 (R243, U7; DESIGN CHOICE, safe: log 7). -/
opaque Config.freeWord : Nat → Word

/-- The 128-bit digest of 17 bytes or more, but for the one input that law 3 of R160 fixes
(DESIGN CHOICE, safe for RES: log 9). -/
opaque Config.h128Free : List Byte → Word → Word × Word

end Sys2Proof
end

