-- ==== Sys2Proof/Machine/Constants.lean ====
section
/-! DEFINITION. The fixed constants of the block (spec/40_primitives.md R90, spec/10_state.md R25). -/

namespace Sys2Proof.Machine

/-- C1: seed1 init of the 64-bit and 128-bit mixers. -/
def C1 : Word := 0x243F6A8885A308D3#64
/-- C2: seed2 init of the 64-bit and 128-bit mixers. -/
def C2 : Word := 0x452821E638D01377#64
/-- C1_32: seed1 init of the 32-bit mixer. -/
def C1_32 : Half := 0x243F6A88#32
/-- C2_32: seed2 init of the 32-bit mixer. -/
def C2_32 : Half := 0x85A308D3#32
/-- C3_32: seed3 init of the 32-bit mixer. -/
def C3_32 : Half := 0xFB0BD3EA#32
/-- C4_32: seed4 init of the 32-bit mixer. -/
def C4_32 : Half := 0x0F58FD47#32
/-- C3: seed3 init of the 128-bit mixer. -/
def C3 : Word := 0xA4093822299F31D0#64
/-- C4: seed4 init of the 128-bit mixer. -/
def C4 : Word := 0xC0AC29B7C97C50DD#64
/-- C5: seed5 (R103). -/
def C5 : Word := 0x082EFA98EC4E6C89#64
/-- C6: seed6 (R103). -/
def C6 : Word := 0x3F84D5B5B5470917#64
/-- C7: seed7 (R103). -/
def C7 : Word := 0x13198A2E03707344#64
/-- C8: seed8 (R103). -/
def C8 : Word := 0xBE5466CF34E90C6C#64
/-- Val01: the parity mask "01" (R25). -/
def Val01 : Word := 0x5555555555555555#64
/-- Val10: the parity mask "10" (R25). -/
def Val10 : Word := 0xAAAAAAAAAAAAAAAA#64
/-- Val01 truncated to 32 bits (R25). -/
def Val01_32 : Half := 0x55555555#32
/-- Val10 truncated to 32 bits (R25). -/
def Val10_32 : Half := 0xAAAAAAAA#32

end Sys2Proof.Machine
end

