-- ==== Sys2Proof/Machine/Primitives.lean ====
section
/-! DEFINITION. The datapath primitives (spec/40_primitives.md R80 to R88; spec/20_memory.md R41): input
loads, packing of short inputs, widening multipliers, the half swap. An operation's input is given as
its bytes by offset (spec/45_commands.md R184, R185). -/

namespace Sys2Proof.Machine

/-- The input of one operation: the byte at each offset from its start (R184, R185). -/
abbrev Input := Nat → Byte

/-- `MemRead`: the unsigned little-endian number of `n` bytes from offset `off` (R41). -/
def memRead (m : Input) (off : Nat) : Nat → Nat
  | 0 => 0
  | n + 1 => memRead m off n + (m (off + n)).toNat * 2 ^ (8 * n)

/-- `loadU32` (R80). -/
def loadU32 (m : Input) (off : Nat) : Half := BitVec.ofNat 32 (memRead m off 4)

/-- `loadU64` (R81). -/
def loadU64 (m : Input) (off : Nat) : Word := BitVec.ofNat 64 (memRead m off 8)

/-- `packBytes`, at the caller's width (R83): the XOR of byte `i` shifted left by `8 * i`. -/
def packBytes (w : Nat) (m : Input) : Nat → BitVec w
  | 0 => 0#w
  | n + 1 => packBytes w m n ^^^ ((m n).setWidth w <<< (8 * n))

/-- One word of `pack64`: two 32-bit loads, the first in the high half (R84). -/
def pairWord (m : Input) (hi lo : Nat) : Word :=
  ((loadU32 m hi).setWidth 64 <<< 32) ||| (loadU32 m lo).setWidth 64

/-- `pack64`: the window `[o, o + n)` packed into two words (R84). -/
def pack64 (m : Input) (o n : Nat) : Word × Word :=
  let mo := n >>> 3
  (pairWord m o (o + n - 4), pairWord m (o + 4 * mo) (o + n - 4 - 4 * mo))

/-- `umul128`: the exact product of two 64-bit words, low half first (R85). -/
def umul128 (u v : Word) : Word × Word :=
  (BitVec.ofNat 64 (u.toNat * v.toNat), BitVec.ofNat 64 ((u.toNat * v.toNat) >>> 64))

/-- `umul64`: the exact product of two 32-bit words, low half first (R86). -/
def umul64 (u v : Half) : Half × Half :=
  (BitVec.ofNat 32 (u.toNat * v.toNat), BitVec.ofNat 32 ((u.toNat * v.toNat) >>> 32))

/-- `rotl32_on64`: the two 32-bit halves swapped (R88). -/
def rotl32on64 (x : Word) : Word := (x <<< 32) ||| (x >>> 32)

/-- The first `L` bytes of an input (R184). -/
def bytesOf (m : Input) (L : Nat) : List Byte := (List.range L).map m

/-- The bytes of a 64-bit word, least significant first (R43, R185). -/
def wordBytes (v : Word) : Input := fun i => v.extractLsb' (8 * i) 8

end Sys2Proof.Machine
end

