-- ==== Sys2Proof/Machine/SeedInit.lean ====
section
/-! DEFINITION. The seed initializer (spec/41_seed_init.md R100 to R105). L enters truncated to the lane
width (spec/00_scope.md R12). The general formula is always computed (R104). -/

namespace Sys2Proof.Machine

/-- The four seed words of the 32-bit and 128-bit mixers. -/
structure Seeds (w : Nat) where
  seed1 : BitVec w
  seed2 : BitVec w
  seed3 : BitVec w
  seed4 : BitVec w
  deriving DecidableEq, Repr

/-- `init64` (R100): (seed1, seed2). -/
def init64 (L : Nat) (seed : Word) : Word × Word :=
  let Lw := BitVec.ofNat 64 L
  let seed1 := C1 ^^^ Lw
  let seed2 := C2 ^^^ Lw
  umul128 (seed2 ^^^ (seed &&& Val10)) (seed1 ^^^ (seed &&& Val01))

/-- `init32` (R101). -/
def init32 (L : Nat) (seed32 : Half) : Seeds 32 :=
  let Lw := BitVec.ofNat 32 L
  let seed1 := C1_32 ^^^ Lw
  let seed2 := C2_32 ^^^ Lw
  let r := umul64 (seed2 ^^^ (seed32 &&& Val10_32)) (seed1 ^^^ (seed32 &&& Val01_32))
  { seed1 := r.1, seed2 := r.2, seed3 := C3_32, seed4 := C4_32 }

/-- `init128` (R102): init64 and two constant lanes. -/
def init128 (L : Nat) (seed : Word) : Seeds 64 :=
  let r := init64 L seed
  { seed1 := r.1, seed2 := r.2, seed3 := C3, seed4 := C4 }

/-- The seed a 32-bit command takes: SEED[31:0] (R61, R105). -/
def seed32Of (seed : Word) : Half := seed.setWidth 32

end Sys2Proof.Machine
end

