-- ==== Sys2Proof/Machine/Hash64.lean ====
section
/-! DEFINITION. The 64-bit mixer (spec/42_hash64.md R110 to R117), each step a function of the bytes it
reads and the registers it names. -/

namespace Sys2Proof.Machine

/-- `short64` (R111, R112): (a, b) for L ≤ 16. -/
def short64 (m : Input) (L : Nat) : Word × Word :=
  if 4 ≤ L then pack64 m 0 L else (packBytes 64 m L, 0#64)

/-- One iteration of the 16-byte chunk loop at offset `o` (R114). -/
def iter64 (m : Input) (o : Nat) (val01 val10 : Word) (s : Word × Word) : Word × Word :=
  let r := umul128 (rotl32on64 (loadU64 m o) ^^^ s.1) (rotl32on64 (loadU64 m (o + 8)) ^^^ s.2)
  (r.1 + val01, r.2 + val10)

/-- The first `n` iterations of the loop (R114). -/
def loop64 (m : Input) (val01 val10 : Word) (s : Word × Word) : Nat → Word × Word
  | 0 => s
  | n + 1 => iter64 m (16 * n) val01 val10 (loop64 m val01 val10 s n)

/-- `tail64` (R115): the last 16 bytes, whatever the remainder is. -/
def tail64 (m : Input) (L : Nat) : Word × Word := pack64 m (L - 16) 16

/-- `final64` (R116). -/
def final64 (a b seed1 seed2 val01 : Word) : Word :=
  let r := umul128 (a ^^^ seed1) (b ^^^ seed2)
  let q := umul128 (val01 ^^^ r.1) r.2
  q.1 ^^^ q.2

/-- The number of iterations of a loop of 16-byte chunks: it runs while more than 16 bytes remain
(R114, R134). -/
def chunks16 (L : Nat) : Nat := (L - 1) / 16

/-- `hash64` (R117), with R110's dispatch and R113's mask step. -/
def hash64 (m : Input) (L : Nat) (seed : Word) : Word :=
  let s := init64 L seed
  if L ≤ 16 then
    let ab := short64 m L
    final64 ab.1 ab.2 s.1 s.2 Val01
  else
    let val01 := Val01 ^^^ s.1
    let val10 := Val10 ^^^ s.2
    let t := loop64 m val01 val10 s (chunks16 L)
    let ab := tail64 m L
    final64 ab.1 ab.2 t.1 t.2 val01

end Sys2Proof.Machine
end

