-- ==== Sys2Proof/Machine/Hash32.lean ====
section
/-! DEFINITION. The 32-bit mixer (spec/43_hash32.md R130 to R137). -/

namespace Sys2Proof.Machine

/-- The words a short path or a tail packs: a, b and the optional c,d pair. -/
structure Words (w : Nat) where
  a : BitVec w
  b : BitVec w
  cd : Option (BitVec w × BitVec w)
  deriving DecidableEq, Repr

/-- `short32` (R131, R132): for L ≤ 16. -/
def short32 (m : Input) (L : Nat) : Words 32 :=
  if 4 ≤ L then
    { a := loadU32 m 0
      b := loadU32 m (L - 4)
      cd := if 9 ≤ L then
          some (loadU32 m (4 * (L >>> 3)), loadU32 m (L - 4 - 4 * (L >>> 3)))
        else none }
  else { a := packBytes 32 m L, b := 0#32, cd := none }

/-- One iteration of the 16-byte, 4-lane loop at offset `o` (R134): old seed4 into seed2, old seed1
into seed3. -/
def iter32 (m : Input) (o : Nat) (val01 val10 : Half) (s : Seeds 32) : Seeds 32 :=
  let r := umul64 (loadU32 m o + s.seed1) (loadU32 m (o + 4) + s.seed2)
  let q := umul64 (loadU32 m (o + 8) + s.seed3) (loadU32 m (o + 12) + s.seed4)
  { seed1 := r.1 + val01
    seed2 := r.2 + s.seed4
    seed3 := q.1 + s.seed1
    seed4 := q.2 + val10 }

/-- The first `n` iterations of the loop (R134). -/
def loop32 (m : Input) (val01 val10 : Half) (s : Seeds 32) : Nat → Seeds 32
  | 0 => s
  | n + 1 => iter32 m (16 * n) val01 val10 (loop32 m val01 val10 s n)

/-- `tail32` (R135). -/
def tail32 (m : Input) (L rem : Nat) : Words 32 :=
  { a := loadU32 m (L - 8)
    b := loadU32 m (L - 4)
    cd := if 9 ≤ rem then some (loadU32 m (L - 16), loadU32 m (L - 12)) else none }

/-- `final32` (R136), with the optional c,d fold before it. -/
def final32 (x : Words 32) (s : Seeds 32) (val01 : Half) : Half :=
  let f := match x.cd with
    | some (c, d) => umul64 (c + s.seed3) (d + s.seed4)
    | none => (s.seed3, s.seed4)
  let seed1 := s.seed1 ^^^ f.1
  let seed2 := s.seed2 ^^^ f.2
  let r := umul64 (x.a + seed1) (x.b + seed2)
  let q := umul64 (val01 ^^^ r.1) r.2
  q.1 ^^^ q.2

/-- `hash32` (R137), with R130's dispatch and R133's mask step. -/
def hash32 (m : Input) (L : Nat) (seed32 : Half) : Half :=
  let s := init32 L seed32
  if L ≤ 16 then final32 (short32 m L) s Val01_32
  else
    let val01 := Val01_32 ^^^ s.seed1
    let val10 := Val10_32 ^^^ s.seed2
    let t := loop32 m val01 val10 s (chunks16 L)
    final32 (tail32 m L (L - 16 * chunks16 L)) t val01

end Sys2Proof.Machine
end

