-- ==== Sys2Proof/Machine/Hash128.lean ====
section
/-! DEFINITION. The 128-bit mixer (spec/44_hash128.md R150 to R160): the pinned short path and
finalizer, the spec's reading of the long path (the default instance, R152 to R158) and the parameter
H128_LONG, which is what a digest of 17 bytes or more is (R160; DESIGN CHOICE, safe for RES: log 9). -/

namespace Sys2Proof.Machine

/-- The eight lanes of the 64-byte loop (R153). -/
structure Seeds8 where
  lo : Seeds 64
  hi : Seeds 64
  deriving DecidableEq, Repr

/-- seed5..seed8 as the 8-lane loop starts with them (R103). -/
def quartet : Seeds 64 := { seed1 := C5, seed2 := C6, seed3 := C7, seed4 := C8 }

/-- The rotated 8-byte word at an offset (R153, R155). -/
def rotWord (m : Input) (off : Nat) : Word := rotl32on64 (loadU64 m off)

/-- One half of an 8-lane iteration: 32 bytes into four lanes (R153). -/
def half128 (m : Input) (o : Nat) (val01 val10 : Word) (s : Seeds 64) : Seeds 64 :=
  let r := umul128 (rotWord m o + s.seed1) (rotWord m (o + 8) + s.seed2)
  let q := umul128 (rotWord m (o + 16) + s.seed3) (rotWord m (o + 24) + s.seed4)
  { seed1 := r.1 + val01, seed2 := r.2 + val10, seed3 := q.1 + val01, seed4 := q.2 + val10 }

/-- One iteration of the 8-lane 64-byte loop at offset `o` (R153). -/
def iter128 (m : Input) (o : Nat) (val01 val10 : Word) (s : Seeds8) : Seeds8 :=
  { lo := half128 m o val01 val10 s.lo, hi := half128 m (o + 32) val01 val10 s.hi }

/-- The first `n` iterations of the 8-lane loop (R153). -/
def loop128 (m : Input) (val01 val10 : Word) (s : Seeds8) : Nat → Seeds8
  | 0 => s
  | n + 1 => iter128 m (64 * n) val01 val10 (loop128 m val01 val10 s n)

/-- The fold of eight lanes into four (R154). -/
def fold128 (s : Seeds8) : Seeds 64 :=
  { seed1 := s.lo.seed1 ^^^ s.hi.seed1, seed2 := s.lo.seed2 ^^^ s.hi.seed2
    seed3 := s.lo.seed3 ^^^ s.hi.seed3, seed4 := s.lo.seed4 ^^^ s.hi.seed4 }

/-- `ProcessTail32` at offset `o` (R155): old seed4 into seed2, old seed1 into seed3. -/
def processTail32 (m : Input) (o : Nat) (val01 val10 : Word) (s : Seeds 64) : Seeds 64 :=
  let r := umul128 (rotWord m o + s.seed1) (rotWord m (o + 8) + s.seed2)
  let q := umul128 (rotWord m (o + 16) + s.seed3) (rotWord m (o + 24) + s.seed4)
  { seed1 := r.1 + val01, seed2 := r.2 + s.seed4, seed3 := q.1 + s.seed1, seed4 := q.2 + val10 }

/-- The number of 8-lane iterations: one while more than 64 bytes remain (R153). -/
def chunks64 (L : Nat) : Nat := (L - 1) / 64

/-- `tail128` (R156). -/
def tail128 (m : Input) (L rem : Nat) : Words 64 :=
  let ab := pack64 m (L - 16) 16
  { a := ab.1, b := ab.2, cd := if 17 ≤ rem then some (pack64 m (L - rem) 16) else none }

/-- `final128` (R157): (low, high). -/
def final128 (x : Words 64) (s : Seeds 64) (val01 : Word) : Word × Word :=
  let f := match x.cd with
    | some (c, d) => umul128 (c + s.seed3) (d + s.seed4)
    | none => (s.seed3, s.seed4)
  let r := umul128 (x.a + s.seed1) (x.b + s.seed2)
  let q := umul128 (val01 ^^^ r.1) r.2
  let h := umul128 (r.1 ^^^ f.1) (r.2 ^^^ f.2)
  (q.1 ^^^ q.2, h.1 ^^^ h.2)

/-- The short path's words (R151): the 64-bit short path, no pair. -/
def short128 (m : Input) (L : Nat) : Words 64 :=
  let ab := short64 m L
  { a := ab.1, b := ab.2, cd := none }

/-- The lanes after the 8-lane loop and the fold; without a loop, the initialized lanes (R153, R154). -/
def folded128 (m : Input) (L : Nat) (val01 val10 : Word) (s : Seeds 64) : Seeds 64 :=
  if 64 < L then fold128 (loop128 m val01 val10 { lo := s, hi := quartet } (chunks64 L)) else s

/-- `hash128_ref` (R158): normative for L ≤ 16. For L ≥ 17 it is the default instance of H128_LONG,
which no RES value rests on. -/
def hash128Ref (m : Input) (L : Nat) (seed : Word) : Word × Word :=
  let s := init128 L seed
  if L ≤ 16 then final128 (short128 m L) s Val01
  else
    let val01 := Val01 ^^^ s.seed1
    let val10 := Val10 ^^^ s.seed2
    let o := 64 * chunks64 L
    let t := folded128 m L val01 val10 s
    if 32 < L - o then
      final128 (tail128 m L (L - o - 32)) (processTail32 m o val01 val10 t) val01
    else final128 (tail128 m L (L - o)) t val01

/-- The bytes 0x00, 0x01, .., 0xFF of law 3 of R160. -/
def seq256 : List Byte := (List.range 256).map (BitVec.ofNat 8)

/-- H128_LONG (R160): a function of the bytes and the seed, free but for law 3. -/
def h128Long (bytes : List Byte) (seed : Word) : Word × Word :=
  if bytes = seq256 ∧ seed = 0#64 then (0x389d24736fc07578#64, 0xb528a757bfd3c6f1#64)
  else Config.h128Free bytes seed

/-- The 128-bit digest (R150, R158, R160): (low, high). -/
def hash128 (m : Input) (L : Nat) (seed : Word) : Word × Word :=
  if L ≤ 16 then hash128Ref m L seed else h128Long (bytesOf m L) seed

end Sys2Proof.Machine
end

