-- ==== Sys2Proof/Machine/State.lean ====
section
/-! DEFINITION. Every piece of state the spec gives the a5hash CORE (spec/10_state.md R20 to R30,
spec/20_memory.md R40), the model's own bookkeeping, the reset state, and the reasons a step stops. -/

namespace Sys2Proof.Machine

/-- The fields of STATUS (R21). Bits `[63:8]` have no storage: they read 0. -/
structure Status where
  /-- `[0]`: an operation is in progress. -/
  busy : Bool
  /-- `[1]`: the last taken command has finished. -/
  done : Bool
  /-- `[2]`: the last taken command ended with an error. -/
  err : Bool
  /-- `[3]`: a CMD write arrived while BUSY = 1 and was dropped. -/
  lost : Bool
  /-- `[7:4]`: the error code of the last taken command. -/
  errCode : BitVec 4
  deriving DecidableEq, Repr

/-- The latched operand record OPR (R23). `op` is the whole CMD value (R180; DEDUCED, safe: log 4). -/
structure Opr where
  op : Word
  seed : Word
  src : Word
  len : Word
  v0 : Word
  v1 : Word
  v2 : Word
  v3 : Word
  deriving DecidableEq, Repr

/-- The sequencer state PHASE (R26). -/
inductive Phase where
  | idle | run | doneOk | doneErr
  deriving DecidableEq, Repr

/-- The place of the algorithm within RUN (R26): seed init, dispatch, loop iterations, the two steps
the 128-bit variant has after its loop (R154, R155), tail, finalizer. -/
inductive Stage where
  | init | dispatch | loop | fold | tail32 | tail | final
  deriving DecidableEq, Repr

/-- One set of datapath registers of width `w` (R24); `hasCd` says whether a c,d pair was produced
(R131, R135, R156; DEDUCED, safe: log 10). -/
structure Lanes (w : Nat) where
  seed1 : BitVec w
  seed2 : BitVec w
  seed3 : BitVec w
  seed4 : BitVec w
  val01 : BitVec w
  val10 : BitVec w
  a : BitVec w
  b : BitVec w
  c : BitVec w
  d : BitVec w
  hasCd : Bool
  deriving DecidableEq, Repr

/-- The datapath registers of one operation (R24): the 64-bit set with seed5..seed8, the 32-bit set
once for each lane of HASH32X4 (R198; DEDUCED, safe: log 11), the read offset, the remaining length and the stage. -/
structure Datapath where
  wide : Lanes 64
  seed5 : Word
  seed6 : Word
  seed7 : Word
  seed8 : Word
  lane0 : Lanes 32
  lane1 : Lanes 32
  lane2 : Lanes 32
  lane3 : Lanes 32
  /-- The byte offset of the next chunk from OPR.src. -/
  p : Nat
  /-- The bytes not yet consumed by a loop. -/
  rem : Nat
  stage : Stage
  deriving DecidableEq, Repr

/-- The input memory IN: its size (IN_SIZE, R8) and the bytes the host has written, addresses strictly
rising. An unlisted address holds its unknown power-up byte (R40, R240; DESIGN CHOICE, safe: log 5, log 6). -/
structure InMem where
  size : Nat
  cells : List Host.Cell
  deriving DecidableEq, Repr

/-- The machine's state. -/
structure State where
  /-- STATUS (R21). -/
  status : Status
  /-- SEED, SRC, LEN, VAL0..VAL3 (R20). -/
  seed : Word
  src : Word
  len : Word
  val0 : Word
  val1 : Word
  val2 : Word
  val3 : Word
  /-- RES0..RES3 (R20, R22). -/
  res0 : Word
  res1 : Word
  res2 : Word
  res3 : Word
  /-- OPR (R23). Between operations it keeps the last taken command's record (DESIGN CHOICE, unsafe: log 19). -/
  opr : Opr
  /-- PHASE (R26). -/
  phase : Phase
  /-- The datapath registers (R24) and the sequencer's place (R26). Between operations they keep their last
  values (DESIGN CHOICE, unsafe: log 19). -/
  dp : Datapath
  /-- IN (R40). -/
  mem : InMem
  /-- The model's own: the host has written the running operation's window (R243; DESIGN CHOICE, safe: log 7). -/
  hazard : Bool
  /-- The model's own: how many free words have been drawn (DESIGN CHOICE, safe: log 7). -/
  draws : Nat
  /-- The model's own: the host's pending accesses, in order (R51; DESIGN CHOICE, safe: log 1). -/
  script : List Slot
  /-- The model's own: the value the host's last read returned (DESIGN CHOICE, safe: log 12). -/
  hostData : Word
  deriving DecidableEq, Repr

/-- Why the machine stops with a fault. -/
inductive Fault where
  /-- Raised by a host write of IN at an address at or above IN_SIZE, and by a running operation whose
  window does not lie in IN: the address does not exist (R40, R49).
  Safe (DESIGN CHOICE: log 13; DEDUCED: log 14). -/
  | inAddressAbsent (addr : Nat)
  /-- Raised by the sequencer in a RUN state whose OPR.op is no command: no rule gives it a step
  (R180). Safe; no run reaches it (DEDUCED: log 14). -/
  | runWithoutCommand
  deriving DecidableEq, Repr

/-- Why the machine refuses. -/
inductive Refusal where
  /-- Raised by exec for an instruction without a meaning. Safe; no arm raises it. -/
  | notModelled (mnemonic : String)
  /-- Raised by a host access to the register window that is not a 64-bit access at a multiple of 8
  inside 0x00..0xFF: the spec gives it no meaning (R214, U14). Safe. -/
  | accessOutsideInterface (offset width : Nat)
  deriving DecidableEq, Repr

/-- STATUS after reset (R21, R240). -/
def Status.reset : Status := ⟨false, false, false, false, 0⟩

/-- OPR at reset: the spec leaves it unspecified (R30; DESIGN CHOICE, unsafe: log 3). -/
def Opr.reset : Opr := ⟨0, 0, 0, 0, 0, 0, 0, 0⟩

/-- A set of datapath registers at reset: unspecified (R30; DESIGN CHOICE, unsafe: log 3). -/
def Lanes.reset (w : Nat) : Lanes w := ⟨0, 0, 0, 0, 0, 0, 0, 0, 0, 0, false⟩

/-- The datapath at reset: unspecified (R30; DESIGN CHOICE, unsafe: log 3). -/
def Datapath.reset : Datapath :=
  { wide := Lanes.reset 64, seed5 := 0, seed6 := 0, seed7 := 0, seed8 := 0
    lane0 := Lanes.reset 32, lane1 := Lanes.reset 32, lane2 := Lanes.reset 32, lane3 := Lanes.reset 32
    p := 0, rem := 0, stage := .init }

/-- The machine right after reset (R30, R240): every host-visible register 0, PHASE idle, IN as at
power-up. -/
def State.reset : State :=
  { status := Status.reset
    seed := 0, src := 0, len := 0, val0 := 0, val1 := 0, val2 := 0, val3 := 0
    res0 := 0, res1 := 0, res2 := 0, res3 := 0
    opr := Opr.reset, phase := .idle, dp := Datapath.reset
    mem := { size := Config.inSize, cells := [] }
    hazard := false, draws := 0, script := [], hostData := 0 }

end Sys2Proof.Machine
end

