-- ==== Sys2Proof/Machine/Flags.lean ====
section
/-! DEFINITION. STATUS: the word the host reads and every change the block makes to its fields
(spec/10_state.md R21, spec/45_commands.md R180, R181, spec/60_exceptions.md R210, R213). The block has no
other flag (R27). -/

namespace Sys2Proof.Machine

/-- ERRCODE 1, BOUNDS (R210, R211). -/
def errBounds : BitVec 4 := 1#4

/-- ERRCODE 2, ILLEGAL (R210, R212). -/
def errIllegal : BitVec 4 := 2#4

/-- STATUS as the host reads it: bits `[63:8]` are 0 (R21). -/
def Status.word (s : Status) : Word :=
  0#56 ++ s.errCode ++ BitVec.ofBool s.lost ++ BitVec.ofBool s.err ++ BitVec.ofBool s.done
    ++ BitVec.ofBool s.busy

/-- A command is taken: DONE, ERR, LOST and ERRCODE are cleared (R180). -/
def Status.cleared (s : Status) : Status :=
  { s with done := false, err := false, lost := false, errCode := 0#4 }

/-- The operation starts: BUSY is set (R180). -/
def Status.started (s : Status) : Status := { s with busy := true }

/-- The command is rejected with an error code (R180, R210). -/
def Status.rejected (s : Status) (code : BitVec 4) : Status :=
  { s with busy := false, done := true, err := true, errCode := code }

/-- The operation completes: BUSY is cleared and DONE set; ERR and ERRCODE remain (R181). -/
def Status.completed (s : Status) : Status := { s with busy := false, done := true }

/-- A CMD write was dropped: LOST is set (R180, R213). -/
def Status.dropped (s : Status) : Status := { s with lost := true }

end Sys2Proof.Machine
end

