-- ==== Sys2Proof/Machine/Ops.lean ====
section
/-! DEFINITION. The named operations over IN and the registers: the bytes of IN (spec/20_memory.md R40,
R41), the register window (spec/10_state.md R20), taking, dropping, rejecting and completing a command
(spec/45_commands.md R180, R181, R182), and reset (spec/70_reset_and_hazards.md R240). Rejection is the
block's one way of reporting an error; there is no trap entry and no return (R217, R218). -/

namespace Sys2Proof.Machine

/-- The byte the host has written at an address, if any. -/
def cellsRead : List Host.Cell → Nat → Option Byte
  | [], _ => none
  | (k, b) :: rest, a => if k = a then some b else cellsRead rest a

/-- Write one byte, keeping the addresses strictly rising. -/
def cellsWrite : List Host.Cell → Nat → Byte → List Host.Cell
  | [], a, b => [(a, b)]
  | (k, c) :: rest, a, b =>
    if a < k then (a, b) :: (k, c) :: rest
    else if a = k then (a, b) :: rest
    else (k, c) :: cellsWrite rest a b

/-- Every address of the list lies at or above `lo` and below `hi`, and the addresses strictly rise. -/
def cellsRising : Nat → Nat → List Host.Cell → Bool
  | _, _, [] => true
  | lo, hi, (k, _) :: rest => Nat.ble lo k && Nat.blt k hi && cellsRising (k + 1) hi rest

/-- The canonical form of IN: a legal size (R8), and written bytes in strictly rising order, all of them
inside IN. No byte is listed twice; an unlisted byte is one that nothing has written (DESIGN CHOICE, safe: log 5). -/
def InMem.wf (m : InMem) : Bool :=
  Nat.ble 1 m.size && Nat.ble m.size (2 ^ 64) && cellsRising 0 m.size m.cells

/-- The byte of IN at an address (R40): the last one written, else its power-up byte (DESIGN CHOICE, safe: log 5). -/
def InMem.byte (m : InMem) (a : Nat) : Byte := (cellsRead m.cells a).getD (Config.powerUpByte a)

/-- The host writes one byte of IN. -/
def InMem.write (m : InMem) (a : Nat) (b : Byte) : InMem :=
  { m with cells := cellsWrite m.cells a b }

/-- The window `[src, src + n)` lies in IN, on exact integers (R49, R183). -/
def InMem.fits (m : InMem) (src n : Nat) : Bool := Nat.ble (src + n) m.size

/-- The offset of each register in the window (R20). -/
def regOffset : Reg → Nat
  | .cmd => 0x00 | .status => 0x08 | .seed => 0x10 | .src => 0x18 | .len => 0x20
  | .val0 => 0x28 | .val1 => 0x30 | .val2 => 0x38 | .val3 => 0x40
  | .res0 => 0x48 | .res1 => 0x50 | .res2 => 0x58 | .res3 => 0x60

/-- The register at an offset; none at a reserved offset (R20). -/
def regAt (offset : Nat) : Option Reg :=
  if offset = 0x00 then some .cmd else if offset = 0x08 then some .status
  else if offset = 0x10 then some .seed else if offset = 0x18 then some .src
  else if offset = 0x20 then some .len else if offset = 0x28 then some .val0
  else if offset = 0x30 then some .val1 else if offset = 0x38 then some .val2
  else if offset = 0x40 then some .val3 else if offset = 0x48 then some .res0
  else if offset = 0x50 then some .res1 else if offset = 0x58 then some .res2
  else if offset = 0x60 then some .res3 else none

/-- What a read of a register returns; CMD holds no value (R20, R210; DEDUCED, safe: log 2). -/
def State.readReg (s : State) : Reg → Word
  | .cmd => 0#64
  | .status => s.status.word
  | .seed => s.seed | .src => s.src | .len => s.len
  | .val0 => s.val0 | .val1 => s.val1 | .val2 => s.val2 | .val3 => s.val3
  | .res0 => s.res0 | .res1 => s.res1 | .res2 => s.res2 | .res3 => s.res3

/-- What a read of the window at an offset returns; reserved offsets read 0 (R20). -/
def State.readWindow (s : State) (offset : Nat) : Word :=
  match regAt offset with
  | some r => s.readReg r
  | none => 0#64

/-- A write of a register other than CMD: the operand registers store every value, STATUS and RES ignore
writes (R20, R48). CMD is no storage: a write of it is a command (R180). -/
def State.writeReg (s : State) (r : Reg) (v : Word) : State :=
  match r with
  | .seed => { s with seed := v }
  | .src => { s with src := v }
  | .len => { s with len := v }
  | .val0 => { s with val0 := v }
  | .val1 => { s with val1 := v }
  | .val2 => { s with val2 := v }
  | .val3 => { s with val3 := v }
  | .cmd => s
  | .status => s
  | .res0 => s | .res1 => s | .res2 => s | .res3 => s

/-- A CMD write while BUSY = 1: LOST is set and nothing else changes (R180, R213). -/
def State.drop (s : State) : State := { s with status := s.status.dropped }

/-- A command is taken: the flags are cleared and the operands latched (R23, R180). -/
def State.latch (s : State) (v : Word) : State :=
  { s with
    status := s.status.cleared
    opr := { op := v, seed := s.seed, src := s.src, len := s.len
             v0 := s.val0, v1 := s.val1, v2 := s.val2, v3 := s.val3 } }

/-- The block's error report (R180 `reject`, R210): STATUS and PHASE, nothing else. OPR and the datapath
registers, unspecified between operations, stay as they stand (R24, U12; DESIGN CHOICE, unsafe: log 19). -/
def State.reject (s : State) (code : BitVec 4) : State :=
  { s with status := s.status.rejected code, phase := .doneErr }

/-- The operation starts (R180): BUSY, RUN, the sequencer at its first step. Until the seed init writes them,
the datapath registers hold what they held: outside an operation the spec leaves their value unspecified
(R24, U12; DESIGN CHOICE, unsafe: log 19). -/
def State.start (s : State) : State :=
  { s with
    status := s.status.started
    phase := .run
    dp := { s.dp with stage := .init }
    hazard := false }

/-- An operation whose window is the `n` bytes of IN at OPR.src: it starts if they fit, and is rejected
with BOUNDS otherwise (R49, R180, R211). -/
def State.startWindowed (s : State) (n : Nat) : State :=
  if s.mem.fits s.opr.src.toNat n then s.start else s.reject errBounds

/-- A write of `v` to CMD (R180): dropped while BUSY, else taken and carried on by `k`. -/
def State.issue (s : State) (v : Word) (k : State → State) : State :=
  if s.status.busy then s.drop else k (s.latch v)

/-- A write of an illegal value to CMD (R63, R180, R212, R215). -/
def State.issueIllegal (s : State) (v : Word) : State :=
  s.issue v fun t => t.reject errIllegal

/-- The four digest words (R182). -/
structure Res where
  r0 : Word
  r1 : Word
  r2 : Word
  r3 : Word
  deriving DecidableEq, Repr

/-- A 32-bit digest in RES (R182). -/
def res32 (h : Half) : Res := ⟨h.setWidth 64, 0, 0, 0⟩

/-- A 64-bit digest in RES (R182). -/
def res64 (h : Word) : Res := ⟨h, 0, 0, 0⟩

/-- A 128-bit digest in RES: low, high (R182). -/
def res128 (h : Word × Word) : Res := ⟨h.1, h.2, 0, 0⟩

/-- The four digests of HASH32X4 in RES (R182). -/
def res32x4 (h0 h1 h2 h3 : Half) : Res :=
  ⟨h0.setWidth 64, h1.setWidth 64, h2.setWidth 64, h3.setWidth 64⟩

/-- Completion, one atomic step (R181): all four RES words, STATUS and PHASE. What OPR and the datapath
registers hold from here on is unspecified; they stay as they stand (R24, U12; DESIGN CHOICE, unsafe: log 19). -/
def State.complete (s : State) (r : Res) : State :=
  { s with
    res0 := r.r0, res1 := r.r1, res2 := r.r2, res3 := r.r3
    status := s.status.completed
    phase := .doneOk }

/-- The datapath registers and the sequencer's place are written (R24, R26). -/
def State.setDp (s : State) (d : Datapath) : State := { s with dp := d }

/-- Reset takes effect (R240, R241): the registers as after reset, IN unchanged. The host's script, its
last read and the count of drawn words are the model's own and stay (DESIGN CHOICE, unsafe: log 3, log 15). -/
def State.onReset (s : State) : State :=
  { State.reset with
    mem := s.mem, draws := s.draws, script := s.script, hostData := s.hostData }

/-- A window access the interface knows: 64 bits, a multiple of 8, inside 0x00..0xFF (R45, R214). -/
def inInterface (offset width : Nat) : Bool :=
  Nat.beq width 64 && Nat.beq (offset % 8) 0 && Nat.ble offset 0xFF

/-- One outcome after another: a fault or a refusal ends the step. -/
def andThen (o : Host.Outcome State Fault Refusal)
    (k : State → Host.Outcome State Fault Refusal) : Host.Outcome State Fault Refusal :=
  match o with
  | .next s => k s
  | .fault r => .fault r
  | .refused r => .refused r

end Sys2Proof.Machine
end

