-- ==== Sys2Proof/Machine/Operands.lean ====
section
/-! DEFINITION. The operand forms of a command (spec/30_encoding.md R61; spec/45_commands.md R183, R184,
R185): what the datapath is asked to do, read from OPR and IN alone (R23), and the digest it must give
(R182, R186 to R198). -/

namespace Sys2Proof.Machine

/-- Which mixer runs: one of the three widths, or the 32-bit one in four lanes (R198). -/
inductive Mixer where
  | m32 | m64 | m128 | m32x4
  deriving DecidableEq, Repr

/-- One operation, as the datapath sees it: the mixer, the exact length L, the latched seed, whether the
input is a window of IN, and the input bytes of each lane (only HASH32X4 has more than one). -/
structure Job where
  mixer : Mixer
  nbytes : Nat
  seed : Word
  windowed : Bool
  input : Nat → Input

/-- The input of a BUF or T16 operation: the bytes of IN from OPR.src on (R184). -/
def windowInput (o : Opr) (m : InMem) : Input := fun i => m.byte (o.src.toNat + i)

/-- The operands of a BUF command: L = OPR.len (R183). -/
def bufJob (x : Mixer) (o : Opr) (m : InMem) : Job :=
  { mixer := x, nbytes := o.len.toNat, seed := o.seed, windowed := true
    input := fun _ => windowInput o m }

/-- The operands of a T16 command: L = 2 * OPR.len, exact (R183). -/
def textJob (x : Mixer) (o : Opr) (m : InMem) : Job :=
  { mixer := x, nbytes := 2 * o.len.toNat, seed := o.seed, windowed := true
    input := fun _ => windowInput o m }

/-- The operands of a V4 command: the 4 low bytes of OPR.v0 (R183, R185). -/
def v4Job (x : Mixer) (o : Opr) : Job :=
  { mixer := x, nbytes := 4, seed := o.seed, windowed := false, input := fun _ => wordBytes o.v0 }

/-- The operands of a V8 command: the 8 bytes of OPR.v0 (R183, R185). -/
def v8Job (x : Mixer) (o : Opr) : Job :=
  { mixer := x, nbytes := 8, seed := o.seed, windowed := false, input := fun _ => wordBytes o.v0 }

/-- The value of each lane of HASH32X4 (R198). -/
def laneValue (o : Opr) : Nat → Word
  | 0 => o.v0
  | 1 => o.v1
  | 2 => o.v2
  | _ => o.v3

/-- The operands of HASH32X4: 4 bytes of each value, one seed (R183, R198). -/
def batchJob (o : Opr) : Job :=
  { mixer := .m32x4, nbytes := 4, seed := o.seed, windowed := false
    input := fun k => wordBytes (laneValue o k) }

/-- The 32-bit digest of one lane of an operation. -/
def Job.hash32Lane (j : Job) (k : Nat) : Half := hash32 (j.input k) j.nbytes (seed32Of j.seed)

/-- The digest words of an operation: the mixer's whole function on the input, placed as R182 says. The
sequencer's result is proved equal to it (Laws/Sequencer.lean). -/
def Job.digest (j : Job) : Res :=
  match j.mixer with
  | .m32 => res32 (j.hash32Lane 0)
  | .m64 => res64 (hash64 (j.input 0) j.nbytes j.seed)
  | .m128 => res128 (hash128 (j.input 0) j.nbytes j.seed)
  | .m32x4 => res32x4 (j.hash32Lane 0) (j.hash32Lane 1) (j.hash32Lane 2) (j.hash32Lane 3)

/-- The digest words when the host broke R50: the digest is any value, the words the command does not use
are 0 (R182, R243; DESIGN CHOICE, safe: log 7). HASH32X4 has no window. -/
def freeDigest (x : Mixer) (n : Nat) : Res :=
  match x with
  | .m32 => res32 ((Config.freeWord n).setWidth 32)
  | .m64 => res64 (Config.freeWord n)
  | .m128 => res128 (Config.freeWord n, Config.freeWord (n + 1))
  | .m32x4 => res32x4 ((Config.freeWord n).setWidth 32) ((Config.freeWord (n + 1)).setWidth 32)
      ((Config.freeWord (n + 2)).setWidth 32) ((Config.freeWord (n + 3)).setWidth 32)

end Sys2Proof.Machine
end

