-- ==== Sys2Proof/Machine/Batch.lean ====
section
/-! DEFINITION. The batched command (spec/45_commands.md R198): for each command its
operands and its meaning, a write of its value to CMD (R180). The digest follows in the completion step
(R181), computed from the operands given here. -/

namespace Sys2Proof.Machine

/-- The operands of HASH32X4 (R198): 4 bytes of each of OPR.v0..OPR.v3, one seed. -/
def jobHash32x4 (o : Opr) : Job := batchJob o

/-- HASH32X4 (R198): taken unless BUSY, and started; it reads no memory and has no bounds check. -/
def execHash32x4 (s : State) : Host.Outcome State Fault Refusal :=
  .next (s.issue (encode .hash32x4) State.start)

end Sys2Proof.Machine
end

