-- ==== Sys2Proof/Machine/Buf.lean ====
section
/-! DEFINITION. The byte-buffer commands (spec/45_commands.md R186, R187, R188): for each command its
operands and its meaning, a write of its value to CMD (R180). The digest follows in the completion step
(R181), computed from the operands given here. -/

namespace Sys2Proof.Machine

/-- The operands of HASH32.BUF (R186): OPR.len bytes of IN at OPR.src. -/
def jobHash32Buf (o : Opr) (m : InMem) : Job := bufJob .m32 o m

/-- HASH32.BUF (R186): taken unless BUSY, rejected with BOUNDS unless its window fits, else started. -/
def execHash32Buf (s : State) : Host.Outcome State Fault Refusal :=
  .next (s.issue (encode .hash32Buf) fun t => t.startWindowed (jobHash32Buf t.opr t.mem).nbytes)

/-- The operands of HASH64.BUF (R187): OPR.len bytes of IN at OPR.src. -/
def jobHash64Buf (o : Opr) (m : InMem) : Job := bufJob .m64 o m

/-- HASH64.BUF (R187): taken unless BUSY, rejected with BOUNDS unless its window fits, else started. -/
def execHash64Buf (s : State) : Host.Outcome State Fault Refusal :=
  .next (s.issue (encode .hash64Buf) fun t => t.startWindowed (jobHash64Buf t.opr t.mem).nbytes)

/-- The operands of HASH128.BUF (R188): OPR.len bytes of IN at OPR.src. -/
def jobHash128Buf (o : Opr) (m : InMem) : Job := bufJob .m128 o m

/-- HASH128.BUF (R188): taken unless BUSY, rejected with BOUNDS unless its window fits, else started. -/
def execHash128Buf (s : State) : Host.Outcome State Fault Refusal :=
  .next (s.issue (encode .hash128Buf) fun t => t.startWindowed (jobHash128Buf t.opr t.mem).nbytes)

end Sys2Proof.Machine
end

