-- ==== Sys2Proof/Machine/Text.lean ====
section
/-! DEFINITION. The UTF-16 text commands (spec/45_commands.md R189, R190, R191): for each command its
operands and its meaning, a write of its value to CMD (R180). The digest follows in the completion step
(R181), computed from the operands given here. -/

namespace Sys2Proof.Machine

/-- The operands of HASH32.T16 (R189): 2 * OPR.len bytes of IN at OPR.src. -/
def jobHash32T16 (o : Opr) (m : InMem) : Job := textJob .m32 o m

/-- HASH32.T16 (R189): taken unless BUSY, rejected with BOUNDS unless its window fits, else started. -/
def execHash32T16 (s : State) : Host.Outcome State Fault Refusal :=
  .next (s.issue (encode .hash32T16) fun t => t.startWindowed (jobHash32T16 t.opr t.mem).nbytes)

/-- The operands of HASH64.T16 (R190): 2 * OPR.len bytes of IN at OPR.src. -/
def jobHash64T16 (o : Opr) (m : InMem) : Job := textJob .m64 o m

/-- HASH64.T16 (R190): taken unless BUSY, rejected with BOUNDS unless its window fits, else started. -/
def execHash64T16 (s : State) : Host.Outcome State Fault Refusal :=
  .next (s.issue (encode .hash64T16) fun t => t.startWindowed (jobHash64T16 t.opr t.mem).nbytes)

/-- The operands of HASH128.T16 (R191): 2 * OPR.len bytes of IN at OPR.src. -/
def jobHash128T16 (o : Opr) (m : InMem) : Job := textJob .m128 o m

/-- HASH128.T16 (R191): taken unless BUSY, rejected with BOUNDS unless its window fits, else started. -/
def execHash128T16 (s : State) : Host.Outcome State Fault Refusal :=
  .next (s.issue (encode .hash128T16) fun t => t.startWindowed (jobHash128T16 t.opr t.mem).nbytes)

end Sys2Proof.Machine
end

