-- ==== Sys2Proof/Machine/Value.lean ====
section
/-! DEFINITION. The fixed-value commands (spec/45_commands.md R192 to R197): for each command its
operands and its meaning, a write of its value to CMD (R180). The digest follows in the completion step
(R181), computed from the operands given here. -/

namespace Sys2Proof.Machine

/-- The operands of HASH32.V4 (R192): the 4 low bytes of OPR.v0. -/
def jobHash32V4 (o : Opr) : Job := v4Job .m32 o

/-- HASH32.V4 (R192): taken unless BUSY, and started; it reads no memory and has no bounds check. -/
def execHash32V4 (s : State) : Host.Outcome State Fault Refusal :=
  .next (s.issue (encode .hash32V4) State.start)

/-- The operands of HASH64.V4 (R193): the 4 low bytes of OPR.v0. -/
def jobHash64V4 (o : Opr) : Job := v4Job .m64 o

/-- HASH64.V4 (R193): taken unless BUSY, and started; it reads no memory and has no bounds check. -/
def execHash64V4 (s : State) : Host.Outcome State Fault Refusal :=
  .next (s.issue (encode .hash64V4) State.start)

/-- The operands of HASH128.V4 (R194): the 4 low bytes of OPR.v0. -/
def jobHash128V4 (o : Opr) : Job := v4Job .m128 o

/-- HASH128.V4 (R194): taken unless BUSY, and started; it reads no memory and has no bounds check. -/
def execHash128V4 (s : State) : Host.Outcome State Fault Refusal :=
  .next (s.issue (encode .hash128V4) State.start)

/-- The operands of HASH32.V8 (R195): the 8 bytes of OPR.v0. -/
def jobHash32V8 (o : Opr) : Job := v8Job .m32 o

/-- HASH32.V8 (R195): taken unless BUSY, and started; it reads no memory and has no bounds check. -/
def execHash32V8 (s : State) : Host.Outcome State Fault Refusal :=
  .next (s.issue (encode .hash32V8) State.start)

/-- The operands of HASH64.V8 (R196): the 8 bytes of OPR.v0. -/
def jobHash64V8 (o : Opr) : Job := v8Job .m64 o

/-- HASH64.V8 (R196): taken unless BUSY, and started; it reads no memory and has no bounds check. -/
def execHash64V8 (s : State) : Host.Outcome State Fault Refusal :=
  .next (s.issue (encode .hash64V8) State.start)

/-- The operands of HASH128.V8 (R197): the 8 bytes of OPR.v0. -/
def jobHash128V8 (o : Opr) : Job := v8Job .m128 o

/-- HASH128.V8 (R197): taken unless BUSY, and started; it reads no memory and has no bounds check. -/
def execHash128V8 (s : State) : Host.Outcome State Fault Refusal :=
  .next (s.issue (encode .hash128V8) State.start)

end Sys2Proof.Machine
end

