-- ==== Sys2Proof/Machine/Dispatch.lean ====
section
/-! DEFINITION. The dispatch over the 13 commands: one arm for each, one direct call of its meaning. -/

namespace Sys2Proof.Machine

def exec (i : Instr) (s : State) : Host.Outcome State Fault Refusal :=
  match i with
  | .hash32Buf => Sys2Proof.Machine.execHash32Buf s
  | .hash64Buf => Sys2Proof.Machine.execHash64Buf s
  | .hash128Buf => Sys2Proof.Machine.execHash128Buf s
  | .hash32T16 => Sys2Proof.Machine.execHash32T16 s
  | .hash64T16 => Sys2Proof.Machine.execHash64T16 s
  | .hash128T16 => Sys2Proof.Machine.execHash128T16 s
  | .hash32V4 => Sys2Proof.Machine.execHash32V4 s
  | .hash64V4 => Sys2Proof.Machine.execHash64V4 s
  | .hash128V4 => Sys2Proof.Machine.execHash128V4 s
  | .hash32V8 => Sys2Proof.Machine.execHash32V8 s
  | .hash64V8 => Sys2Proof.Machine.execHash64V8 s
  | .hash128V8 => Sys2Proof.Machine.execHash128V8 s
  | .hash32x4 => Sys2Proof.Machine.execHash32x4 s

end Sys2Proof.Machine
end

