-- ==== Sys2Proof/Machine/Sequencer.lean ====
section
/-! DEFINITION. The sequencer: what the core does by itself while PHASE = RUN, one step of the algorithm
at a time, in the order of spec/10_state.md R26, over the datapath registers of R24. The digest is
written in one atomic completion step (spec/45_commands.md R181). The grain of these steps is the
model's: no rule counts them, and a slot of the host's script may hold any number of them
(DESIGN CHOICE, unsafe for a count: log 1, log 8). -/

namespace Sys2Proof.Machine

/-- What the datapath is asked to do for each command (R186 to R198). -/
def jobOf (i : Instr) (o : Opr) (m : InMem) : Job :=
  match i with
  | .hash32Buf => jobHash32Buf o m
  | .hash64Buf => jobHash64Buf o m
  | .hash128Buf => jobHash128Buf o m
  | .hash32T16 => jobHash32T16 o m
  | .hash64T16 => jobHash64T16 o m
  | .hash128T16 => jobHash128T16 o m
  | .hash32V4 => jobHash32V4 o
  | .hash64V4 => jobHash64V4 o
  | .hash128V4 => jobHash128V4 o
  | .hash32V8 => jobHash32V8 o
  | .hash64V8 => jobHash64V8 o
  | .hash128V8 => jobHash128V8 o
  | .hash32x4 => jobHash32x4 o

/-! ### Registers of one set -/

/-- The four seed registers. -/
def Lanes.seeds {w : Nat} (l : Lanes w) : Seeds w :=
  { seed1 := l.seed1, seed2 := l.seed2, seed3 := l.seed3, seed4 := l.seed4 }

/-- Write the four seed registers. -/
def Lanes.setSeeds {w : Nat} (l : Lanes w) (s : Seeds w) : Lanes w :=
  { l with seed1 := s.seed1, seed2 := s.seed2, seed3 := s.seed3, seed4 := s.seed4 }

/-- Write seed1 and seed2; the 64-bit variant uses no other (R24). -/
def Lanes.setPair {w : Nat} (l : Lanes w) (s : BitVec w × BitVec w) : Lanes w :=
  { l with seed1 := s.1, seed2 := s.2 }

/-- The working copies start equal to the parity masks (R25, R100). -/
def Lanes.setMasks {w : Nat} (l : Lanes w) (m01 m10 : BitVec w) : Lanes w :=
  { l with val01 := m01, val10 := m10 }

/-- The masks are xored once with the initialized seeds (R113, R133, R152). -/
def Lanes.xorMasks {w : Nat} (l : Lanes w) : Lanes w :=
  { l with val01 := l.val01 ^^^ l.seed1, val10 := l.val10 ^^^ l.seed2 }

/-- Write a and b and, where a pair was produced, c and d (R131, R135, R156). Without a pair c and d are not
used and stay as they stand (R24; DESIGN CHOICE, unsafe: log 19). -/
def Lanes.setWords {w : Nat} (l : Lanes w) (x : Words w) : Lanes w :=
  match x.cd with
  | some (c, d) => { l with a := x.a, b := x.b, c := c, d := d, hasCd := true }
  | none => { l with a := x.a, b := x.b, hasCd := false }

/-- The words a finalizer reads. -/
def Lanes.words {w : Nat} (l : Lanes w) : Words w :=
  { a := l.a, b := l.b, cd := if l.hasCd then some (l.c, l.d) else none }

/-! ### The 64-bit variant -/

/-- One step of the 64-bit algorithm before its finalizer (R110 to R115, R117). -/
def step64 (j : Job) (d : Datapath) : Datapath :=
  let m := j.input 0
  match d.stage with
  | .init =>
    { d with wide := (d.wide.setPair (init64 j.nbytes j.seed)).setMasks Val01 Val10
             p := 0, rem := j.nbytes, stage := .dispatch }
  | .dispatch =>
    if j.nbytes ≤ 16 then
      { d with wide := d.wide.setWords { a := (short64 m j.nbytes).1, b := (short64 m j.nbytes).2, cd := none }
               stage := .final }
    else { d with wide := d.wide.xorMasks, stage := .loop }
  | .loop =>
    { d with wide := d.wide.setPair
               (iter64 m d.p d.wide.val01 d.wide.val10 (d.wide.seed1, d.wide.seed2))
             p := d.p + 16, rem := d.rem - 16
             stage := if d.rem - 16 ≤ 16 then .tail else .loop }
  | .tail =>
    { d with wide := d.wide.setWords { a := (tail64 m j.nbytes).1, b := (tail64 m j.nbytes).2, cd := none }
             stage := .final }
  | .fold => d
  | .tail32 => d
  | .final => d

/-- The 64-bit finalizer on the registers (R116). It gives the digest and writes none of them back (DESIGN
CHOICE, unsafe for the registers: log 19). -/
def Lanes.final64 (l : Lanes 64) : Word :=
  Sys2Proof.Machine.final64 l.a l.b l.seed1 l.seed2 l.val01

/-! ### The 32-bit variant -/

/-- Apply one register step to the lane in use, or to all four lanes of HASH32X4 (R198). -/
def Datapath.mapLanes (j : Job) (f : Input → Lanes 32 → Lanes 32) (d : Datapath) : Datapath :=
  match j.mixer with
  | .m32x4 =>
    { d with lane0 := f (j.input 0) d.lane0, lane1 := f (j.input 1) d.lane1
             lane2 := f (j.input 2) d.lane2, lane3 := f (j.input 3) d.lane3 }
  | _ => { d with lane0 := f (j.input 0) d.lane0 }

/-- One step of the 32-bit algorithm before its finalizer (R130 to R135, R137). -/
def step32 (j : Job) (d : Datapath) : Datapath :=
  match d.stage with
  | .init =>
    { d.mapLanes j (fun _ l =>
        (l.setSeeds (init32 j.nbytes (seed32Of j.seed))).setMasks Val01_32 Val10_32) with
      p := 0, rem := j.nbytes, stage := .dispatch }
  | .dispatch =>
    if j.nbytes ≤ 16 then
      { d.mapLanes j (fun m l => l.setWords (short32 m j.nbytes)) with stage := .final }
    else { d.mapLanes j (fun _ l => l.xorMasks) with stage := .loop }
  | .loop =>
    { d.mapLanes j (fun m l => l.setSeeds (iter32 m d.p l.val01 l.val10 l.seeds)) with
      p := d.p + 16, rem := d.rem - 16
      stage := if d.rem - 16 ≤ 16 then .tail else .loop }
  | .tail =>
    { d.mapLanes j (fun m l => l.setWords (tail32 m j.nbytes d.rem)) with stage := .final }
  | .fold => d
  | .tail32 => d
  | .final => d

/-- The 32-bit finalizer on the registers of one lane (R136); none is written back (DESIGN CHOICE, unsafe for
the registers: log 19). -/
def Lanes.final32 (l : Lanes 32) : Half := Sys2Proof.Machine.final32 l.words l.seeds l.val01

/-! ### The 128-bit variant -/

/-- seed5..seed8. -/
def Datapath.upper (d : Datapath) : Seeds 64 :=
  { seed1 := d.seed5, seed2 := d.seed6, seed3 := d.seed7, seed4 := d.seed8 }

/-- Write seed5..seed8. -/
def Datapath.setUpper (d : Datapath) (s : Seeds 64) : Datapath :=
  { d with seed5 := s.seed1, seed6 := s.seed2, seed7 := s.seed3, seed8 := s.seed4 }

/-- One step of the 128-bit algorithm before its finalizer (R150 to R156, R158). For L ≥ 17 these are the
steps of the spec's reading; no digest rests on them (R160; DESIGN CHOICE, safe for RES: log 9). -/
def step128 (j : Job) (d : Datapath) : Datapath :=
  let m := j.input 0
  match d.stage with
  | .init =>
    { d with wide := (d.wide.setSeeds (init128 j.nbytes j.seed)).setMasks Val01 Val10
             p := 0, rem := j.nbytes, stage := .dispatch }
  | .dispatch =>
    if j.nbytes ≤ 16 then
      { d with wide := d.wide.setWords (short128 m j.nbytes), stage := .final }
    else if 64 < j.nbytes then
      { d.setUpper quartet with wide := d.wide.xorMasks, stage := .loop }
    else { d with wide := d.wide.xorMasks, stage := if 32 < j.nbytes then .tail32 else .tail }
  | .loop =>
    let r := iter128 m d.p d.wide.val01 d.wide.val10 { lo := d.wide.seeds, hi := d.upper }
    { d.setUpper r.hi with
      wide := d.wide.setSeeds r.lo, p := d.p + 64, rem := d.rem - 64
      stage := if d.rem - 64 ≤ 64 then .fold else .loop }
  | .fold =>
    { d with wide := d.wide.setSeeds (fold128 { lo := d.wide.seeds, hi := d.upper })
             stage := if 32 < d.rem then .tail32 else .tail }
  | .tail32 =>
    { d with wide := d.wide.setSeeds
               (processTail32 m d.p d.wide.val01 d.wide.val10 d.wide.seeds)
             p := d.p + 32, rem := d.rem - 32, stage := .tail }
  | .tail =>
    { d with wide := d.wide.setWords (tail128 m j.nbytes d.rem), stage := .final }
  | .final => d

/-- The 128-bit finalizer on the registers (R157); none is written back (DESIGN CHOICE, unsafe for the
registers: log 19). -/
def Lanes.final128 (l : Lanes 64) : Word × Word :=
  Sys2Proof.Machine.final128 l.words l.seeds l.val01

/-! ### One sequencer step -/

/-- One step of the operation's algorithm before its finalizer (R26). -/
def Job.advance (j : Job) (d : Datapath) : Datapath :=
  match j.mixer with
  | .m32 => step32 j d
  | .m64 => step64 j d
  | .m128 => step128 j d
  | .m32x4 => step32 j d

/-- What the finalizer gives from the datapath registers (R116, R136, R157); for a 128-bit operation of 17
bytes or more, H128_LONG of the input bytes, read at the completion step (R160, R181). -/
def Job.result (j : Job) (d : Datapath) : Res :=
  match j.mixer with
  | .m32 => res32 d.lane0.final32
  | .m64 => res64 d.wide.final64
  | .m128 =>
    if j.nbytes ≤ 16 then res128 d.wide.final128
    else res128 (h128Long (bytesOf (j.input 0) j.nbytes) j.seed)
  | .m32x4 =>
    res32x4 d.lane0.final32 d.lane1.final32 d.lane2.final32 d.lane3.final32

/-- The operation's window, if it has one, lies in IN (R49). -/
def Job.inBounds (j : Job) (o : Opr) (m : InMem) : Bool :=
  !j.windowed || m.fits o.src.toNat j.nbytes

/-- The host's write of an IN address falls in the running operation's window (R50, R243). -/
def State.inWindow (s : State) (addr : Nat) : Bool :=
  match s.phase, decode s.opr.op with
  | .run, .ok i =>
    let j := jobOf i s.opr s.mem
    j.windowed && Nat.ble s.opr.src.toNat addr && Nat.blt addr (s.opr.src.toNat + j.nbytes)
  | _, _ => false

/-- The completion step of an operation (R181): its digest, or after the host broke R50 any value (R243).
The operation is over with it, so the datapath registers are unspecified from here on; they keep what they
held when the finalizer read them (R24, U12, R157; DESIGN CHOICE, unsafe for the registers: log 19). -/
def State.finish (s : State) (j : Job) : State :=
  if s.hazard then { s.complete (freeDigest j.mixer s.draws) with draws := s.draws + 4 }
  else s.complete (j.result s.dp)

/-- One sequencer step: outside RUN the core does nothing. -/
def coreStep (s : State) : Host.Outcome State Fault Refusal :=
  match s.phase with
  | .run =>
    match decode s.opr.op with
    | .error _ => .fault .runWithoutCommand
    | .ok i =>
      let j := jobOf i s.opr s.mem
      if j.inBounds s.opr s.mem then
        if s.dp.stage = .final then .next (s.finish j)
        else .next (s.setDp (j.advance s.dp))
      else .fault (.inAddressAbsent s.mem.size)
  | .idle => .next s
  | .doneOk => .next s
  | .doneErr => .next s

/-- `n` sequencer steps. -/
def coreRun : Nat → State → Host.Outcome State Fault Refusal
  | 0, s => .next s
  | n + 1, s => andThen (coreStep s) (coreRun n)

end Sys2Proof.Machine
end

