-- ==== Sys2Proof/Machine/HostPort.lean ====
section
/-! DEFINITION. The host's side of the block: its accesses to the register window and to IN, reset, and
the pseudo-instructions (spec/30_encoding.md R65, R66; spec/20_memory.md R48, R50, R51;
spec/60_exceptions.md R213, R214; spec/70_reset_and_hazards.md R240, R243). -/

namespace Sys2Proof.Machine

/-- A write of the window at an offset (R48, R180): a CMD write is a command, an operand register stores
the value, everything else ignores it. -/
def writeWindow (s : State) (offset : Nat) (v : Word) : Host.Outcome State Fault Refusal :=
  match regAt offset with
  | some .cmd =>
    match decode v with
    | .ok i => exec i s
    | .error _ => .next (s.issueIllegal v)
  | some r => .next (s.writeReg r v)
  | none => .next s

/-- The host writes a byte of IN; in a running operation's window that breaks R50 (R243). -/
def State.hostWriteIn (s : State) (addr : Nat) (b : Byte) : State :=
  { s with mem := s.mem.write addr b, hazard := s.hazard || s.inWindow addr }

/-- What one host access does (R65). A window access outside the interface is refused (R214); a write of
an IN address that does not exist faults (R40; DESIGN CHOICE, safe: log 13). POLL is a read of STATUS, and stays at
the head of the script, with one sequencer step before its next read, while BUSY = 1 (DESIGN CHOICE, safe: log 12). -/
def hostAccess (op : HostOp) (s : State) : Host.Outcome State Fault Refusal :=
  match op with
  | .write offset width v =>
    if inInterface offset width then writeWindow s offset v
    else .refused (.accessOutsideInterface offset width)
  | .read offset width =>
    if inInterface offset width then .next { s with hostData := s.readWindow offset }
    else .refused (.accessOutsideInterface offset width)
  | .poll =>
    if s.status.busy then
      .next { s with hostData := s.status.word, script := { core := 1, op := .poll } :: s.script }
    else .next { s with hostData := s.status.word }
  | .writeIn addr b =>
    if Nat.blt addr s.mem.size then .next (s.hostWriteIn addr b)
    else .fault (.inAddressAbsent addr)
  | .reset => .next s.onReset
  | .idle => .next s

/-- One slot: the core's sequencer steps, and then the host's access (R215). -/
def slotStep (t : Slot) (s : State) : Host.Outcome State Fault Refusal :=
  andThen (coreRun t.core s) (hostAccess t.op)

/-- One step of the machine: the next slot of the host's script; with no access pending, the core goes on
by itself. -/
def machineStep (s : State) : Host.Outcome State Fault Refusal :=
  match s.script with
  | [] => coreStep s
  | t :: rest => slotStep t { s with script := rest }

/-- `WR <reg>, <value>` (R65). -/
def wr (r : Reg) (v : Word) : HostOp := .write (regOffset r) 64 v

/-- `RD <reg>` (R65). -/
def rd (r : Reg) : HostOp := .read (regOffset r) 64

/-- `<mnemonic>`: the write of the command's value to CMD (R65). -/
def command (i : Instr) : HostOp := wr .cmd (encode i)

/-- The BUF command of a width (R62). -/
def bufCommand : Width → Instr
  | .w32 => .hash32Buf | .w64 => .hash64Buf | .w128 => .hash128Buf

/-- The T16 command of a width (R62). -/
def t16Command : Width → Instr
  | .w32 => .hash32T16 | .w64 => .hash64T16 | .w128 => .hash128T16

/-- The V4 command of a width (R62). -/
def v4Command : Width → Instr
  | .w32 => .hash32V4 | .w64 => .hash64V4 | .w128 => .hash128V4

/-- The V8 command of a width (R62). -/
def v8Command : Width → Instr
  | .w32 => .hash32V8 | .w64 => .hash64V8 | .w128 => .hash128V8

/-- The expansion of a pseudo-instruction, in R66's order; an omitted seed is 0. -/
def expand : Pseudo → List HostOp
  | .buf w src len seed =>
    [wr .seed (seed.getD 0), wr .src src, wr .len len, command (bufCommand w)]
  | .t16 w src units seed =>
    [wr .seed (seed.getD 0), wr .src src, wr .len units, command (t16Command w)]
  | .v4 w v seed => [wr .seed (seed.getD 0), wr .val0 v, command (v4Command w)]
  | .v8 w v seed => [wr .seed (seed.getD 0), wr .val0 v, command (v8Command w)]
  | .x4 v0 v1 v2 v3 seed =>
    [wr .seed (seed.getD 0), wr .val0 v0, wr .val1 v1, wr .val2 v2, wr .val3 v3, command .hash32x4]
  | .wait p => expand p ++ [.poll]

/-- A host program as a script, the core making `core` sequencer steps before each access. -/
def scriptOf (core : Nat) (ops : List HostOp) : List Slot := ops.map fun op => { core := core, op := op }

/-- The slot in which the host writes a command value to CMD, the core standing still before it. -/
def commandSlot (v : Word) : Slot := { core := 0, op := .write 0x00 64 v }

end Sys2Proof.Machine
end

