-- ==== Sys2Proof/Machine/Step.lean ====
section
/-! DEFINITION. One step of the machine, and where a command comes from: the block fetches nothing
(spec/20_memory.md R54), a command is the data of the host's CMD write. -/

namespace Sys2Proof.Machine

/-- One step. -/
def step (s : State) : Host.Outcome State Fault Refusal := machineStep s

/-- The state whose next step is the host's write of the command word `w` (bits above `nbits` zero) to
CMD (R54, R65; DESIGN CHOICE, safe: log 15). -/
def State.withFetchWord (s : State) (nbits w : Nat) : State :=
  { s with script := commandSlot (BitVec.ofNat 64 (w % 2 ^ nbits)) :: s.script }

end Sys2Proof.Machine
end

