-- ==== Sys2Proof/Safety.lean ====
section
/-! DEFINITION. The terms the statements use: the machine's invariant, the state a taken command leaves
(spec/45_commands.md R180), and what it is for a running operation to complete with given digest words
(R181, R182). -/

namespace Sys2Proof

/-- The registers a host write changes (R20): SEED, SRC, LEN, VAL0..VAL3. -/
def Reg.isOperand : Reg → Bool
  | .seed | .src | .len | .val0 | .val1 | .val2 | .val3 => true
  | .cmd | .status | .res0 | .res1 | .res2 | .res3 => false

end Sys2Proof

namespace Sys2Proof.Machine

/-- STATUS of an operation in progress, just taken (R180). -/
def statusRunning : Status := ⟨true, false, false, false, 0#4⟩

/-- STATUS of an operation that has finished without error or drop: the host reads 0x02 (R181). -/
def statusDone : Status := ⟨false, true, false, false, 0#4⟩

/-- STATUS after a rejection (R180 `reject`). -/
def statusRejected (code : BitVec 4) : Status := ⟨false, true, true, false, code⟩

/-- The operand record a command with value `v` latches in a state (R23, R180). -/
def latchedOpr (v : Word) (s : State) : Opr :=
  { op := v, seed := s.seed, src := s.src, len := s.len
    v0 := s.val0, v1 := s.val1, v2 := s.val2, v3 := s.val3 }

/-- The state a taken and started command leaves (R180): OPR, STATUS, PHASE and the sequencer's place are
written, and every other field is as it was. That the datapath registers are so is the model's (DESIGN
CHOICE, unsafe for these registers only: log 19). -/
def startedState (i : Instr) (s : State) : State :=
  { s with
    opr := latchedOpr (encode i) s
    status := statusRunning
    phase := .run
    dp := { s.dp with stage := .init }
    hazard := false }

/-- The state a taken and rejected CMD value leaves (R180, R210): OPR, STATUS and PHASE are written, and
every other field is as it was; of the datapath registers that is the model's (DESIGN CHOICE, unsafe for these
registers only: log 19). -/
def rejectedState (v : Word) (code : BitVec 4) (s : State) : State :=
  { s with opr := latchedOpr v s, status := statusRejected code, phase := .doneErr }

/-- The state the completion of an operation leaves (R181), whatever the datapath registers hold: the four
RES words, BUSY and DONE, and PHASE are written, and every other field is as it was. What OPR and the datapath
registers hold after it is the model's (DESIGN CHOICE, unsafe for these only: log 19). -/
def completedState (t : State) (r : Res) (d : Datapath) : State :=
  { t with
    res0 := r.r0, res1 := r.r1, res2 := r.r2, res3 := r.r3
    status := { t.status with busy := false, done := true }
    phase := .doneOk
    dp := d }

/-- From `t`, with no host access in between, the sequencer completes after some steps with the digest
words `r`, and until then BUSY is set and only the datapath registers change (R181, R202). -/
def CompletesWith (t : State) (r : Res) : Prop :=
  ∃ n d, coreRun (n + 1) t = .next (completedState t r d) ∧
    ∀ k, k ≤ n → ∃ e, coreRun k t = .next (t.setDp e)

/-- In `u` the operation that runs in `s` has completed (R181): PHASE, BUSY and DONE say so, and where the
host kept R50, `u` is the completed state with the digest of the operands in OPR. -/
def CompletedFrom (s u : State) : Prop :=
  u.phase = .doneOk ∧ u.status = { s.status with busy := false, done := true } ∧
  ∃ i, decode s.opr.op = .ok i ∧
    (s.hazard = false → ∃ d, u = completedState s (jobOf i s.opr s.mem).digest d)

/-- The length of the window of IN that a command would read in a state: LEN bytes for BUF, 2 * LEN bytes
for T16, none for a value command (R49, R183). -/
def windowBytes (s : State) : Instr → Option Nat
  | .hash32Buf | .hash64Buf | .hash128Buf => some s.len.toNat
  | .hash32T16 | .hash64T16 | .hash128T16 => some (2 * s.len.toNat)
  | .hash32V4 | .hash64V4 | .hash128V4 => none
  | .hash32V8 | .hash64V8 | .hash128V8 => none
  | .hash32x4 => none

/-- The window a command would read, if it reads one, lies in IN (R49). -/
def WindowFits (i : Instr) (s : State) : Prop := ∀ n, windowBytes s i = some n → s.src.toNat + n ≤ s.mem.size

/-- The bytes of IN from SRC on, by offset: the input of a BUF or T16 command (R184). -/
def inputAt (s : State) : Input := fun k => s.mem.byte (s.src.toNat + k)

/-- IN holds the listed bytes from SRC on. -/
def HoldsAtSrc (s : State) (bytes : List Byte) : Prop :=
  ∀ k b, bytes[k]? = some b → s.mem.byte (s.src.toNat + k) = b

/-- "Hello, World!" in ASCII (spec/43_hash32.md R139, spec/45_commands.md R186). -/
def helloBytes : List Byte :=
  [0x48#8, 0x65#8, 0x6c#8, 0x6c#8, 0x6f#8, 0x2c#8, 0x20#8, 0x57#8, 0x6f#8, 0x72#8, 0x6c#8, 0x64#8, 0x21#8]

/-- "Hi" in UTF-16LE (spec/45_commands.md R189). -/
def hiBytes : List Byte := [0x48#8, 0x00#8, 0x69#8, 0x00#8]

/-- The bytes 01 02 03 04 (spec/45_commands.md R188). -/
def bytes1234 : List Byte := [0x01#8, 0x02#8, 0x03#8, 0x04#8]

/-- The bytes of a listed input, by offset. -/
def listInput (l : List Byte) : Input := fun k => l.getD k 0#8

/-- Apply a function to the state of a next outcome. -/
def mapNext (f : State → State) : Host.Outcome State Fault Refusal → Host.Outcome State Fault Refusal
  | .next s => .next (f s)
  | .fault r => .fault r
  | .refused r => .refused r

/-- The seed bits a command's width uses (R61, R105). -/
def SameSeedBits (i : Instr) (x y : Word) : Prop :=
  if i.fields.width = 0#2 then x.setWidth 32 = y.setWidth 32 else x = y

/-- The value bytes a command takes from VAL0..VAL3 are the same in two states (R61, R185, R198): the low half
of VAL0 for V4, all of VAL0 for V8, the low half of each for HASH32X4, none for BUF and T16. -/
def SameValueBytes (i : Instr) (s t : State) : Prop :=
  match i with
  | .hash32Buf | .hash64Buf | .hash128Buf => True
  | .hash32T16 | .hash64T16 | .hash128T16 => True
  | .hash32V4 | .hash64V4 | .hash128V4 => s.val0.setWidth 32 = t.val0.setWidth 32
  | .hash32V8 | .hash64V8 | .hash128V8 => s.val0 = t.val0
  | .hash32x4 =>
    s.val0.setWidth 32 = t.val0.setWidth 32 ∧ s.val1.setWidth 32 = t.val1.setWidth 32 ∧
    s.val2.setWidth 32 = t.val2.setWidth 32 ∧ s.val3.setWidth 32 = t.val3.setWidth 32

/-- STATUS agrees with PHASE (R21, R26, R210): the legal combinations and no other. -/
def StatusFits (p : Phase) (s : Status) : Prop :=
  match p with
  | .idle => s = Status.reset
  | .run => s.busy = true ∧ s.done = false ∧ s.err = false ∧ s.errCode = 0#4
  | .doneOk => s.busy = false ∧ s.done = true ∧ s.err = false ∧ s.errCode = 0#4
  | .doneErr => s = statusRejected errBounds ∨ s = statusRejected errIllegal

/-- The bytes a loop consumes in one iteration (R8, R114, R134, R153). -/
def chunkSize : Mixer → Nat
  | .m32 => 16
  | .m64 => 16
  | .m128 => 64
  | .m32x4 => 16

/-- The longest remainder a tail is entered with (R114, R134, R156). -/
def tailSize : Mixer → Nat
  | .m32 => 16
  | .m64 => 16
  | .m128 => 32
  | .m32x4 => 16

/-- The read offset and the remaining length at each place of the algorithm: every read lies inside
[0, L) (R118, R138, R159). -/
def Placed (j : Job) (d : Datapath) : Prop :=
  match d.stage with
  | .init => True
  | .dispatch => d.p = 0 ∧ d.rem = j.nbytes
  | .loop => 16 < j.nbytes ∧ d.p + d.rem = j.nbytes ∧ chunkSize j.mixer ∣ d.p ∧ chunkSize j.mixer < d.rem
  | .fold => j.mixer = .m128 ∧ 64 < j.nbytes ∧ d.p + d.rem = j.nbytes ∧ 64 ∣ d.p ∧ 0 < d.rem ∧ d.rem ≤ 64
  | .tail32 => j.mixer = .m128 ∧ 16 < j.nbytes ∧ d.p + d.rem = j.nbytes ∧ 64 ∣ d.p ∧ 32 < d.rem ∧ d.rem ≤ 64
  | .tail => 16 < j.nbytes ∧ d.p + d.rem = j.nbytes ∧ tailSize j.mixer ∣ d.p ∧ 0 < d.rem ∧
      d.rem ≤ tailSize j.mixer
  | .final => True

/-- The 64-bit registers hold what the rules of spec/42_hash64.md give at each place. -/
def Tracks64 (j : Job) (d : Datapath) : Prop :=
  let m := j.input 0
  let s := init64 j.nbytes j.seed
  match d.stage with
  | .init => True
  | .dispatch => (d.wide.seed1, d.wide.seed2) = s ∧ d.wide.val01 = Val01 ∧ d.wide.val10 = Val10
  | .loop => (d.wide.seed1, d.wide.seed2) = loop64 m (Val01 ^^^ s.1) (Val10 ^^^ s.2) s (d.p / 16) ∧
      d.wide.val01 = Val01 ^^^ s.1 ∧ d.wide.val10 = Val10 ^^^ s.2
  | .fold => True
  | .tail32 => True
  | .tail => (d.wide.seed1, d.wide.seed2) = loop64 m (Val01 ^^^ s.1) (Val10 ^^^ s.2) s (d.p / 16) ∧
      d.wide.val01 = Val01 ^^^ s.1
  | .final => d.wide.final64 = hash64 m j.nbytes j.seed

/-- The 32-bit registers of one lane hold what the rules of spec/43_hash32.md give at each place. -/
def TracksLane (j : Job) (m : Input) (st : Stage) (p : Nat) (l : Lanes 32) : Prop :=
  let s := init32 j.nbytes (seed32Of j.seed)
  match st with
  | .init => True
  | .dispatch => l.seeds = s ∧ l.val01 = Val01_32 ∧ l.val10 = Val10_32
  | .loop => l.seeds = loop32 m (Val01_32 ^^^ s.seed1) (Val10_32 ^^^ s.seed2) s (p / 16) ∧
      l.val01 = Val01_32 ^^^ s.seed1 ∧ l.val10 = Val10_32 ^^^ s.seed2
  | .fold => True
  | .tail32 => True
  | .tail => l.seeds = loop32 m (Val01_32 ^^^ s.seed1) (Val10_32 ^^^ s.seed2) s (p / 16) ∧
      l.val01 = Val01_32 ^^^ s.seed1
  | .final => l.final32 = hash32 m j.nbytes (seed32Of j.seed)

/-- The 128-bit registers hold what R151 to R157 give at each place: for L ≤ 16 the digest's words, for
L ≥ 17 those of the spec's default instance, which no digest rests on (R160; DESIGN CHOICE, unsafe for these
registers: log 9). -/
def Tracks128 (j : Job) (d : Datapath) : Prop :=
  let m := j.input 0
  let s := init128 j.nbytes j.seed
  let v01 := Val01 ^^^ s.seed1
  let v10 := Val10 ^^^ s.seed2
  match d.stage with
  | .init => True
  | .dispatch => d.wide.seeds = s ∧ d.wide.val01 = Val01 ∧ d.wide.val10 = Val10
  | .loop => (⟨d.wide.seeds, d.upper⟩ : Seeds8) = loop128 m v01 v10 ⟨s, quartet⟩ (d.p / 64) ∧
      d.wide.val01 = v01 ∧ d.wide.val10 = v10 ∧ 64 < j.nbytes
  | .fold => (⟨d.wide.seeds, d.upper⟩ : Seeds8) = loop128 m v01 v10 ⟨s, quartet⟩ (d.p / 64) ∧
      d.wide.val01 = v01 ∧ d.wide.val10 = v10
  | .tail32 => d.wide.seeds = folded128 m j.nbytes v01 v10 s ∧ d.wide.val01 = v01 ∧ d.wide.val10 = v10
  | .tail => d.wide.val01 = v01 ∧
      d.wide.seeds = if d.p = 64 * chunks64 j.nbytes then folded128 m j.nbytes v01 v10 s
        else processTail32 m (64 * chunks64 j.nbytes) v01 v10 (folded128 m j.nbytes v01 v10 s)
  | .final => d.wide.final128 = hash128Ref m j.nbytes j.seed

/-- The datapath registers in use hold what the rules give. -/
def Tracks (j : Job) (d : Datapath) : Prop :=
  match j.mixer with
  | .m32 => TracksLane j (j.input 0) d.stage d.p d.lane0
  | .m64 => Tracks64 j d
  | .m128 => Tracks128 j d
  | .m32x4 => TracksLane j (j.input 0) d.stage d.p d.lane0 ∧ TracksLane j (j.input 1) d.stage d.p d.lane1 ∧
      TracksLane j (j.input 2) d.stage d.p d.lane2 ∧ TracksLane j (j.input 3) d.stage d.p d.lane3

/-- An operation in RUN: OPR holds a command, its window lies in IN, the sequencer is at a place of the
algorithm, and unless the host broke R50 the registers hold what the rules give. -/
def RunOk (s : State) : Prop :=
  ∃ i, decode s.opr.op = .ok i ∧
    (jobOf i s.opr s.mem).inBounds s.opr s.mem = true ∧
    Placed (jobOf i s.opr s.mem) s.dp ∧
    (s.hazard = false → Tracks (jobOf i s.opr s.mem) s.dp)

/-- The invariant of the machine. The form of IN (log 5), the places of the sequencer (log 8) and the registers
of a long 128-bit operation (log 9) are the model's choices. -/
def Inv (s : State) : Prop :=
  s.mem.wf = true ∧ StatusFits s.phase s.status ∧ (s.phase = .run → RunOk s)

end Sys2Proof.Machine
end

