-- ==== Sys2Proof/Certificates/Slice0/Obligations.lean ====
section
/-! DEFINITION. The statements about the a5hash CORE, each from the numbered rules of spec/. A completion
with digest words is `CompletesWith` of Safety.lean: after some sequencer steps, in one step, the four RES
words, STATUS and PHASE are written and nothing else but the datapath registers; until then BUSY is set.
`startedState` and `rejectedState` leave the datapath registers as they stand, and a completed state leaves
OPR: between operations the spec leaves both unspecified (R24, U12), so that is the model's choice (log 19),
and no digest rests on it. -/

open Sys2Proof Sys2Proof.Machine

/-! ### Commands as words (spec/30_encoding.md) -/

/-- R62, R64: the legal opcodes are exactly these 13, told apart by the whole 64-bit value. -/
def Obligations.TheLegalCommandWordsAreExactlyThirteen : Prop :=
  (∀ v i, decode v = .ok i ↔ v = encode i) ∧
  encode .hash32Buf = 0x0000000000000000#64 ∧ encode .hash64Buf = 0x0000000000000001#64 ∧
  encode .hash128Buf = 0x0000000000000002#64 ∧ encode .hash32T16 = 0x0000000000000004#64 ∧
  encode .hash64T16 = 0x0000000000000005#64 ∧ encode .hash128T16 = 0x0000000000000006#64 ∧
  encode .hash32V4 = 0x0000000000000008#64 ∧ encode .hash64V4 = 0x0000000000000009#64 ∧
  encode .hash128V4 = 0x000000000000000A#64 ∧ encode .hash32V8 = 0x000000000000000C#64 ∧
  encode .hash64V8 = 0x000000000000000D#64 ∧ encode .hash128V8 = 0x000000000000000E#64 ∧
  encode .hash32x4 = 0x0000000000000018#64

/-- R63, R212: a value is illegal exactly when WIDTH = 11, or X4 = 1 with another (WIDTH, SHAPE) than
(00, 10), or a bit of [63:5] is set; taken, it is rejected with ERRCODE 2 and nothing else is written. -/
def Obligations.IllegalValuesAreExactlyTheReservedOnes : Prop :=
  (∀ v : Word, (∃ e, decode v = .error e) ↔
    v.extractLsb' 0 2 = 3#2 ∨
    (v.extractLsb' 4 1 = 1#1 ∧ ¬ (v.extractLsb' 0 2 = 0#2 ∧ v.extractLsb' 2 2 = 2#2)) ∨
    v.extractLsb' 5 59 ≠ 0#59) ∧
  (∀ (v : Word) (s : State), (∃ e, decode v = .error e) → s.status.busy = false →
    writeWindow s 0x00 v = .next (rejectedState v 2#4 s))

/-- R60, R62: the word of a command has the command's fields and decodes to it. -/
def Obligations.DecodingAnEncodedCommandGivesItBack : Prop :=
  ∀ i : Instr, i.wf = true ∧ fieldsOf (encode i) = i.fields ∧ decode (encode i) = .ok i

/-- R62, R63: words written out from the table, and one of each kind of illegal word. -/
def Obligations.TableWordsDecodeAsTheTableSays : Prop :=
  decodeTableWord 64 0x01 = some .hash64Buf ∧ decodeTableWord 64 0x06 = some .hash128T16 ∧
  decodeTableWord 64 0x0C = some .hash32V8 ∧ decodeTableWord 64 0x18 = some .hash32x4 ∧
  decodeTableWord 64 0x07 = none ∧ decodeTableWord 64 0x19 = none ∧
  decodeTableWord 64 0x0000000100000001 = none

/-- R54, R65: a command is the data of the host's CMD write. Where the script's next slot is a CMD write of
a value that decodes to `i`, the step is the slot's sequencer steps and then `exec i`. -/
def Obligations.AStepRunsTheDecodedCommand : Prop :=
  (∀ (s u : State) (v : Word) (i : Instr) (n : Nat) (rest : List Slot),
    s.script = { core := n, op := .write 0x00 64 v } :: rest → decode v = .ok i →
    coreRun n { s with script := rest } = .next u → step s = exec i u) ∧
  (∀ (s : State) (i : Instr) (w : Nat), w < 2 ^ 64 → decode (BitVec.ofNat 64 w) = .ok i →
    step (s.withFetchWord 64 w) = exec i s)

/-! ### Taking a command (spec/45_commands.md, spec/60_exceptions.md) -/

/-- R180: a write of CMD is dropped while BUSY; else it is taken: ILLEGAL, then BOUNDS, then started. -/
def Obligations.ACmdWriteIsDroppedRejectedOrStarted : Prop :=
  ∀ (s : State) (v : Word),
    (s.status.busy = true →
      writeWindow s 0x00 v = .next { s with status := { s.status with lost := true } }) ∧
    (s.status.busy = false → (∀ i, v ≠ encode i) →
      writeWindow s 0x00 v = .next (rejectedState v 2#4 s)) ∧
    (∀ i, s.status.busy = false → v = encode i → ¬ WindowFits i s →
      writeWindow s 0x00 v = .next (rejectedState v 1#4 s)) ∧
    (∀ i, s.status.busy = false → v = encode i → WindowFits i s →
      writeWindow s 0x00 v = .next (startedState i s))

/-- R213: a CMD write while BUSY = 1 sets LOST and changes nothing else; the running operation, its OPR and
its digest are what they would have been, LOST survives its completion, and only the next taken command (or
reset) clears it. -/
def Obligations.ADroppedCommandSetsLostAndNothingElse : Prop :=
  (∀ (s : State) (v : Word), s.status.busy = true →
    writeWindow s 0x00 v = .next { s with status := { s.status with lost := true } } ∧
    ∀ n, coreRun n { s with status := { s.status with lost := true } } =
      mapNext (fun t => { t with status := { t.status with lost := true } }) (coreRun n s)) ∧
  (∀ (s t : State) (v : Word), s.status.busy = false → writeWindow s 0x00 v = .next t →
    t.status.lost = false) ∧
  (∀ (op : HostOp) (s t : State), op ≠ .reset → s.status.lost = true → hostAccess op s = .next t →
    t.status.lost = true ∨ (s.status.busy = false ∧ ∃ v, op = .write 0x00 64 v))

/-- R211: the window check is on exact integers, with no wrap; a command without a window is never
rejected. -/
def Obligations.BoundsIsCheckedOnExactIntegers : Prop :=
  ∀ (i : Instr) (s : State), s.status.busy = false →
    (∀ n, windowBytes s i = some n → s.mem.size < s.src.toNat + n →
      exec i s = .next (rejectedState (encode i) 1#4 s)) ∧
    (∀ n, windowBytes s i = some n → s.src.toNat + n ≤ s.mem.size →
      exec i s = .next (startedState i s)) ∧
    (windowBytes s i = none → exec i s = .next (startedState i s))

/-- R215: ILLEGAL is checked before BOUNDS; a taken command reports one error code and never LOST; a CMD
write in the step of a completion is ordered after it, and so it is taken. -/
def Obligations.ErrorsAreCheckedInOrder : Prop :=
  (∀ (s : State) (v : Word), s.status.busy = false → (∀ i, v ≠ encode i) →
    writeWindow s 0x00 v = .next (rejectedState v 2#4 s)) ∧
  (∀ (s : State) (i : Instr), s.status.busy = false → ¬ WindowFits i s →
    writeWindow s 0x00 (encode i) = .next (rejectedState (encode i) 1#4 s)) ∧
  (∀ (s t : State) (v : Word), s.status.busy = false → writeWindow s 0x00 v = .next t →
    t.status.lost = false) ∧
  (∀ (s t : State) (v : Word) (n : Nat) (rest : List Slot),
    s.script = { core := n, op := .write 0x00 64 v } :: rest → s.status.busy = true →
    coreRun n { s with script := rest } = .next t → t.status.busy = false →
    step s = writeWindow t 0x00 v ∧ ∃ u, step s = .next u ∧ u.opr.op = v ∧ u.status.lost = false)

/-- R218: after a rejection the next CMD write is taken, and its STATUS shows nothing of the rejection. -/
def Obligations.AfterARejectionTheNextCommandIsTaken : Prop :=
  ∀ (s : State) (v w : Word) (code : BitVec 4),
    ∃ u, writeWindow (rejectedState v code s) 0x00 w = .next u ∧ u.opr = latchedOpr w s ∧
      (u.status = statusRunning ∨ u.status = statusRejected 1#4 ∨ u.status = statusRejected 2#4)

/-- R244: a write of an operand register while BUSY = 1 takes effect on the register at once and has no
effect on the running operation. -/
def Obligations.OperandWritesDoNotReachARunningOperation : Prop :=
  ∀ (s : State) (r : Reg) (v : Word), r.isOperand = true → s.status.busy = true →
    writeWindow s (regOffset r) v = .next (s.writeReg r v) ∧
    (s.writeReg r v).readReg r = v ∧
    ∀ n, coreRun n (s.writeReg r v) = mapNext (fun t => t.writeReg r v) (coreRun n s)

/-! ### The 13 commands (spec/45_commands.md R186 to R198) -/

/-- R186: HASH32.BUF; and digests of its long path (R133 to R136), with and without a c,d pair: the inputs
00 01 02 .. of 17, 31 and 256 bytes (spec/95_test_vectors.md, the last one V14). -/
def Obligations.Hash32BufGivesTheDigestOfItsBuffer : Prop :=
  encode .hash32Buf = 0x00#64 ∧
  (∀ s : State, s.status.busy = false → s.src.toNat + s.len.toNat ≤ s.mem.size →
    exec .hash32Buf s = .next (startedState .hash32Buf s) ∧
    CompletesWith (startedState .hash32Buf s)
      ⟨(hash32 (inputAt s) s.len.toNat (s.seed.setWidth 32)).setWidth 64, 0, 0, 0⟩) ∧
  (∀ s : State, s.status.busy = false → s.mem.size < s.src.toNat + s.len.toNat →
    exec .hash32Buf s = .next (rejectedState 0x00#64 1#4 s)) ∧
  (∀ s : State, s.status.busy = false → s.src.toNat ≤ s.mem.size → s.len = 0 → s.seed = 0 →
    exec .hash32Buf s = .next (startedState .hash32Buf s) ∧
    CompletesWith (startedState .hash32Buf s) ⟨0x969d3f21#64, 0, 0, 0⟩) ∧
  (∀ s : State, s.status.busy = false → s.src.toNat + 13 ≤ s.mem.size → s.len = 13 →
    HoldsAtSrc s helloBytes → s.seed = 0xdeadbeef#64 →
    exec .hash32Buf s = .next (startedState .hash32Buf s) ∧
    CompletesWith (startedState .hash32Buf s) ⟨0x00000000a8d1436e#64, 0, 0, 0⟩) ∧
  (∀ x ∈ ([(17, 0#64, 0x28956c8f#64), (31, 0xdeadbeef#64, 0xdf0ab50f#64), (256, 0#64, 0xce642dc8#64)] :
      List (Nat × Word × Word)),
    ∀ s : State, s.status.busy = false → s.src.toNat + x.1 ≤ s.mem.size → s.len.toNat = x.1 →
    (∀ k, k < x.1 → s.mem.byte (s.src.toNat + k) = BitVec.ofNat 8 k) → s.seed = x.2.1 →
    exec .hash32Buf s = .next (startedState .hash32Buf s) ∧
    CompletesWith (startedState .hash32Buf s) ⟨x.2.2, 0, 0, 0⟩)

/-- R187: HASH64.BUF; each single bit of SEED matters to the digest of the empty input; and digests of the
long path (R113 to R116): the inputs 00 01 02 .. of 17, 31 and 256 bytes (spec/95_test_vectors.md, the last
one V13). -/
def Obligations.Hash64BufGivesTheDigestOfItsBuffer : Prop :=
  encode .hash64Buf = 0x01#64 ∧
  (∀ s : State, s.status.busy = false → s.src.toNat + s.len.toNat ≤ s.mem.size →
    exec .hash64Buf s = .next (startedState .hash64Buf s) ∧
    CompletesWith (startedState .hash64Buf s) ⟨hash64 (inputAt s) s.len.toNat s.seed, 0, 0, 0⟩) ∧
  (∀ s : State, s.status.busy = false → s.mem.size < s.src.toNat + s.len.toNat →
    exec .hash64Buf s = .next (rejectedState 0x01#64 1#4 s)) ∧
  (∀ s : State, s.status.busy = false → s.src.toNat ≤ s.mem.size → s.len = 0 → s.seed = 0 →
    exec .hash64Buf s = .next (startedState .hash64Buf s) ∧
    CompletesWith (startedState .hash64Buf s) ⟨0x0f2d4f1152e2fd91#64, 0, 0, 0⟩) ∧
  (∀ (m : Input) (k : Nat), k < 64 → hash64 m 0 (1#64 <<< k) ≠ hash64 m 0 0#64) ∧
  (∀ s : State, s.status.busy = false → s.src.toNat + 13 ≤ s.mem.size → s.len = 13 →
    HoldsAtSrc s helloBytes → s.seed = 0xdeadbeefcafebabe#64 →
    exec .hash64Buf s = .next (startedState .hash64Buf s) ∧
    CompletesWith (startedState .hash64Buf s) ⟨0x885137eaa6a7f5e8#64, 0, 0, 0⟩) ∧
  (∀ x ∈ ([(17, 0#64, 0xf3aea2b256102c36#64), (31, 0xdeadbeefcafebabe#64, 0xb7aa0275142ce993#64),
      (256, 0#64, 0x92a52c8586258560#64)] : List (Nat × Word × Word)),
    ∀ s : State, s.status.busy = false → s.src.toNat + x.1 ≤ s.mem.size → s.len.toNat = x.1 →
    (∀ k, k < x.1 → s.mem.byte (s.src.toNat + k) = BitVec.ofNat 8 k) → s.seed = x.2.1 →
    exec .hash64Buf s = .next (startedState .hash64Buf s) ∧
    CompletesWith (startedState .hash64Buf s) ⟨x.2.2, 0, 0, 0⟩)

/-- R188: HASH128.BUF: the short path for L ≤ 16, the parameter H128_LONG for L ≥ 17. -/
def Obligations.Hash128BufGivesTheDigestOfItsBuffer : Prop :=
  encode .hash128Buf = 0x02#64 ∧
  (∀ s : State, s.status.busy = false → s.src.toNat + s.len.toNat ≤ s.mem.size →
    exec .hash128Buf s = .next (startedState .hash128Buf s) ∧
    (s.len.toNat ≤ 16 → CompletesWith (startedState .hash128Buf s)
      ⟨(hash128Ref (inputAt s) s.len.toNat s.seed).1, (hash128Ref (inputAt s) s.len.toNat s.seed).2, 0, 0⟩) ∧
    (17 ≤ s.len.toNat → CompletesWith (startedState .hash128Buf s)
      ⟨(h128Long (bytesOf (inputAt s) s.len.toNat) s.seed).1,
        (h128Long (bytesOf (inputAt s) s.len.toNat) s.seed).2, 0, 0⟩)) ∧
  (∀ s : State, s.status.busy = false → s.mem.size < s.src.toNat + s.len.toNat →
    exec .hash128Buf s = .next (rejectedState 0x02#64 1#4 s)) ∧
  (∀ s : State, s.status.busy = false → s.src.toNat ≤ s.mem.size → s.len = 0 → s.seed = 0 →
    exec .hash128Buf s = .next (startedState .hash128Buf s) ∧
    CompletesWith (startedState .hash128Buf s) ⟨0x0f2d4f1152e2fd91#64, 0xd945ac0d4f73ca5d#64, 0, 0⟩) ∧
  (∀ s : State, s.status.busy = false → s.src.toNat + 4 ≤ s.mem.size → s.len = 4 →
    HoldsAtSrc s bytes1234 → s.seed = 0 →
    exec .hash128Buf s = .next (startedState .hash128Buf s) ∧
    CompletesWith (startedState .hash128Buf s) ⟨0x0f56c160db680bb5#64, 0x7fe7261ea9236d9f#64, 0, 0⟩) ∧
  (∃ m seed, (hash128 m 4 seed).1 ≠ hash64 m 4 seed)

/-- R189 (which the spec marks as derived from R183 and R137): HASH32.T16. -/
def Obligations.Hash32TextGivesTheDigestOfItsCodeUnits : Prop :=
  encode .hash32T16 = 0x04#64 ∧
  (∀ s : State, s.status.busy = false → s.src.toNat + 2 * s.len.toNat ≤ s.mem.size →
    exec .hash32T16 s = .next (startedState .hash32T16 s) ∧
    CompletesWith (startedState .hash32T16 s)
      ⟨(hash32 (inputAt s) (2 * s.len.toNat) (s.seed.setWidth 32)).setWidth 64, 0, 0, 0⟩) ∧
  (∀ s : State, s.status.busy = false → s.mem.size < s.src.toNat + 2 * s.len.toNat →
    exec .hash32T16 s = .next (rejectedState 0x04#64 1#4 s)) ∧
  (∀ s : State, s.status.busy = false → s.src.toNat ≤ s.mem.size → s.len = 0 →
    ∃ r, exec .hash32T16 s = .next (startedState .hash32T16 s) ∧
      CompletesWith (startedState .hash32T16 s) r ∧
      exec .hash32Buf s = .next (startedState .hash32Buf s) ∧
      CompletesWith (startedState .hash32Buf s) r) ∧
  (∀ s : State, ∀ n, windowBytes s .hash32T16 = some n →
    (1 ≤ n ∧ n ≤ 3 → n = 2) ∧ (9 ≤ n ∧ n ≤ 16 → n = 10 ∨ n = 12 ∨ n = 14 ∨ n = 16)) ∧
  (∀ s : State, s.status.busy = false → s.src.toNat + 4 ≤ s.mem.size → s.len = 2 →
    HoldsAtSrc s hiBytes → s.seed = 0 →
    exec .hash32T16 s = .next (startedState .hash32T16 s) ∧
    CompletesWith (startedState .hash32T16 s) ⟨0x0000000035e3dcf9#64, 0, 0, 0⟩)

/-- R190 (marked as derived from R183 and R117): HASH64.T16. -/
def Obligations.Hash64TextGivesTheDigestOfItsCodeUnits : Prop :=
  encode .hash64T16 = 0x05#64 ∧
  (∀ s : State, s.status.busy = false → s.src.toNat + 2 * s.len.toNat ≤ s.mem.size →
    exec .hash64T16 s = .next (startedState .hash64T16 s) ∧
    CompletesWith (startedState .hash64T16 s)
      ⟨hash64 (inputAt s) (2 * s.len.toNat) s.seed, 0, 0, 0⟩) ∧
  (∀ s : State, s.status.busy = false → s.mem.size < s.src.toNat + 2 * s.len.toNat →
    exec .hash64T16 s = .next (rejectedState 0x05#64 1#4 s)) ∧
  (∀ s : State, s.status.busy = false → s.src.toNat + 4 ≤ s.mem.size → s.len = 2 →
    HoldsAtSrc s hiBytes → s.seed = 0 →
    exec .hash64T16 s = .next (startedState .hash64T16 s) ∧
    CompletesWith (startedState .hash64T16 s) ⟨0xdb5eb693f6bc7ff5#64, 0, 0, 0⟩)

/-- R191 (marked as derived from R183 and R158): HASH128.T16; for LEN ≥ 9 the digest is H128_LONG. -/
def Obligations.Hash128TextGivesTheDigestOfItsCodeUnits : Prop :=
  encode .hash128T16 = 0x06#64 ∧
  (∀ s : State, s.status.busy = false → s.src.toNat + 2 * s.len.toNat ≤ s.mem.size →
    exec .hash128T16 s = .next (startedState .hash128T16 s) ∧
    (s.len.toNat ≤ 8 → CompletesWith (startedState .hash128T16 s)
      ⟨(hash128Ref (inputAt s) (2 * s.len.toNat) s.seed).1,
        (hash128Ref (inputAt s) (2 * s.len.toNat) s.seed).2, 0, 0⟩) ∧
    (9 ≤ s.len.toNat → CompletesWith (startedState .hash128T16 s)
      ⟨(h128Long (bytesOf (inputAt s) (2 * s.len.toNat)) s.seed).1,
        (h128Long (bytesOf (inputAt s) (2 * s.len.toNat)) s.seed).2, 0, 0⟩)) ∧
  (∀ s : State, s.status.busy = false → s.mem.size < s.src.toNat + 2 * s.len.toNat →
    exec .hash128T16 s = .next (rejectedState 0x06#64 1#4 s)) ∧
  (∀ s : State, s.status.busy = false → s.src.toNat + 4 ≤ s.mem.size → s.len = 2 →
    HoldsAtSrc s hiBytes → s.seed = 0 →
    exec .hash128T16 s = .next (startedState .hash128T16 s) ∧
    CompletesWith (startedState .hash128T16 s) ⟨0x8f29a4ef14a283b4#64, 0x9dbf1cea66be20e1#64, 0, 0⟩)

/-- R192: HASH32.V4; it reads no memory, has no bounds check, and gives what HASH32.BUF gives over the four
bytes. -/
def Obligations.Hash32ValueOfFourBytesGivesItsDigest : Prop :=
  encode .hash32V4 = 0x08#64 ∧
  (∀ s : State, s.status.busy = false →
    exec .hash32V4 s = .next (startedState .hash32V4 s) ∧
    CompletesWith (startedState .hash32V4 s)
      ⟨(hash32 (wordBytes s.val0) 4 (s.seed.setWidth 32)).setWidth 64, 0, 0, 0⟩) ∧
  (∀ s t : State, s.status.busy = false → t.status.busy = false → t.seed = s.seed → t.len = 4 →
    t.src.toNat + 4 ≤ t.mem.size →
    HoldsAtSrc t [s.val0.extractLsb' 0 8, s.val0.extractLsb' 8 8, s.val0.extractLsb' 16 8,
      s.val0.extractLsb' 24 8] →
    ∃ r, CompletesWith (startedState .hash32V4 s) r ∧
      exec .hash32Buf t = .next (startedState .hash32Buf t) ∧
      CompletesWith (startedState .hash32Buf t) r) ∧
  (∀ (s : State) (v : Word), s.status.busy = false → v.setWidth 32 = s.val0.setWidth 32 →
    ∃ r, CompletesWith (startedState .hash32V4 s) r ∧
      exec .hash32V4 { s with val0 := v } = .next (startedState .hash32V4 { s with val0 := v }) ∧
      CompletesWith (startedState .hash32V4 { s with val0 := v }) r) ∧
  (∀ s : State, s.status.busy = false → s.val0 = 0x04030201#64 → s.seed = 0 →
    exec .hash32V4 s = .next (startedState .hash32V4 s) ∧
    CompletesWith (startedState .hash32V4 s) ⟨0x000000009c3517d8#64, 0, 0, 0⟩)

/-- R193: HASH64.V4. -/
def Obligations.Hash64ValueOfFourBytesGivesItsDigest : Prop :=
  encode .hash64V4 = 0x09#64 ∧
  (∀ s : State, s.status.busy = false →
    exec .hash64V4 s = .next (startedState .hash64V4 s) ∧
    CompletesWith (startedState .hash64V4 s) ⟨hash64 (wordBytes s.val0) 4 s.seed, 0, 0, 0⟩) ∧
  (∀ (s : State) (v : Word), s.status.busy = false → v.setWidth 32 = s.val0.setWidth 32 →
    ∃ r, CompletesWith (startedState .hash64V4 s) r ∧
      exec .hash64V4 { s with val0 := v } = .next (startedState .hash64V4 { s with val0 := v }) ∧
      CompletesWith (startedState .hash64V4 { s with val0 := v }) r) ∧
  (∀ s : State, s.status.busy = false → s.val0 = 0x04030201#64 → s.seed = 0 →
    exec .hash64V4 s = .next (startedState .hash64V4 s) ∧
    CompletesWith (startedState .hash64V4 s) ⟨0x58f16aeabad3e124#64, 0, 0, 0⟩) ∧
  (∀ s : State, s.status.busy = false → s.val0 = 0x04030201#64 → s.seed = 0xdeadbeefcafebabe#64 →
    exec .hash64V4 s = .next (startedState .hash64V4 s) ∧
    CompletesWith (startedState .hash64V4 s) ⟨0x444527396cc994a7#64, 0, 0, 0⟩)

/-- R194: HASH128.V4. -/
def Obligations.Hash128ValueOfFourBytesGivesItsDigest : Prop :=
  encode .hash128V4 = 0x0A#64 ∧
  (∀ s : State, s.status.busy = false →
    exec .hash128V4 s = .next (startedState .hash128V4 s) ∧
    CompletesWith (startedState .hash128V4 s)
      ⟨(hash128Ref (wordBytes s.val0) 4 s.seed).1, (hash128Ref (wordBytes s.val0) 4 s.seed).2, 0, 0⟩) ∧
  (∀ s : State, s.status.busy = false → s.val0 = 0x04030201#64 → s.seed = 0 →
    exec .hash128V4 s = .next (startedState .hash128V4 s) ∧
    CompletesWith (startedState .hash128V4 s) ⟨0x0f56c160db680bb5#64, 0x7fe7261ea9236d9f#64, 0, 0⟩)

/-- R195 (marked as derived from R185 and R137): HASH32.V8: a = VAL0[31:0], b = VAL0[63:32], no c,d pair. -/
def Obligations.Hash32ValueOfEightBytesGivesItsDigest : Prop :=
  encode .hash32V8 = 0x0C#64 ∧
  (∀ s : State, s.status.busy = false →
    exec .hash32V8 s = .next (startedState .hash32V8 s) ∧
    CompletesWith (startedState .hash32V8 s)
      ⟨(hash32 (wordBytes s.val0) 8 (s.seed.setWidth 32)).setWidth 64, 0, 0, 0⟩) ∧
  (∀ v : Word, short32 (wordBytes v) 8 = ⟨v.extractLsb' 0 32, v.extractLsb' 32 32, none⟩) ∧
  (∀ s : State, s.status.busy = false → s.val0 = 0x0807060504030201#64 → s.seed = 0 →
    exec .hash32V8 s = .next (startedState .hash32V8 s) ∧
    CompletesWith (startedState .hash32V8 s) ⟨0x000000006c110d63#64, 0, 0, 0⟩)

/-- R196 (marked as derived from R185 and R117): HASH64.V8: a = rotl32_on64(VAL0), b = VAL0. -/
def Obligations.Hash64ValueOfEightBytesGivesItsDigest : Prop :=
  encode .hash64V8 = 0x0D#64 ∧
  (∀ s : State, s.status.busy = false →
    exec .hash64V8 s = .next (startedState .hash64V8 s) ∧
    CompletesWith (startedState .hash64V8 s) ⟨hash64 (wordBytes s.val0) 8 s.seed, 0, 0, 0⟩) ∧
  (∀ v : Word, short64 (wordBytes v) 8 = (rotl32on64 v, v) ∧
    rotl32on64 v = v.extractLsb' 0 32 ++ v.extractLsb' 32 32) ∧
  (∀ s : State, s.status.busy = false → s.val0 = 0x0807060504030201#64 → s.seed = 0 →
    exec .hash64V8 s = .next (startedState .hash64V8 s) ∧
    CompletesWith (startedState .hash64V8 s) ⟨0xe9b2e9af9245d5ae#64, 0, 0, 0⟩)

/-- R197 (marked as derived from R185 and R158): HASH128.V8. -/
def Obligations.Hash128ValueOfEightBytesGivesItsDigest : Prop :=
  encode .hash128V8 = 0x0E#64 ∧
  (∀ s : State, s.status.busy = false →
    exec .hash128V8 s = .next (startedState .hash128V8 s) ∧
    CompletesWith (startedState .hash128V8 s)
      ⟨(hash128Ref (wordBytes s.val0) 8 s.seed).1, (hash128Ref (wordBytes s.val0) 8 s.seed).2, 0, 0⟩) ∧
  (∀ s : State, s.status.busy = false → s.val0 = 0x0807060504030201#64 → s.seed = 0 →
    exec .hash128V8 s = .next (startedState .hash128V8 s) ∧
    CompletesWith (startedState .hash128V8 s) ⟨0xa0e8f52dc863c4f2#64, 0x01496a5232238c62#64, 0, 0⟩)

/-- R198: HASH32X4: four independent lanes with one seed. -/
def Obligations.BatchGivesFourIndependentDigests : Prop :=
  encode .hash32x4 = 0x18#64 ∧
  (∀ s : State, s.status.busy = false →
    exec .hash32x4 s = .next (startedState .hash32x4 s) ∧
    CompletesWith (startedState .hash32x4 s)
      ⟨(hash32 (wordBytes s.val0) 4 (s.seed.setWidth 32)).setWidth 64,
        (hash32 (wordBytes s.val1) 4 (s.seed.setWidth 32)).setWidth 64,
        (hash32 (wordBytes s.val2) 4 (s.seed.setWidth 32)).setWidth 64,
        (hash32 (wordBytes s.val3) 4 (s.seed.setWidth 32)).setWidth 64⟩) ∧
  (∀ (v w : Word) (seed : Half), v.setWidth 32 = w.setWidth 32 →
    hash32 (wordBytes v) 4 seed = hash32 (wordBytes w) 4 seed) ∧
  (∀ s : State, s.status.busy = false → s.val0 = 0 → s.val1 = 0 → s.val2 = 0 → s.val3 = 0 →
    s.seed = 0 →
    exec .hash32x4 s = .next (startedState .hash32x4 s) ∧
    CompletesWith (startedState .hash32x4 s)
      ⟨0xcff84728#64, 0xcff84728#64, 0xcff84728#64, 0xcff84728#64⟩) ∧
  (∀ s : State, s.status.busy = false → s.val0 = 0x04030201#64 → s.val1 = 0xdeadbeef#64 →
    s.val2 = 0xffffffff#64 → s.val3 = 0 → s.seed = 0 →
    exec .hash32x4 s = .next (startedState .hash32x4 s) ∧
    CompletesWith (startedState .hash32x4 s)
      ⟨0x9c3517d8#64, 0xb33322c5#64, 0x837c1d72#64, 0xcff84728#64⟩)

/-- R43, R184, R185 (and the lengths of R183): the input of a BUF or T16 command is the bytes of IN at OPR.src
as they lie there, that of a value command the little-endian bytes of OPR.v0, with no window and no bounds
check. -/
def Obligations.OperandsAreExactLengthsAndBytes : Prop :=
  ∀ (i : Instr) (o : Opr) (m : InMem),
    (i.fields.shape = 0#2 → (jobOf i o m).nbytes = o.len.toNat) ∧
    (i.fields.shape = 1#2 → (jobOf i o m).nbytes = 2 * o.len.toNat) ∧
    (i.fields.shape = 0#2 ∨ i.fields.shape = 1#2 →
      ((jobOf i o m).inBounds o m = true ↔ o.src.toNat + (jobOf i o m).nbytes ≤ m.size) ∧
      ∀ k off, (jobOf i o m).input k off = m.byte (o.src.toNat + off)) ∧
    (i.fields.shape = 2#2 → (jobOf i o m).nbytes = 4 ∧
      (∀ off, off < 4 → (jobOf i o m).input 0 off = o.v0.extractLsb' (8 * off) 8) ∧
      loadU32 ((jobOf i o m).input 0) 0 = o.v0.extractLsb' 0 32) ∧
    (i.fields.shape = 3#2 → (jobOf i o m).nbytes = 8 ∧
      (∀ off, off < 8 → (jobOf i o m).input 0 off = o.v0.extractLsb' (8 * off) 8) ∧
      loadU64 ((jobOf i o m).input 0) 0 = o.v0) ∧
    (i.fields.shape = 2#2 ∨ i.fields.shape = 3#2 → (jobOf i o m).inBounds o m = true ∧
      ∀ (o' : Opr) (m' : InMem), o'.v0 = o.v0 → (jobOf i o' m').input 0 = (jobOf i o m).input 0)

/-! ### Properties every command meets -/

/-- R199 (marked as derived from R185): the fixed-value commands give the RES words of the buffer command over
the value's bytes. -/
def Obligations.FixedValuesHashAsBuffers : Prop :=
  ∀ s t : State, s.status.busy = false → t.status.busy = false → t.seed = s.seed →
    (∀ w : Width, t.len = 4 → t.src.toNat + 4 ≤ t.mem.size →
      (∀ k, k < 4 → t.mem.byte (t.src.toNat + k) = s.val0.extractLsb' (8 * k) 8) →
      ∃ r, exec (v4Command w) s = .next (startedState (v4Command w) s) ∧
        CompletesWith (startedState (v4Command w) s) r ∧
        exec (bufCommand w) t = .next (startedState (bufCommand w) t) ∧
        CompletesWith (startedState (bufCommand w) t) r) ∧
    (∀ w : Width, t.len = 8 → t.src.toNat + 8 ≤ t.mem.size →
      (∀ k, k < 8 → t.mem.byte (t.src.toNat + k) = s.val0.extractLsb' (8 * k) 8) →
      ∃ r, exec (v8Command w) s = .next (startedState (v8Command w) s) ∧
        CompletesWith (startedState (v8Command w) s) r ∧
        exec (bufCommand w) t = .next (startedState (bufCommand w) t) ∧
        CompletesWith (startedState (bufCommand w) t) r)

/-- R200 (marked as derived from R198): HASH32X4 gives in each RES word what HASH32.V4 gives in RES0 for that
value and SEED. -/
def Obligations.ABatchIsFourSingleCommands : Prop :=
  ∀ s : State, s.status.busy = false →
    ∃ h0 h1 h2 h3 : Word,
      exec .hash32x4 s = .next (startedState .hash32x4 s) ∧
      CompletesWith (startedState .hash32x4 s) ⟨h0, h1, h2, h3⟩ ∧
      CompletesWith (startedState .hash32V4 s) ⟨h0, 0, 0, 0⟩ ∧
      CompletesWith (startedState .hash32V4 { s with val0 := s.val1 }) ⟨h1, 0, 0, 0⟩ ∧
      CompletesWith (startedState .hash32V4 { s with val0 := s.val2 }) ⟨h2, 0, 0, 0⟩ ∧
      CompletesWith (startedState .hash32V4 { s with val0 := s.val3 }) ⟨h3, 0, 0, 0⟩

/-- R201: the same opcode, input bytes and used seed bits give the same RES words, whatever happened before
and wherever SRC is (of the VAL registers, only the bytes the command takes need agree); and the two digests
of the empty input that the rule names. -/
def Obligations.EqualInputsGiveEqualDigests : Prop :=
  (∀ (i : Instr) (s t : State), s.status.busy = false → t.status.busy = false →
    WindowFits i s → WindowFits i t → SameSeedBits i s.seed t.seed →
    (∀ n, windowBytes s i = some n → windowBytes t i = some n ∧
      ∀ k, k < n → s.mem.byte (s.src.toNat + k) = t.mem.byte (t.src.toNat + k)) →
    SameValueBytes i s t →
    ∃ r, exec i s = .next (startedState i s) ∧ CompletesWith (startedState i s) r ∧
      exec i t = .next (startedState i t) ∧ CompletesWith (startedState i t) r) ∧
  (∀ m, hash64 m 0 0#64 = 0x0f2d4f1152e2fd91#64 ∧
    hash64 m 0 0xdeadbeefcafebabe#64 = 0xfdeb2c2c686f6856#64)

/-- R61: SEED[63:32] has no effect on a 32-bit command, and VAL0..VAL3[63:32] none on a 4-byte value
command. -/
def Obligations.UnusedOperandHalvesHaveNoEffect : Prop :=
  (∀ (i : Instr) (s : State) (x : Word), i.fields.width = 0#2 → s.status.busy = false →
    WindowFits i s → x.setWidth 32 = s.seed.setWidth 32 →
    ∃ r, exec i s = .next (startedState i s) ∧ CompletesWith (startedState i s) r ∧
      exec i { s with seed := x } = .next (startedState i { s with seed := x }) ∧
      CompletesWith (startedState i { s with seed := x }) r) ∧
  (∀ (i : Instr) (s : State) (x0 x1 x2 x3 : Word), i.fields.shape = 2#2 → s.status.busy = false →
    x0.setWidth 32 = s.val0.setWidth 32 → x1.setWidth 32 = s.val1.setWidth 32 →
    x2.setWidth 32 = s.val2.setWidth 32 → x3.setWidth 32 = s.val3.setWidth 32 →
    ∃ r, exec i s = .next (startedState i s) ∧ CompletesWith (startedState i s) r ∧
      exec i { s with val0 := x0, val1 := x1, val2 := x2, val3 := x3 } =
        .next (startedState i { s with val0 := x0, val1 := x1, val2 := x2, val3 := x3 }) ∧
      CompletesWith (startedState i { s with val0 := x0, val1 := x1, val2 := x2, val3 := x3 }) r)

/-- R202: no command writes memory or raises an exception after it was taken, and nothing changes but
STATUS, RES0..RES3, OPR, PHASE and the datapath registers (and the model's own hazard flag and count of
drawn words). That OPR stays after a completion is the model's (log 19). -/
def Obligations.CommandsChangeOnlyWhatTheRulesName : Prop :=
  (∀ (i : Instr) (s : State), ∃ t, exec i s = .next t ∧
    t.seed = s.seed ∧ t.src = s.src ∧ t.len = s.len ∧ t.val0 = s.val0 ∧ t.val1 = s.val1 ∧
    t.val2 = s.val2 ∧ t.val3 = s.val3 ∧ t.res0 = s.res0 ∧ t.res1 = s.res1 ∧ t.res2 = s.res2 ∧
    t.res3 = s.res3 ∧ t.mem = s.mem ∧ (∀ a, t.mem.byte a = s.mem.byte a) ∧ t.draws = s.draws ∧
    t.script = s.script ∧ t.hostData = s.hostData) ∧
  (∀ s : State, Inv s → ∀ n, ∃ t, coreRun n s = .next t ∧
    t.seed = s.seed ∧ t.src = s.src ∧ t.len = s.len ∧ t.val0 = s.val0 ∧ t.val1 = s.val1 ∧
    t.val2 = s.val2 ∧ t.val3 = s.val3 ∧ t.opr = s.opr ∧ t.mem = s.mem ∧
    (∀ a, t.mem.byte a = s.mem.byte a) ∧ t.hazard = s.hazard ∧ t.script = s.script ∧
    t.hostData = s.hostData)

/-! ### Running and completing -/

/-- R181: an operation in RUN completes, in one atomic step, with the digest of its operands in OPR and its
input bytes; and a step that leaves RUN made the operation complete in its own sequencer steps, before the
slot's access, or was a reset. With no slot the step is one sequencer step; a slot makes as many as it says. -/
def Obligations.EveryOperationCompletesWithItsDigest : Prop :=
  (∀ s : State, Inv s → s.phase = .run → s.hazard = false →
    ∃ i, decode s.opr.op = .ok i ∧ CompletesWith s (jobOf i s.opr s.mem).digest) ∧
  (∀ s t : State, Inv s → s.phase = .run → step s = .next t → t.phase ≠ .run →
    (s.script = [] ∧ coreStep s = .next t ∧ CompletedFrom s t) ∨
    (∃ slot rest u, s.script = slot :: rest ∧
      coreRun slot.core { s with script := rest } = .next u ∧ hostAccess slot.op u = .next t ∧
      (CompletedFrom { s with script := rest } u ∨ (slot.op = .reset ∧ u.phase = .run))))

/-- R248: an operation in RUN completes within finitely many sequencer steps, whether or not the host broke
R50. The bound is the model's (log 8). -/
def Obligations.EveryOperationEnds : Prop :=
  ∀ s : State, Inv s → s.phase = .run →
    ∃ i n u, decode s.opr.op = .ok i ∧ n ≤ (jobOf i s.opr s.mem).nbytes + 6 ∧
      coreRun n s = .next u ∧ u.phase = .doneOk ∧ u.status = { s.status with busy := false, done := true }

/-- R243: a host write in the running operation's window makes the digest any value, with DONE = 1 and
ERR = 0; a write outside it is harmless, and so is every write while a value command runs, which has no window
(R50). The drawn words are the model's free values (log 7). -/
def Obligations.WritingTheWindowMakesTheDigestFree : Prop :=
  (∀ (s : State) (i : Instr) (a : Nat) (b : Byte), Inv s → s.phase = .run →
    decode s.opr.op = .ok i → (jobOf i s.opr s.mem).windowed = true →
    s.opr.src.toNat ≤ a → a < s.opr.src.toNat + (jobOf i s.opr s.mem).nbytes →
    ∃ t n u, hostAccess (.writeIn a b) s = .next t ∧ t.status = s.status ∧ t.hazard = true ∧
      coreRun n t = .next u ∧ u.phase = .doneOk ∧ u.status.done = true ∧ u.status.err = false ∧
      (⟨u.res0, u.res1, u.res2, u.res3⟩ : Res) = freeDigest (jobOf i s.opr s.mem).mixer s.draws) ∧
  (∀ (s : State) (i : Instr) (a : Nat) (b : Byte), Inv s → s.phase = .run → s.hazard = false →
    decode s.opr.op = .ok i → a < s.mem.size →
    ((jobOf i s.opr s.mem).windowed = true →
      a < s.opr.src.toNat ∨ s.opr.src.toNat + (jobOf i s.opr s.mem).nbytes ≤ a) →
    ∃ t, hostAccess (.writeIn a b) s = .next t ∧
      CompletesWith t (jobOf i s.opr s.mem).digest)

/-- R22, R246: RES0..RES3 change only when an operation completes without error, all together and to its
digest, or at reset; a command taken, dropped or rejected, and every other host access, leaves the previous
digest in place. -/
def Obligations.ResultsChangeOnlyAtCompletionOrReset : Prop :=
  (∀ (op : HostOp) (s t : State), op ≠ .reset → hostAccess op s = .next t →
    t.res0 = s.res0 ∧ t.res1 = s.res1 ∧ t.res2 = s.res2 ∧ t.res3 = s.res3) ∧
  (∀ s t : State, Inv s → coreStep s = .next t →
    (t.res0 = s.res0 ∧ t.res1 = s.res1 ∧ t.res2 = s.res2 ∧ t.res3 = s.res3) ∨
    (s.phase = .run ∧ t.phase = .doneOk ∧ s.status.busy = true ∧ t.status.busy = false ∧
      t.status.done = true ∧ t.status.err = false ∧
      ∃ i, decode s.opr.op = .ok i ∧ (s.hazard = false →
        (⟨t.res0, t.res1, t.res2, t.res3⟩ : Res) = (jobOf i s.opr s.mem).digest)))

/-! ### The register window, STATUS and reset -/

/-- R20: the register window: each offset, what reads return, what writes do, and the reset values. -/
def Obligations.TheRegisterWindowReadsAndWritesAsListed : Prop :=
  ([Reg.cmd, .status, .seed, .src, .len, .val0, .val1, .val2, .val3, .res0, .res1, .res2, .res3].map
      regOffset = [0x00, 0x08, 0x10, 0x18, 0x20, 0x28, 0x30, 0x38, 0x40, 0x48, 0x50, 0x58, 0x60]) ∧
  (∀ (s : State) (r : Reg), s.readWindow (regOffset r) = s.readReg r) ∧
  (∀ s : State, s.readReg .cmd = 0#64) ∧
  (∀ (s : State) (r : Reg) (v : Word), r.isOperand = true →
    ∃ t, writeWindow s (regOffset r) v = .next t ∧ t.readReg r = v ∧
      ∀ q, q ≠ r → t.readReg q = s.readReg q) ∧
  (∀ (s : State) (r : Reg) (v : Word), r.isOperand = false → r ≠ .cmd →
    writeWindow s (regOffset r) v = .next s) ∧
  (∀ (s : State) (offset : Nat) (v : Word), 0x68 ≤ offset → offset ≤ 0xFF →
    s.readWindow offset = 0#64 ∧ writeWindow s offset v = .next s) ∧
  (∀ r : Reg, State.reset.readReg r = 0#64) ∧
  (∀ (s : State) (offset width : Nat) (v : Word), ¬ (width = 64 ∧ offset % 8 = 0 ∧ offset ≤ 0xFF) →
    hostAccess (.read offset width) s = .refused (.accessOutsideInterface offset width) ∧
    hostAccess (.write offset width v) s = .refused (.accessOutsideInterface offset width))

/-- R21: the fields of STATUS in the word the host reads, and the legal combinations of BUSY and DONE. -/
def Obligations.StatusReadsAsItsFields : Prop :=
  (∀ s : State, (s.readReg .status).getLsbD 0 = s.status.busy ∧
    (s.readReg .status).getLsbD 1 = s.status.done ∧ (s.readReg .status).getLsbD 2 = s.status.err ∧
    (s.readReg .status).getLsbD 3 = s.status.lost ∧
    (s.readReg .status).extractLsb' 4 4 = s.status.errCode ∧
    (s.readReg .status).extractLsb' 8 56 = 0#56) ∧
  (∀ s : State, Inv s → ¬ (s.status.busy = true ∧ s.status.done = true) ∧
    (s.status.err = false → s.status.errCode = 0#4) ∧
    (s.status.err = true → s.status.errCode = 1#4 ∨ s.status.errCode = 2#4) ∧
    (s.status.busy = true ↔ s.phase = .run))

/-- R214: an access that is not a 64-bit access at a multiple of 8 inside the window is refused; one at a
reserved offset is not. -/
def Obligations.MisfitAccessesAreRefused : Prop :=
  ∀ (s : State) (offset width : Nat) (v : Word),
    (¬ (width = 64 ∧ offset % 8 = 0 ∧ offset ≤ 0xFF) →
      hostAccess (.read offset width) s = .refused (.accessOutsideInterface offset width) ∧
      hostAccess (.write offset width v) s = .refused (.accessOutsideInterface offset width)) ∧
    (0x68 ≤ offset → offset ≤ 0xF8 → offset % 8 = 0 →
      hostAccess (.read offset 64) s = .next { s with hostData := 0#64 } ∧
      hostAccess (.write offset 64 v) s = .next s)

/-- R48: register reads have no side effect; an operand write stores its value and nothing else; a write of
STATUS, RESn or a reserved offset has no effect; a CMD write issues a command. -/
def Obligations.AccessesHaveNoOtherSideEffects : Prop :=
  (∀ (s t : State) (offset : Nat), hostAccess (.read offset 64) s = .next t →
    t = { s with hostData := s.readWindow offset }) ∧
  (∀ (s : State) (r : Reg) (v : Word), r.isOperand = true →
    hostAccess (.write (regOffset r) 64 v) s = .next (s.writeReg r v) ∧
    (s.writeReg r v).status = s.status ∧ (s.writeReg r v).opr = s.opr ∧
    (s.writeReg r v).phase = s.phase ∧ (s.writeReg r v).dp = s.dp ∧ (s.writeReg r v).mem = s.mem ∧
    (s.writeReg r v).script = s.script ∧ (s.writeReg r v).readReg r = v ∧
    ∀ q, q ≠ r → (s.writeReg r v).readReg q = s.readReg q) ∧
  (∀ (s : State) (r : Reg) (v : Word), r.isOperand = false → r ≠ .cmd →
    hostAccess (.write (regOffset r) 64 v) s = .next s) ∧
  (∀ (s : State) (offset : Nat) (v : Word), 0x68 ≤ offset → offset ≤ 0xF8 → offset % 8 = 0 →
    hostAccess (.write offset 64 v) s = .next s) ∧
  (∀ (s : State) (i : Instr), hostAccess (.write (regOffset .cmd) 64 (encode i)) s = exec i s)

/-- R240, R241: after reset every host-visible register reads 0 and PHASE is idle, IN is unchanged, the
running operation is abandoned, the next command is taken and, with SRC = LEN = 0, started; and what OPR and
the datapath registers hold is never read before it is written. -/
def Obligations.ResetClearsTheBlockAndKeepsTheInput : Prop :=
  (∀ r : Reg, State.reset.readReg r = 0#64) ∧ State.reset.phase = .idle ∧
  (∀ s : State, ∃ t, hostAccess .reset s = .next t ∧ (∀ r : Reg, t.readReg r = 0#64) ∧
    t.phase = .idle ∧ t.mem = s.mem ∧ (∀ n, coreRun n t = .next t) ∧
    ∀ (i : Instr) (o : Opr) (d : Datapath),
      exec i t = .next (startedState i t) ∧
      exec i { t with opr := o, dp := d } = .next (startedState i { t with opr := o, dp := d }) ∧
      ∃ r, CompletesWith (startedState i t) r ∧
        CompletesWith (startedState i { t with opr := o, dp := d }) r)

/-! ### Invariants -/

/-- The invariant holds at reset, whatever IN_SIZE is. Of the model's choices in it, only the canonical form of
IN (log 5) says anything of the reset state. -/
def Obligations.TheInvariantHoldsAtReset : Prop := Inv State.reset

/-- Every step keeps the invariant: IN's size legal and STATUS agreeing with PHASE, as the spec says, and in
RUN a command in OPR, its window in IN, the sequencer at a place of the algorithm inside [0, L), and the
datapath registers holding what the rules of the mixers give there. Three clauses are the model's choices:
the canonical form of IN (log 5), how the algorithm is cut into steps and so what a place is (log 8), and,
for a 128-bit operation of 17 bytes or more, the registers, which follow the spec's default instance
(log 9, unsafe for those registers; no digest rests on them). -/
def Obligations.EveryStepKeepsTheInvariant : Prop :=
  ∀ s t : State, Inv s → step s = .next t → Inv t

/-- R217 and U1: from a state that meets the invariant, the core never faults or refuses; a step stops only
on a host access outside the interface (refused) or a host write of an IN address that does not exist. -/
def Obligations.StepsStopOnlyOnMisfitHostAccesses : Prop :=
  ∀ s : State, Inv s →
    (∃ t, step s = .next t) ∨
    (∃ n rest offset width, inInterface offset width = false ∧
      ((∃ v, s.script = { core := n, op := .write offset width v } :: rest) ∨
        s.script = { core := n, op := .read offset width } :: rest) ∧
      step s = .refused (.accessOutsideInterface offset width)) ∨
    (∃ n rest a b, s.mem.size ≤ a ∧ s.script = { core := n, op := .writeIn a b } :: rest ∧
      step s = .fault (.inAddressAbsent a))

/-- A write of a byte of IN is read back, leaves every other byte alone, and keeps the canonical form. -/
def Obligations.InputBytesReadBackAsWritten : Prop :=
  ∀ (m : InMem) (a : Nat) (b : Byte), m.wf = true → a < m.size →
    (m.write a b).wf = true ∧ (m.write a b).byte a = b ∧ (m.write a b).size = m.size ∧
    ∀ x, x ≠ a → (m.write a b).byte x = m.byte x

/-- The host's write of a byte of IN changes that byte and no register; an address at or above IN_SIZE
faults (log 13). -/
def Obligations.HostWritesOfInputReachThatByteOnly : Prop :=
  ∀ (s : State) (a : Nat) (b : Byte),
    (a < s.mem.size → ∃ t, hostAccess (.writeIn a b) s = .next t ∧ t.mem.byte a = b ∧
      (∀ x, x ≠ a → t.mem.byte x = s.mem.byte x) ∧ (∀ r : Reg, t.readReg r = s.readReg r) ∧
      t.opr = s.opr ∧ t.phase = s.phase ∧ t.dp = s.dp ∧ t.script = s.script) ∧
    (s.mem.size ≤ a → hostAccess (.writeIn a b) s = .fault (.inAddressAbsent a))

/-! ### Primitives (spec/40_primitives.md, spec/20_memory.md) -/

/-- R41 (and R42, marked as derived from it): multi-byte reads are little endian, an 8-byte read is two 4-byte
reads, and a byte is the low byte of any wider read that starts at it. -/
def Obligations.LoadsAreLittleEndian : Prop :=
  ∀ (m : Input) (off : Nat),
    (∀ n, memRead m off n = ∑ i ∈ Finset.range n, (m (off + i)).toNat * 2 ^ (8 * i)) ∧
    (loadU32 m off).toNat = memRead m off 4 ∧ (loadU64 m off).toNat = memRead m off 8 ∧
    loadU64 m off = (loadU32 m off).setWidth 64 ||| ((loadU32 m (off + 4)).setWidth 64 <<< 32) ∧
    (loadU32 m off).extractLsb' 0 8 = m off ∧ (loadU64 m off).extractLsb' 0 8 = m off

/-- R83: packBytes is the little-endian value of its bytes, and bits [63:24] are 0. -/
def Obligations.PackedBytesAreTheirLittleEndianValue : Prop :=
  (∀ (m : Input) (n : Nat), n ≤ 3 →
    (packBytes 64 m n).toNat = memRead m 0 n ∧ (packBytes 32 m n).toNat = memRead m 0 n ∧
    (packBytes 64 m n).toNat < 2 ^ 24) ∧
  (∀ m, packBytes 64 m 0 = 0#64) ∧
  packBytes 64 (listInput [0xAB#8, 0xCD#8, 0xEF#8]) 3 = 0x00EFCDAB#64

/-- R84: pack64 duplicates a 4-byte window, mirrors one of 5 to 7 bytes, crosses the halves of one of 8, and
takes the interior pair for 9 to 16; its reads lie inside the window; the rule's worked values. -/
def Obligations.PackedWindowsHaveTheirListedForms : Prop :=
  (∀ (m : Input) (o : Nat),
    pack64 m o 4 = (loadU32 m o ++ loadU32 m o, loadU32 m o ++ loadU32 m o) ∧
    pack64 m o 8 = (loadU32 m o ++ loadU32 m (o + 4), loadU32 m (o + 4) ++ loadU32 m o) ∧
    (∀ n, 5 ≤ n → n ≤ 7 → pack64 m o n =
      (loadU32 m o ++ loadU32 m (o + n - 4), loadU32 m o ++ loadU32 m (o + n - 4))) ∧
    (∀ n, 9 ≤ n → n ≤ 16 → pack64 m o n =
      (loadU32 m o ++ loadU32 m (o + n - 4),
        loadU32 m (o + 4 * (n / 8)) ++ loadU32 m (o + n - 4 - 4 * (n / 8))))) ∧
  (∀ o n : Nat, 4 ≤ n → n ≤ 16 → ∀ x ∈ [o, o + n - 4, o + 4 * (n / 8), o + n - 4 - 4 * (n / 8)],
    o ≤ x ∧ x ≤ o + n - 4) ∧
  ([4, 5, 7, 8, 9, 12, 15, 16].map (pack64 (fun k => BitVec.ofNat 8 (k + 1)) 0) =
    [(0x0403020104030201#64, 0x0403020104030201#64), (0x0403020105040302#64, 0x0403020105040302#64),
      (0x0403020107060504#64, 0x0403020107060504#64), (0x0403020108070605#64, 0x0807060504030201#64),
      (0x0403020109080706#64, 0x0807060505040302#64), (0x040302010c0b0a09#64, 0x0807060508070605#64),
      (0x040302010f0e0d0c#64, 0x080706050b0a0908#64), (0x04030201100f0e0d#64, 0x0c0b0a0908070605#64)])

/-- R85: umul128 is the exact 128-bit product, low half first. -/
def Obligations.Umul128IsTheExactProduct : Prop :=
  (∀ u v : Word, (umul128 u v).1.toNat + 2 ^ 64 * (umul128 u v).2.toNat = u.toNat * v.toNat) ∧
  (∀ u v : Word, umul128 u v = umul128 v u) ∧
  (∀ v : Word, umul128 0 v = (0, 0) ∧ umul128 1 v = (v, 0)) ∧
  umul128 0xffffffffffffffff#64 0xffffffffffffffff#64 = (0x0000000000000001#64, 0xfffffffffffffffe#64) ∧
  umul128 0x452821E638D01377#64 0x243F6A8885A308D3#64 = (0x4f2006588be0c315#64, 0x09cac66c371a7852#64)

/-- R86: umul64 is the exact 64-bit product, low half first. -/
def Obligations.Umul64IsTheExactProduct : Prop :=
  (∀ u v : Half, (umul64 u v).1.toNat + 2 ^ 32 * (umul64 u v).2.toNat = u.toNat * v.toNat) ∧
  (∀ u v : Half, umul64 u v = umul64 v u) ∧
  (∀ v : Half, umul64 0 v = (0, 0) ∧ umul64 1 v = (v, 0)) ∧
  umul64 0xffffffff#32 0xffffffff#32 = (0x00000001#32, 0xfffffffe#32)

/-- R88: rotl32_on64 swaps the halves, and is an involution. -/
def Obligations.RotatingByHalfSwapsTheHalves : Prop :=
  (∀ x : Word, rotl32on64 x = x.extractLsb' 0 32 ++ x.extractLsb' 32 32) ∧
  (∀ x : Word, rotl32on64 (rotl32on64 x) = x) ∧
  rotl32on64 0x0123456789abcdef#64 = 0x89abcdef01234567#64

/-! ### Seed initializer and mixers -/

/-- R100: the 64-bit initializer: the product of the two masked lanes, low half into seed1; only
trunc_64(L) enters; the working masks start as Val01 and Val10; for seed 0 the masked terms vanish; the
worked example. -/
def Obligations.TheSeedInitializerMultipliesTheMaskedLanes : Prop :=
  (∀ (L : Nat) (seed : Word),
    (init64 L seed).1.toNat + 2 ^ 64 * (init64 L seed).2.toNat =
      (0x452821E638D01377#64 ^^^ BitVec.ofNat 64 L ^^^ (seed &&& 0xAAAAAAAAAAAAAAAA#64)).toNat *
      (0x243F6A8885A308D3#64 ^^^ BitVec.ofNat 64 L ^^^ (seed &&& 0x5555555555555555#64)).toNat) ∧
  (∀ (L : Nat) (seed : Word), init64 (L + 2 ^ 64) seed = init64 L seed) ∧
  (∀ (j : Job) (d : Datapath), j.mixer = .m64 → d.stage = .init →
    ((j.advance d).wide.seed1, (j.advance d).wide.seed2) = init64 j.nbytes j.seed ∧
    (j.advance d).wide.val01 = 0x5555555555555555#64 ∧
    (j.advance d).wide.val10 = 0xAAAAAAAAAAAAAAAA#64) ∧
  (∀ L : Nat, init64 L 0 =
    umul128 (0x452821E638D01377#64 ^^^ BitVec.ofNat 64 L) (0x243F6A8885A308D3#64 ^^^ BitVec.ofNat 64 L)) ∧
  init64 0 0 = (0x4f2006588be0c315#64, 0x09cac66c371a7852#64)

/-- R101, R102: the 32-bit and 128-bit initializers: the same shape, two constant lanes, and the working
masks. -/
def Obligations.TheOtherInitializersAddConstantLanes : Prop :=
  (∀ (L : Nat) (seed : Half),
    (init32 L seed).seed1.toNat + 2 ^ 32 * (init32 L seed).seed2.toNat =
      (0x85A308D3#32 ^^^ BitVec.ofNat 32 L ^^^ (seed &&& 0xAAAAAAAA#32)).toNat *
      (0x243F6A88#32 ^^^ BitVec.ofNat 32 L ^^^ (seed &&& 0x55555555#32)).toNat ∧
    (init32 L seed).seed3 = 0xFB0BD3EA#32 ∧ (init32 L seed).seed4 = 0x0F58FD47#32) ∧
  (∀ (L : Nat) (seed : Word),
    (init128 L seed).seed1 = (init64 L seed).1 ∧ (init128 L seed).seed2 = (init64 L seed).2 ∧
    (init128 L seed).seed3 = 0xA4093822299F31D0#64 ∧ (init128 L seed).seed4 = 0xC0AC29B7C97C50DD#64) ∧
  (∀ (j : Job) (d : Datapath), j.mixer = .m32 → d.stage = .init →
    (j.advance d).lane0.seeds = init32 j.nbytes (j.seed.setWidth 32) ∧
    (j.advance d).lane0.val01 = 0x55555555#32 ∧ (j.advance d).lane0.val10 = 0xAAAAAAAA#32) ∧
  (∀ (j : Job) (d : Datapath), j.mixer = .m128 → d.stage = .init →
    (j.advance d).wide.seeds = init128 j.nbytes j.seed ∧
    (j.advance d).wide.val01 = 0x5555555555555555#64 ∧
    (j.advance d).wide.val10 = 0xAAAAAAAAAAAAAAAA#64) ∧
  (init32 0 0).seed1 = 0x58310e18#32 ∧ (init32 0 0).seed2 = 0x12ec07f9#32 ∧
  (init32 13 0xdeadbeef#32).seed1 = 0x90f6ef00#32 ∧ (init32 13 0xdeadbeef#32).seed2 = 0x06988728#32

/-- R106: the initializer is the only step that uses the caller seed: seeds with the same initialized lanes
give the same digest. For 128 bits this is the spec's function of R158. -/
def Obligations.TheSeedActsThroughTheInitializerOnly : Prop :=
  (∀ (m : Input) (L : Nat) (x y : Word), init64 L x = init64 L y → hash64 m L x = hash64 m L y) ∧
  (∀ (m : Input) (L : Nat) (x y : Half), init32 L x = init32 L y → hash32 m L x = hash32 m L y) ∧
  (∀ (m : Input) (L : Nat) (x y : Word), init128 L x = init128 L y →
    hash128Ref m L x = hash128Ref m L y)

/-- R118, R138, R159 (marked as derived): the mixers read nothing outside [0, L): the digest depends on those
bytes only. -/
def Obligations.DigestsDependOnTheInputBytesOnly : Prop :=
  ∀ (m m' : Input) (L : Nat), (∀ k, k < L → m k = m' k) →
    (∀ seed, hash64 m L seed = hash64 m' L seed) ∧ (∀ seed, hash32 m L seed = hash32 m' L seed) ∧
    (∀ seed, hash128Ref m L seed = hash128Ref m' L seed) ∧
    (∀ seed, hash128 m L seed = hash128 m' L seed)

/-- R160: H128_LONG is a total function of the bytes and the seed that meets the one vector; the default
instance violates it. -/
def Obligations.TheLongDigestIsAFunctionThatMeetsTheVector : Prop :=
  (∀ (m m' : Input) (L : Nat) (seed : Word), 17 ≤ L → bytesOf m L = bytesOf m' L →
    hash128 m L seed = hash128 m' L seed ∧ hash128 m L seed = h128Long (bytesOf m L) seed) ∧
  (∀ m : Input, (∀ k, k < 256 → m k = BitVec.ofNat 8 k) →
    hash128 m 256 0#64 = (0x389d24736fc07578#64, 0xb528a757bfd3c6f1#64) ∧
    hash128Ref m 256 0#64 = (0xb74c65b487872c05#64, 0x49d67e870ad0724a#64))

/-- R157: at L = 0 the low word of the 128-bit digest is the 64-bit digest of the empty input, for every
seed. -/
def Obligations.TheEmptyInputsLowWordIsItsShorterDigest : Prop :=
  ∀ (m : Input) (seed : Word), (hash128 m 0 seed).1 = hash64 m 0 seed

/-! ### The host's programs -/

/-- R66: each pseudo-instruction, run from the head of the script with the core standing still, is the
listed register writes and then the command; the seed defaults to 0; `.WAIT` adds POLL. -/
def Obligations.PseudoInstructionsExpandToTheirWrites : Prop :=
  (∀ (s : State) (w : Width) (src len : Word) (seed : Option Word) (rest : List Slot),
    s.script = scriptOf 0 (expand (.buf w src len seed)) ++ rest →
    Host.Core.run core 4 s = exec (bufCommand w)
      { s with seed := seed.getD 0, src := src, len := len, script := rest }) ∧
  (∀ (s : State) (w : Width) (src units : Word) (seed : Option Word) (rest : List Slot),
    s.script = scriptOf 0 (expand (.t16 w src units seed)) ++ rest →
    Host.Core.run core 4 s = exec (t16Command w)
      { s with seed := seed.getD 0, src := src, len := units, script := rest }) ∧
  (∀ (s : State) (w : Width) (v : Word) (seed : Option Word) (rest : List Slot),
    s.script = scriptOf 0 (expand (.v4 w v seed)) ++ rest →
    Host.Core.run core 3 s = exec (v4Command w)
      { s with seed := seed.getD 0, val0 := v, script := rest }) ∧
  (∀ (s : State) (w : Width) (v : Word) (seed : Option Word) (rest : List Slot),
    s.script = scriptOf 0 (expand (.v8 w v seed)) ++ rest →
    Host.Core.run core 3 s = exec (v8Command w)
      { s with seed := seed.getD 0, val0 := v, script := rest }) ∧
  (∀ (s : State) (v0 v1 v2 v3 : Word) (seed : Option Word) (rest : List Slot),
    s.script = scriptOf 0 (expand (.x4 v0 v1 v2 v3 seed)) ++ rest →
    Host.Core.run core 6 s = exec .hash32x4
      { s with seed := seed.getD 0, val0 := v0, val1 := v1, val2 := v2, val3 := v3, script := rest }) ∧
  (∀ p : Pseudo, expand (.wait p) = expand p ++ [.poll])

/-- R65, R242: a POLL at the head of the script ends, with BUSY = 0 in the word it read, and if an operation
was running, with DONE = 1. -/
def Obligations.PollingEndsWithTheBlockNotBusy : Prop :=
  ∀ (s : State) (k : Nat) (rest : List Slot), Inv s → s.script = { core := k, op := .poll } :: rest →
    ∃ n u, Host.Core.run core n s = .next u ∧ u.script = rest ∧ u.status.busy = false ∧
      u.hostData = u.status.word ∧ (s.phase = .run → u.status.done = true)

/-! ### Worked traces -/

/-- R119, R139: the traces of the two mixers over 17 bytes, which the spec marks as derived: the seeds, the
masks, one loop iteration, the tail, the finalizer's products and the digest. -/
def Obligations.TheLongTracesAreAsListed : Prop :=
  let m : Input := fun k => BitVec.ofNat 8 k
  (init64 17 0 = (0x4f3fb2fde63be34c#64, 0x09cac66c371a784b#64) ∧
    0x5555555555555555#64 ^^^ (init64 17 0).1 = 0x1a6ae7a8b36eb619#64 ∧
    0xAAAAAAAAAAAAAAAA#64 ^^^ (init64 17 0).2 = 0xa3606cc69db0d2e1#64 ∧
    loadU64 m 0 = 0x0706050403020100#64 ∧ loadU64 m 8 = 0x0f0e0d0c0b0a0908#64 ∧
    iter64 m 0 0x1a6ae7a8b36eb619#64 0xa3606cc69db0d2e1#64 (init64 17 0) =
      (0x5b482a5933787c11#64, 0xa432543955346c86#64) ∧
    tail64 m 17 = (0x04030201100f0e0d#64, 0x0c0b0a0908070605#64) ∧
    umul128 (0x04030201100f0e0d#64 ^^^ 0x5b482a5933787c11#64)
      (0x0c0b0a0908070605#64 ^^^ 0xa432543955346c86#64) = (0x3b23464982f2fc54#64, 0x3e9ead456c7fa74e#64) ∧
    umul128 (0x1a6ae7a8b36eb619#64 ^^^ 0x3b23464982f2fc54#64) 0x3e9ead456c7fa74e#64 =
      (0xfb8ad59c6a49de76#64, 0x0824772e3c59f240#64) ∧
    hash64 m 17 0 = 0xf3aea2b256102c36#64) ∧
  ((init32 17 0).seed1 = 0xcfce8ff2#32 ∧ (init32 17 0).seed2 = 0x12ec07ff#32 ∧
    0x55555555#32 ^^^ (init32 17 0).seed1 = 0x9a9bdaa7#32 ∧
    0xAAAAAAAA#32 ^^^ (init32 17 0).seed2 = 0xb846ad55#32 ∧
    iter32 m 0 0x9a9bdaa7#32 0xb846ad55#32 (init32 17 0) =
      ⟨0x512dd77d#32, 0x24b6af4e#32, 0xe4e4a668#32, 0xb8ffb044#32⟩ ∧
    tail32 m 17 1 = ⟨0x0c0b0a09#32, 0x100f0e0d#32, none⟩ ∧
    (0x512dd77d#32 ^^^ 0xe4e4a668#32, 0x24b6af4e#32 ^^^ 0xb8ffb044#32) = (0xb5c97115#32, 0x9c491f0a#32) ∧
    umul64 (0x0c0b0a09#32 + 0xb5c97115#32) (0x100f0e0d#32 + 0x9c491f0a#32) =
      (0x3e0b55b2#32, 0x827d85e6#32) ∧
    umul64 (0x9a9bdaa7#32 ^^^ 0x3e0b55b2#32) 0x827d85e6#32 = (0x7b7775de#32, 0x53e21951#32) ∧
    hash32 m 17 0 = 0x28956c8f#32)
end

