-- ==== Sys2Proof/Laws/Encoding.lean ====
section
/-! SUPPORT. The decoder and the encoder (spec/30_encoding.md R60 to R64): a value below 32 is decided by
its five opcode bits, any other has a reserved bit set. -/

namespace Sys2Proof

theorem fieldsOf_rsvd (v : Word) : (fieldsOf v).rsvd = 0#59 ↔ v.toNat < 32 := by
  have hv := v.isLt
  rw [← BitVec.toNat_inj]
  simp only [fieldsOf, BitVec.extractLsb'_toNat, BitVec.toNat_ofNat, Nat.shiftRight_eq_div_pow]
  omega

theorem decode_large {v : Word} (h : 32 ≤ v.toNat) : decode v = .error .reservedBits := by
  have : (fieldsOf v).rsvd ≠ 0#59 := fun e => by have := (fieldsOf_rsvd v).mp e; omega
  simp [decode, this]

/-- A property of the values below 32 holds of every value below 32 if it holds of the 32 numerals. -/
theorem forall_small {P : Word → Prop} (h : ∀ k : Fin 32, P (BitVec.ofNat 64 k.val)) {v : Word}
    (hv : v.toNat < 32) : P v := by
  have := h ⟨v.toNat, hv⟩
  simpa using this

@[simp] theorem decode_encode (i : Instr) : decode (encode i) = .ok i := by cases i <;> decide

theorem encode_lt (i : Instr) : (encode i).toNat < 32 := by cases i <;> decide

theorem encode_injective {i j : Instr} (h : encode i = encode j) : i = j := by
  have := congrArg decode h
  simpa using this

/-- The decoder accepts one value for each command. -/
theorem eq_encode_of_decode {v : Word} {i : Instr} (h : decode v = .ok i) : v = encode i := by
  by_cases hv : v.toNat < 32
  · revert h
    revert hv
    refine fun hv => forall_small (P := fun v => decode v = .ok i → v = encode i) ?_ hv
    cases i <;> decide
  · rw [decode_large (by omega)] at h
    exact absurd h (by simp)

theorem decode_eq_ok_iff (v : Word) (i : Instr) : decode v = .ok i ↔ v = encode i :=
  ⟨eq_encode_of_decode, fun h => h ▸ decode_encode i⟩

/-- The decoder accepts a word exactly when its fields are legal. -/
theorem decode_isOk_iff_wf (v : Word) : (∃ i, decode v = .ok i) ↔ (fieldsOf v).wf = true := by
  by_cases hv : v.toNat < 32
  · have h : ((decode v).toOption.isSome = true ↔ (fieldsOf v).wf = true) := by
      refine forall_small
        (P := fun v => ((decode v).toOption.isSome = true ↔ (fieldsOf v).wf = true)) ?_ hv
      decide
    rw [← h]
    cases decode v <;> simp [Except.toOption]
  · have hr : (fieldsOf v).rsvd ≠ 0#59 := fun e => by have := (fieldsOf_rsvd v).mp e; omega
    simp [decode_large (Nat.le_of_not_lt hv), CmdFields.wf, CmdFields.rsvdOk, hr]

@[simp] theorem fieldsOf_encode (i : Instr) : fieldsOf (encode i) = i.fields := by cases i <;> decide

end Sys2Proof
end

