-- ==== Sys2Proof/Laws/Memory.lean ====
section
/-! SUPPORT. The memory operations (spec/20_memory.md R40): a read after a write, and that every write keeps
the canonical form. -/

namespace Sys2Proof.Machine

theorem cellsRead_write_same (a : Nat) (b : Byte) :
    ∀ l : List Host.Cell, cellsRead (cellsWrite l a b) a = some b
  | [] => by simp [cellsWrite, cellsRead]
  | (k, c) :: rest => by
    unfold cellsWrite
    split
    · simp [cellsRead]
    · split
      · simp [cellsRead]
      · rw [cellsRead, if_neg (by omega), cellsRead_write_same a b rest]

theorem cellsRead_write_other {a x : Nat} (b : Byte) (hx : x ≠ a) :
    ∀ l : List Host.Cell, cellsRead (cellsWrite l a b) x = cellsRead l x
  | [] => by simp [cellsWrite, cellsRead, Ne.symm hx]
  | (k, c) :: rest => by
    unfold cellsWrite
    split
    · simp [cellsRead, Ne.symm hx]
    · split
      · rename_i h
        subst h
        simp [cellsRead, Ne.symm hx]
      · simp only [cellsRead, cellsRead_write_other b hx rest]

@[simp] theorem InMem.byte_write_same (m : InMem) (a : Nat) (b : Byte) : (m.write a b).byte a = b := by
  simp [InMem.write, InMem.byte, cellsRead_write_same]

theorem InMem.byte_write_other (m : InMem) {a x : Nat} (b : Byte) (hx : x ≠ a) :
    (m.write a b).byte x = m.byte x := by
  simp [InMem.write, InMem.byte, cellsRead_write_other b hx]

@[simp] theorem InMem.size_write (m : InMem) (a : Nat) (b : Byte) : (m.write a b).size = m.size := rfl

theorem cellsRising_write {a hi : Nat} (b : Byte) (hhi : a < hi) :
    ∀ (l : List Host.Cell) (lo : Nat), lo ≤ a → cellsRising lo hi l = true →
      cellsRising lo hi (cellsWrite l a b) = true
  | [], lo, hlo, _ => by simp [cellsWrite, cellsRising, hlo, hhi]
  | (k, c) :: rest, lo, hlo, h => by
    simp only [cellsRising, Bool.and_eq_true, Nat.ble_eq, Nat.blt_eq] at h
    obtain ⟨⟨h1, h2⟩, h3⟩ := h
    unfold cellsWrite
    split
    · simp only [cellsRising, Bool.and_eq_true, Nat.ble_eq, Nat.blt_eq]
      exact ⟨⟨hlo, hhi⟩, ⟨by omega, h2⟩, h3⟩
    · split
      · rename_i hk
        subst hk
        simp only [cellsRising, Bool.and_eq_true, Nat.ble_eq, Nat.blt_eq]
        exact ⟨⟨hlo, hhi⟩, h3⟩
      · simp only [cellsRising, Bool.and_eq_true, Nat.ble_eq, Nat.blt_eq]
        exact ⟨⟨h1, h2⟩, cellsRising_write b hhi rest (k + 1) (by omega) h3⟩

/-- A host write inside IN keeps the canonical form. -/
theorem InMem.wf_write {m : InMem} {a : Nat} (b : Byte) (h : m.wf = true) (ha : a < m.size) :
    (m.write a b).wf = true := by
  simp only [InMem.wf, InMem.write, Bool.and_eq_true] at h ⊢
  exact ⟨h.1, cellsRising_write b ha _ _ (Nat.zero_le _) h.2⟩

/-- IN at reset is in canonical form, whatever IN_SIZE is (R8). -/
theorem State.reset_mem_wf : State.reset.mem.wf = true := by
  have h : Config.inTop.toNat < 2 ^ 64 := Config.inTop.isLt
  simp only [State.reset, InMem.wf, Config.inSize, Bool.and_eq_true, Nat.ble_eq]
  exact ⟨⟨by omega, by omega⟩, rfl⟩

@[simp] theorem InMem.fits_iff (m : InMem) (src n : Nat) : m.fits src n = true ↔ src + n ≤ m.size := by
  simp [InMem.fits]

end Sys2Proof.Machine
end

