-- ==== Sys2Proof/Laws/State.lean ====
section
/-! SUPPORT. What each update of the state does to each field: true by definition, so that no later proof
unfolds a record update. -/

namespace Sys2Proof.Machine

/-! ### State.drop -/

@[simp] theorem State.drop_status (s : State) :
    (s.drop).status = s.status.dropped := rfl
@[simp] theorem State.drop_seed (s : State) :
    (s.drop).seed = s.seed := rfl
@[simp] theorem State.drop_src (s : State) :
    (s.drop).src = s.src := rfl
@[simp] theorem State.drop_len (s : State) :
    (s.drop).len = s.len := rfl
@[simp] theorem State.drop_val0 (s : State) :
    (s.drop).val0 = s.val0 := rfl
@[simp] theorem State.drop_val1 (s : State) :
    (s.drop).val1 = s.val1 := rfl
@[simp] theorem State.drop_val2 (s : State) :
    (s.drop).val2 = s.val2 := rfl
@[simp] theorem State.drop_val3 (s : State) :
    (s.drop).val3 = s.val3 := rfl
@[simp] theorem State.drop_res0 (s : State) :
    (s.drop).res0 = s.res0 := rfl
@[simp] theorem State.drop_res1 (s : State) :
    (s.drop).res1 = s.res1 := rfl
@[simp] theorem State.drop_res2 (s : State) :
    (s.drop).res2 = s.res2 := rfl
@[simp] theorem State.drop_res3 (s : State) :
    (s.drop).res3 = s.res3 := rfl
@[simp] theorem State.drop_opr (s : State) :
    (s.drop).opr = s.opr := rfl
@[simp] theorem State.drop_phase (s : State) :
    (s.drop).phase = s.phase := rfl
@[simp] theorem State.drop_dp (s : State) :
    (s.drop).dp = s.dp := rfl
@[simp] theorem State.drop_mem (s : State) :
    (s.drop).mem = s.mem := rfl
@[simp] theorem State.drop_hazard (s : State) :
    (s.drop).hazard = s.hazard := rfl
@[simp] theorem State.drop_draws (s : State) :
    (s.drop).draws = s.draws := rfl
@[simp] theorem State.drop_script (s : State) :
    (s.drop).script = s.script := rfl
@[simp] theorem State.drop_hostData (s : State) :
    (s.drop).hostData = s.hostData := rfl

/-! ### State.latch -/

@[simp] theorem State.latch_status (s : State) (v : Word) :
    (s.latch v).status = s.status.cleared := rfl
@[simp] theorem State.latch_seed (s : State) (v : Word) :
    (s.latch v).seed = s.seed := rfl
@[simp] theorem State.latch_src (s : State) (v : Word) :
    (s.latch v).src = s.src := rfl
@[simp] theorem State.latch_len (s : State) (v : Word) :
    (s.latch v).len = s.len := rfl
@[simp] theorem State.latch_val0 (s : State) (v : Word) :
    (s.latch v).val0 = s.val0 := rfl
@[simp] theorem State.latch_val1 (s : State) (v : Word) :
    (s.latch v).val1 = s.val1 := rfl
@[simp] theorem State.latch_val2 (s : State) (v : Word) :
    (s.latch v).val2 = s.val2 := rfl
@[simp] theorem State.latch_val3 (s : State) (v : Word) :
    (s.latch v).val3 = s.val3 := rfl
@[simp] theorem State.latch_res0 (s : State) (v : Word) :
    (s.latch v).res0 = s.res0 := rfl
@[simp] theorem State.latch_res1 (s : State) (v : Word) :
    (s.latch v).res1 = s.res1 := rfl
@[simp] theorem State.latch_res2 (s : State) (v : Word) :
    (s.latch v).res2 = s.res2 := rfl
@[simp] theorem State.latch_res3 (s : State) (v : Word) :
    (s.latch v).res3 = s.res3 := rfl
@[simp] theorem State.latch_opr (s : State) (v : Word) :
    (s.latch v).opr = ⟨v, s.seed, s.src, s.len, s.val0, s.val1, s.val2, s.val3⟩ := rfl
@[simp] theorem State.latch_phase (s : State) (v : Word) :
    (s.latch v).phase = s.phase := rfl
@[simp] theorem State.latch_dp (s : State) (v : Word) :
    (s.latch v).dp = s.dp := rfl
@[simp] theorem State.latch_mem (s : State) (v : Word) :
    (s.latch v).mem = s.mem := rfl
@[simp] theorem State.latch_hazard (s : State) (v : Word) :
    (s.latch v).hazard = s.hazard := rfl
@[simp] theorem State.latch_draws (s : State) (v : Word) :
    (s.latch v).draws = s.draws := rfl
@[simp] theorem State.latch_script (s : State) (v : Word) :
    (s.latch v).script = s.script := rfl
@[simp] theorem State.latch_hostData (s : State) (v : Word) :
    (s.latch v).hostData = s.hostData := rfl

/-! ### State.reject -/

@[simp] theorem State.reject_status (s : State) (code : BitVec 4) :
    (s.reject code).status = s.status.rejected code := rfl
@[simp] theorem State.reject_seed (s : State) (code : BitVec 4) :
    (s.reject code).seed = s.seed := rfl
@[simp] theorem State.reject_src (s : State) (code : BitVec 4) :
    (s.reject code).src = s.src := rfl
@[simp] theorem State.reject_len (s : State) (code : BitVec 4) :
    (s.reject code).len = s.len := rfl
@[simp] theorem State.reject_val0 (s : State) (code : BitVec 4) :
    (s.reject code).val0 = s.val0 := rfl
@[simp] theorem State.reject_val1 (s : State) (code : BitVec 4) :
    (s.reject code).val1 = s.val1 := rfl
@[simp] theorem State.reject_val2 (s : State) (code : BitVec 4) :
    (s.reject code).val2 = s.val2 := rfl
@[simp] theorem State.reject_val3 (s : State) (code : BitVec 4) :
    (s.reject code).val3 = s.val3 := rfl
@[simp] theorem State.reject_res0 (s : State) (code : BitVec 4) :
    (s.reject code).res0 = s.res0 := rfl
@[simp] theorem State.reject_res1 (s : State) (code : BitVec 4) :
    (s.reject code).res1 = s.res1 := rfl
@[simp] theorem State.reject_res2 (s : State) (code : BitVec 4) :
    (s.reject code).res2 = s.res2 := rfl
@[simp] theorem State.reject_res3 (s : State) (code : BitVec 4) :
    (s.reject code).res3 = s.res3 := rfl
@[simp] theorem State.reject_opr (s : State) (code : BitVec 4) :
    (s.reject code).opr = s.opr := rfl
@[simp] theorem State.reject_phase (s : State) (code : BitVec 4) :
    (s.reject code).phase = .doneErr := rfl
@[simp] theorem State.reject_dp (s : State) (code : BitVec 4) :
    (s.reject code).dp = s.dp := rfl
@[simp] theorem State.reject_mem (s : State) (code : BitVec 4) :
    (s.reject code).mem = s.mem := rfl
@[simp] theorem State.reject_hazard (s : State) (code : BitVec 4) :
    (s.reject code).hazard = s.hazard := rfl
@[simp] theorem State.reject_draws (s : State) (code : BitVec 4) :
    (s.reject code).draws = s.draws := rfl
@[simp] theorem State.reject_script (s : State) (code : BitVec 4) :
    (s.reject code).script = s.script := rfl
@[simp] theorem State.reject_hostData (s : State) (code : BitVec 4) :
    (s.reject code).hostData = s.hostData := rfl

/-! ### State.start -/

@[simp] theorem State.start_status (s : State) :
    (s.start).status = s.status.started := rfl
@[simp] theorem State.start_seed (s : State) :
    (s.start).seed = s.seed := rfl
@[simp] theorem State.start_src (s : State) :
    (s.start).src = s.src := rfl
@[simp] theorem State.start_len (s : State) :
    (s.start).len = s.len := rfl
@[simp] theorem State.start_val0 (s : State) :
    (s.start).val0 = s.val0 := rfl
@[simp] theorem State.start_val1 (s : State) :
    (s.start).val1 = s.val1 := rfl
@[simp] theorem State.start_val2 (s : State) :
    (s.start).val2 = s.val2 := rfl
@[simp] theorem State.start_val3 (s : State) :
    (s.start).val3 = s.val3 := rfl
@[simp] theorem State.start_res0 (s : State) :
    (s.start).res0 = s.res0 := rfl
@[simp] theorem State.start_res1 (s : State) :
    (s.start).res1 = s.res1 := rfl
@[simp] theorem State.start_res2 (s : State) :
    (s.start).res2 = s.res2 := rfl
@[simp] theorem State.start_res3 (s : State) :
    (s.start).res3 = s.res3 := rfl
@[simp] theorem State.start_opr (s : State) :
    (s.start).opr = s.opr := rfl
@[simp] theorem State.start_phase (s : State) :
    (s.start).phase = .run := rfl
@[simp] theorem State.start_dp (s : State) :
    (s.start).dp = { s.dp with stage := .init } := rfl
@[simp] theorem State.start_mem (s : State) :
    (s.start).mem = s.mem := rfl
@[simp] theorem State.start_hazard (s : State) :
    (s.start).hazard = false := rfl
@[simp] theorem State.start_draws (s : State) :
    (s.start).draws = s.draws := rfl
@[simp] theorem State.start_script (s : State) :
    (s.start).script = s.script := rfl
@[simp] theorem State.start_hostData (s : State) :
    (s.start).hostData = s.hostData := rfl

/-! ### State.complete -/

@[simp] theorem State.complete_status (s : State) (r : Res) :
    (s.complete r).status = s.status.completed := rfl
@[simp] theorem State.complete_seed (s : State) (r : Res) :
    (s.complete r).seed = s.seed := rfl
@[simp] theorem State.complete_src (s : State) (r : Res) :
    (s.complete r).src = s.src := rfl
@[simp] theorem State.complete_len (s : State) (r : Res) :
    (s.complete r).len = s.len := rfl
@[simp] theorem State.complete_val0 (s : State) (r : Res) :
    (s.complete r).val0 = s.val0 := rfl
@[simp] theorem State.complete_val1 (s : State) (r : Res) :
    (s.complete r).val1 = s.val1 := rfl
@[simp] theorem State.complete_val2 (s : State) (r : Res) :
    (s.complete r).val2 = s.val2 := rfl
@[simp] theorem State.complete_val3 (s : State) (r : Res) :
    (s.complete r).val3 = s.val3 := rfl
@[simp] theorem State.complete_res0 (s : State) (r : Res) :
    (s.complete r).res0 = r.r0 := rfl
@[simp] theorem State.complete_res1 (s : State) (r : Res) :
    (s.complete r).res1 = r.r1 := rfl
@[simp] theorem State.complete_res2 (s : State) (r : Res) :
    (s.complete r).res2 = r.r2 := rfl
@[simp] theorem State.complete_res3 (s : State) (r : Res) :
    (s.complete r).res3 = r.r3 := rfl
@[simp] theorem State.complete_opr (s : State) (r : Res) :
    (s.complete r).opr = s.opr := rfl
@[simp] theorem State.complete_phase (s : State) (r : Res) :
    (s.complete r).phase = .doneOk := rfl
@[simp] theorem State.complete_dp (s : State) (r : Res) :
    (s.complete r).dp = s.dp := rfl
@[simp] theorem State.complete_mem (s : State) (r : Res) :
    (s.complete r).mem = s.mem := rfl
@[simp] theorem State.complete_hazard (s : State) (r : Res) :
    (s.complete r).hazard = s.hazard := rfl
@[simp] theorem State.complete_draws (s : State) (r : Res) :
    (s.complete r).draws = s.draws := rfl
@[simp] theorem State.complete_script (s : State) (r : Res) :
    (s.complete r).script = s.script := rfl
@[simp] theorem State.complete_hostData (s : State) (r : Res) :
    (s.complete r).hostData = s.hostData := rfl

/-! ### State.onReset -/

@[simp] theorem State.onReset_status (s : State) :
    (s.onReset).status = State.reset.status := rfl
@[simp] theorem State.onReset_seed (s : State) :
    (s.onReset).seed = State.reset.seed := rfl
@[simp] theorem State.onReset_src (s : State) :
    (s.onReset).src = State.reset.src := rfl
@[simp] theorem State.onReset_len (s : State) :
    (s.onReset).len = State.reset.len := rfl
@[simp] theorem State.onReset_val0 (s : State) :
    (s.onReset).val0 = State.reset.val0 := rfl
@[simp] theorem State.onReset_val1 (s : State) :
    (s.onReset).val1 = State.reset.val1 := rfl
@[simp] theorem State.onReset_val2 (s : State) :
    (s.onReset).val2 = State.reset.val2 := rfl
@[simp] theorem State.onReset_val3 (s : State) :
    (s.onReset).val3 = State.reset.val3 := rfl
@[simp] theorem State.onReset_res0 (s : State) :
    (s.onReset).res0 = State.reset.res0 := rfl
@[simp] theorem State.onReset_res1 (s : State) :
    (s.onReset).res1 = State.reset.res1 := rfl
@[simp] theorem State.onReset_res2 (s : State) :
    (s.onReset).res2 = State.reset.res2 := rfl
@[simp] theorem State.onReset_res3 (s : State) :
    (s.onReset).res3 = State.reset.res3 := rfl
@[simp] theorem State.onReset_opr (s : State) :
    (s.onReset).opr = State.reset.opr := rfl
@[simp] theorem State.onReset_phase (s : State) :
    (s.onReset).phase = State.reset.phase := rfl
@[simp] theorem State.onReset_dp (s : State) :
    (s.onReset).dp = State.reset.dp := rfl
@[simp] theorem State.onReset_mem (s : State) :
    (s.onReset).mem = s.mem := rfl
@[simp] theorem State.onReset_hazard (s : State) :
    (s.onReset).hazard = State.reset.hazard := rfl
@[simp] theorem State.onReset_draws (s : State) :
    (s.onReset).draws = s.draws := rfl
@[simp] theorem State.onReset_script (s : State) :
    (s.onReset).script = s.script := rfl
@[simp] theorem State.onReset_hostData (s : State) :
    (s.onReset).hostData = s.hostData := rfl

/-! ### State.setDp -/

@[simp] theorem State.setDp_status (s : State) (d : Datapath) :
    (s.setDp d).status = s.status := rfl
@[simp] theorem State.setDp_seed (s : State) (d : Datapath) :
    (s.setDp d).seed = s.seed := rfl
@[simp] theorem State.setDp_src (s : State) (d : Datapath) :
    (s.setDp d).src = s.src := rfl
@[simp] theorem State.setDp_len (s : State) (d : Datapath) :
    (s.setDp d).len = s.len := rfl
@[simp] theorem State.setDp_val0 (s : State) (d : Datapath) :
    (s.setDp d).val0 = s.val0 := rfl
@[simp] theorem State.setDp_val1 (s : State) (d : Datapath) :
    (s.setDp d).val1 = s.val1 := rfl
@[simp] theorem State.setDp_val2 (s : State) (d : Datapath) :
    (s.setDp d).val2 = s.val2 := rfl
@[simp] theorem State.setDp_val3 (s : State) (d : Datapath) :
    (s.setDp d).val3 = s.val3 := rfl
@[simp] theorem State.setDp_res0 (s : State) (d : Datapath) :
    (s.setDp d).res0 = s.res0 := rfl
@[simp] theorem State.setDp_res1 (s : State) (d : Datapath) :
    (s.setDp d).res1 = s.res1 := rfl
@[simp] theorem State.setDp_res2 (s : State) (d : Datapath) :
    (s.setDp d).res2 = s.res2 := rfl
@[simp] theorem State.setDp_res3 (s : State) (d : Datapath) :
    (s.setDp d).res3 = s.res3 := rfl
@[simp] theorem State.setDp_opr (s : State) (d : Datapath) :
    (s.setDp d).opr = s.opr := rfl
@[simp] theorem State.setDp_phase (s : State) (d : Datapath) :
    (s.setDp d).phase = s.phase := rfl
@[simp] theorem State.setDp_dp (s : State) (d : Datapath) :
    (s.setDp d).dp = d := rfl
@[simp] theorem State.setDp_mem (s : State) (d : Datapath) :
    (s.setDp d).mem = s.mem := rfl
@[simp] theorem State.setDp_hazard (s : State) (d : Datapath) :
    (s.setDp d).hazard = s.hazard := rfl
@[simp] theorem State.setDp_draws (s : State) (d : Datapath) :
    (s.setDp d).draws = s.draws := rfl
@[simp] theorem State.setDp_script (s : State) (d : Datapath) :
    (s.setDp d).script = s.script := rfl
@[simp] theorem State.setDp_hostData (s : State) (d : Datapath) :
    (s.setDp d).hostData = s.hostData := rfl
@[simp] theorem State.setDp_setDp (s : State) (d e : Datapath) : (s.setDp d).setDp e = s.setDp e := rfl
@[simp] theorem State.setDp_self (s : State) : s.setDp s.dp = s := rfl

end Sys2Proof.Machine
end

