-- ==== Sys2Proof/Laws/Commands.lean ====
section
/-! SUPPORT. What a CMD write does (spec/45_commands.md R180): everything `exec` can answer, and everything
an illegal value can. -/

namespace Sys2Proof.Machine

theorem issue_busy {s : State} (v : Word) (k : State → State) (h : s.status.busy = true) :
    s.issue v k = s.drop := by simp [State.issue, h]

theorem issue_idle {s : State} (v : Word) (k : State → State) (h : s.status.busy = false) :
    s.issue v k = k (s.latch v) := by simp [State.issue, h]

/-- Taking and starting a command, written as one state. -/
theorem latch_start (s : State) (i : Instr) :
    (s.latch (encode i)).start = startedState i s := by
  simp [State.latch, State.start, startedState, latchedOpr, Status.cleared, Status.started, statusRunning]

/-- Taking and rejecting a value, written as one state. -/
theorem latch_reject (s : State) (v : Word) (code : BitVec 4) :
    (s.latch v).reject code = rejectedState v code s := by
  simp [State.latch, State.reject, rejectedState, latchedOpr, Status.cleared, Status.rejected,
    statusRejected]

/-- A command that comes while BUSY is dropped. -/
theorem exec_busy (i : Instr) {s : State} (h : s.status.busy = true) : exec i s = .next s.drop := by
  cases i <;>
    simp [exec, execHash32Buf, execHash64Buf, execHash128Buf, execHash32T16, execHash64T16,
      execHash128T16, execHash32V4, execHash64V4, execHash128V4, execHash32V8, execHash64V8,
      execHash128V8, execHash32x4, issue_busy, h]

/-- Whether the window of a command about to be taken fits. -/
def commandFits (i : Instr) (s : State) : Bool :=
  (jobOf i (latchedOpr (encode i) s) s.mem).inBounds (latchedOpr (encode i) s) s.mem

/-- A command's window fits exactly when its bytes lie in IN, on exact integers (R49). -/
theorem commandFits_iff (i : Instr) (s : State) : commandFits i s = true ↔ WindowFits i s := by
  have e : ∀ n, s.mem.fits s.src.toNat n = true ↔ ∀ k, some n = some k → s.src.toNat + k ≤ s.mem.size :=
    fun n => (InMem.fits_iff ..).trans ⟨fun h k hk => Option.some.inj hk ▸ h, fun h => h n rfl⟩
  cases i
  case hash32Buf | hash64Buf | hash128Buf => exact e s.len.toNat
  case hash32T16 | hash64T16 | hash128T16 => exact e (2 * s.len.toNat)
  all_goals exact iff_of_true rfl (fun _ h => nomatch h)

theorem startWindowed_latch (s : State) (i : Instr) (n : Nat) :
    (s.latch (encode i)).startWindowed n =
      if s.mem.fits s.src.toNat n then startedState i s else rejectedState (encode i) errBounds s := by
  unfold State.startWindowed
  rw [latch_start, latch_reject]
  rfl

/-- A command that comes while the block is idle is started if its window fits, and is rejected with
BOUNDS otherwise; a command without a window always starts. -/
theorem exec_idle (i : Instr) {s : State} (h : s.status.busy = false) :
    exec i s = .next (if commandFits i s then startedState i s
      else rejectedState (encode i) errBounds s) := by
  cases i <;>
    simp only [exec, execHash32Buf, execHash64Buf, execHash128Buf, execHash32T16, execHash64T16,
      execHash128T16, execHash32V4, execHash64V4, execHash128V4, execHash32V8, execHash64V8,
      execHash128V8, execHash32x4, issue_idle _ _ h, startWindowed_latch, latch_start] <;>
    rfl

theorem exec_fits {i : Instr} {s : State} (h : s.status.busy = false) (hf : commandFits i s = true) :
    exec i s = .next (startedState i s) := by rw [exec_idle i h, if_pos hf]

theorem exec_not_fits {i : Instr} {s : State} (h : s.status.busy = false)
    (hf : commandFits i s = false) : exec i s = .next (rejectedState (encode i) errBounds s) := by
  rw [exec_idle i h, hf]
  simp

/-- Everything `exec` can answer: dropped, started, or rejected with BOUNDS. -/
theorem exec_cases (i : Instr) (s : State) :
    (s.status.busy = true ∧ exec i s = .next s.drop) ∨
    (s.status.busy = false ∧ commandFits i s = true ∧ exec i s = .next (startedState i s)) ∨
    (s.status.busy = false ∧ commandFits i s = false ∧
      exec i s = .next (rejectedState (encode i) errBounds s)) := by
  cases hb : s.status.busy
  · cases hf : commandFits i s
    · exact .inr (.inr ⟨rfl, rfl, exec_not_fits hb hf⟩)
    · exact .inr (.inl ⟨rfl, rfl, exec_fits hb hf⟩)
  · exact .inl ⟨rfl, exec_busy i hb⟩

/-- An illegal value is dropped while BUSY and rejected with ILLEGAL otherwise. -/
theorem issueIllegal_eq (s : State) (v : Word) :
    s.issueIllegal v = if s.status.busy then s.drop else rejectedState v errIllegal s := by
  unfold State.issueIllegal State.issue
  split
  · rfl
  · exact latch_reject s v errIllegal

/-! ### The digest of each command, by its latched operands (R183 to R185, R186 to R198) -/

theorem digest_hash32Buf (o : Opr) (m : InMem) :
    (jobOf .hash32Buf o m).digest = res32 (hash32 (windowInput o m) o.len.toNat (seed32Of o.seed)) := rfl
theorem digest_hash64Buf (o : Opr) (m : InMem) :
    (jobOf .hash64Buf o m).digest = res64 (hash64 (windowInput o m) o.len.toNat o.seed) := rfl
theorem digest_hash128Buf (o : Opr) (m : InMem) :
    (jobOf .hash128Buf o m).digest = res128 (hash128 (windowInput o m) o.len.toNat o.seed) := rfl
theorem digest_hash32T16 (o : Opr) (m : InMem) :
    (jobOf .hash32T16 o m).digest = res32 (hash32 (windowInput o m) (2 * o.len.toNat) (seed32Of o.seed)) := rfl
theorem digest_hash64T16 (o : Opr) (m : InMem) :
    (jobOf .hash64T16 o m).digest = res64 (hash64 (windowInput o m) (2 * o.len.toNat) o.seed) := rfl
theorem digest_hash128T16 (o : Opr) (m : InMem) :
    (jobOf .hash128T16 o m).digest = res128 (hash128 (windowInput o m) (2 * o.len.toNat) o.seed) := rfl
theorem digest_hash32V4 (o : Opr) (m : InMem) :
    (jobOf .hash32V4 o m).digest = res32 (hash32 (wordBytes o.v0) 4 (seed32Of o.seed)) := rfl
theorem digest_hash64V4 (o : Opr) (m : InMem) :
    (jobOf .hash64V4 o m).digest = res64 (hash64 (wordBytes o.v0) 4 o.seed) := rfl
theorem digest_hash128V4 (o : Opr) (m : InMem) :
    (jobOf .hash128V4 o m).digest = res128 (hash128 (wordBytes o.v0) 4 o.seed) := rfl
theorem digest_hash32V8 (o : Opr) (m : InMem) :
    (jobOf .hash32V8 o m).digest = res32 (hash32 (wordBytes o.v0) 8 (seed32Of o.seed)) := rfl
theorem digest_hash64V8 (o : Opr) (m : InMem) :
    (jobOf .hash64V8 o m).digest = res64 (hash64 (wordBytes o.v0) 8 o.seed) := rfl
theorem digest_hash128V8 (o : Opr) (m : InMem) :
    (jobOf .hash128V8 o m).digest = res128 (hash128 (wordBytes o.v0) 8 o.seed) := rfl
theorem digest_hash32x4 (o : Opr) (m : InMem) :
    (jobOf .hash32x4 o m).digest = res32x4 (hash32 (wordBytes o.v0) 4 (seed32Of o.seed))
      (hash32 (wordBytes o.v1) 4 (seed32Of o.seed)) (hash32 (wordBytes o.v2) 4 (seed32Of o.seed))
      (hash32 (wordBytes o.v3) 4 (seed32Of o.seed)) := rfl

end Sys2Proof.Machine
end

