-- ==== Sys2Proof/Laws/Primitives.lean ====
section
/-! SUPPORT. What the primitives and the mixers read: each gives the same answer on two inputs that agree
on the bytes it may read (spec/20_memory.md R44; R118, R138, R159). -/

namespace Sys2Proof.Machine

/-- Two inputs agree on the first `L` bytes. -/
def AgreeOn (L : Nat) (m m' : Input) : Prop := ∀ i, i < L → m i = m' i

theorem memRead_congr {m m' : Input} {L : Nat} (h : AgreeOn L m m') :
    ∀ (n off : Nat), off + n ≤ L → memRead m off n = memRead m' off n
  | 0, _, _ => rfl
  | n + 1, off, hle => by
    rw [memRead, memRead, memRead_congr h n off (by omega), h (off + n) (by omega)]

theorem loadU32_congr {m m' : Input} {L off : Nat} (h : AgreeOn L m m') (hle : off + 4 ≤ L) :
    loadU32 m off = loadU32 m' off := by rw [loadU32, loadU32, memRead_congr h 4 off hle]

theorem loadU64_congr {m m' : Input} {L off : Nat} (h : AgreeOn L m m') (hle : off + 8 ≤ L) :
    loadU64 m off = loadU64 m' off := by rw [loadU64, loadU64, memRead_congr h 8 off hle]

theorem packBytes_congr {m m' : Input} {L : Nat} (w : Nat) (h : AgreeOn L m m') :
    ∀ n, n ≤ L → packBytes w m n = packBytes w m' n
  | 0, _ => rfl
  | n + 1, hle => by rw [packBytes, packBytes, packBytes_congr w h n (by omega), h n (by omega)]

theorem pairWord_congr {m m' : Input} {L hi lo : Nat} (h : AgreeOn L m m') (h1 : hi + 4 ≤ L)
    (h2 : lo + 4 ≤ L) : pairWord m hi lo = pairWord m' hi lo := by
  rw [pairWord, pairWord, loadU32_congr h h1, loadU32_congr h h2]

/-- `pack64` reads inside its window (R84). -/
theorem pack64_congr {m m' : Input} {L o n : Nat} (h : AgreeOn L m m') (h4 : 4 ≤ n) (h16 : n ≤ 16)
    (hle : o + n ≤ L) : pack64 m o n = pack64 m' o n := by
  have hmo : n >>> 3 = n / 8 := Nat.shiftRight_eq_div_pow n 3
  simp only [pack64, hmo]
  rw [pairWord_congr (hi := o) (lo := o + n - 4) h (by omega) (by omega),
    pairWord_congr (hi := o + 4 * (n / 8)) (lo := o + n - 4 - 4 * (n / 8)) h (by omega) (by omega)]

theorem bytesOf_congr {m m' : Input} {L : Nat} (h : AgreeOn L m m') : bytesOf m L = bytesOf m' L := by
  simp only [bytesOf]
  exact List.map_congr_left fun i hi => h i (List.mem_range.mp hi)

theorem short64_congr {m m' : Input} {L : Nat} (h : AgreeOn L m m') (h16 : L ≤ 16) :
    short64 m L = short64 m' L := by
  unfold short64
  split
  · exact pack64_congr h ‹_› h16 (by omega)
  · rw [packBytes_congr 64 h L le_rfl]

theorem iter64_congr {m m' : Input} {L o : Nat} (h : AgreeOn L m m') (hle : o + 16 ≤ L)
    (v01 v10 : Word) (s : Word × Word) : iter64 m o v01 v10 s = iter64 m' o v01 v10 s := by
  simp only [iter64, loadU64_congr (off := o) h (by omega), loadU64_congr (off := o + 8) h (by omega)]

theorem loop64_congr {m m' : Input} {L : Nat} (h : AgreeOn L m m') (v01 v10 : Word) (s : Word × Word) :
    ∀ n, 16 * n ≤ L → loop64 m v01 v10 s n = loop64 m' v01 v10 s n
  | 0, _ => rfl
  | n + 1, hle => by
    rw [loop64, loop64, loop64_congr h v01 v10 s n (by omega), iter64_congr h (by omega)]

theorem tail64_congr {m m' : Input} {L : Nat} (h : AgreeOn L m m') (h16 : 16 < L) :
    tail64 m L = tail64 m' L := pack64_congr h (by omega) le_rfl (by omega)

/-- `hash64` reads nothing but the `L` input bytes (R117, R118). -/
theorem hash64_congr {m m' : Input} {L : Nat} (h : AgreeOn L m m') (seed : Word) :
    hash64 m L seed = hash64 m' L seed := by
  unfold hash64 chunks16
  split
  · rw [short64_congr h ‹_›]
  · dsimp only
    rw [loop64_congr h _ _ _ _ (by omega), tail64_congr h (by omega)]

theorem short32_congr {m m' : Input} {L : Nat} (h : AgreeOn L m m') (h16 : L ≤ 16) :
    short32 m L = short32 m' L := by
  have hmo : L >>> 3 = L / 8 := Nat.shiftRight_eq_div_pow L 3
  unfold short32
  split
  · rw [loadU32_congr (off := 0) h (by omega), loadU32_congr (off := L - 4) h (by omega)]
    split
    · rw [hmo, loadU32_congr (off := 4 * (L / 8)) h (by omega),
        loadU32_congr (off := L - 4 - 4 * (L / 8)) h (by omega)]
    · rfl
  · rw [packBytes_congr 32 h L le_rfl]

theorem iter32_congr {m m' : Input} {L o : Nat} (h : AgreeOn L m m') (hle : o + 16 ≤ L)
    (v01 v10 : Half) (s : Seeds 32) : iter32 m o v01 v10 s = iter32 m' o v01 v10 s := by
  simp only [iter32, loadU32_congr (off := o) h (by omega), loadU32_congr (off := o + 4) h (by omega),
    loadU32_congr (off := o + 8) h (by omega), loadU32_congr (off := o + 12) h (by omega)]

theorem loop32_congr {m m' : Input} {L : Nat} (h : AgreeOn L m m') (v01 v10 : Half) (s : Seeds 32) :
    ∀ n, 16 * n ≤ L → loop32 m v01 v10 s n = loop32 m' v01 v10 s n
  | 0, _ => rfl
  | n + 1, hle => by
    rw [loop32, loop32, loop32_congr h v01 v10 s n (by omega), iter32_congr h (by omega)]

theorem tail32_congr {m m' : Input} {L : Nat} (h : AgreeOn L m m') (h16 : 16 < L) (rem : Nat) :
    tail32 m L rem = tail32 m' L rem := by
  simp only [tail32, loadU32_congr (off := L - 8) h (by omega), loadU32_congr (off := L - 4) h (by omega),
    loadU32_congr (off := L - 16) h (by omega), loadU32_congr (off := L - 12) h (by omega)]

/-- `hash32` reads nothing but the `L` input bytes (R137, R138). -/
theorem hash32_congr {m m' : Input} {L : Nat} (h : AgreeOn L m m') (seed : Half) :
    hash32 m L seed = hash32 m' L seed := by
  unfold hash32 chunks16
  split
  · rw [short32_congr h ‹_›]
  · dsimp only
    rw [loop32_congr h _ _ _ _ (by omega), tail32_congr h (by omega)]

theorem short128_congr {m m' : Input} {L : Nat} (h : AgreeOn L m m') (h16 : L ≤ 16) :
    short128 m L = short128 m' L := by rw [short128, short128, short64_congr h h16]

theorem rotWord_congr {m m' : Input} {L off : Nat} (h : AgreeOn L m m') (hle : off + 8 ≤ L) :
    rotWord m off = rotWord m' off := by rw [rotWord, rotWord, loadU64_congr h hle]

theorem half128_congr {m m' : Input} {L o : Nat} (h : AgreeOn L m m') (hle : o + 32 ≤ L)
    (v01 v10 : Word) (s : Seeds 64) : half128 m o v01 v10 s = half128 m' o v01 v10 s := by
  simp only [half128, rotWord_congr (off := o) h (by omega), rotWord_congr (off := o + 8) h (by omega),
    rotWord_congr (off := o + 16) h (by omega), rotWord_congr (off := o + 24) h (by omega)]

theorem iter128_congr {m m' : Input} {L o : Nat} (h : AgreeOn L m m') (hle : o + 64 ≤ L)
    (v01 v10 : Word) (s : Seeds8) : iter128 m o v01 v10 s = iter128 m' o v01 v10 s := by
  simp only [iter128, half128_congr (o := o) h (by omega), half128_congr (o := o + 32) h (by omega)]

theorem loop128_congr {m m' : Input} {L : Nat} (h : AgreeOn L m m') (v01 v10 : Word) (s : Seeds8) :
    ∀ n, 64 * n ≤ L → loop128 m v01 v10 s n = loop128 m' v01 v10 s n
  | 0, _ => rfl
  | n + 1, hle => by
    rw [loop128, loop128, loop128_congr h v01 v10 s n (by omega), iter128_congr h (by omega)]

theorem processTail32_congr {m m' : Input} {L o : Nat} (h : AgreeOn L m m') (hle : o + 32 ≤ L)
    (v01 v10 : Word) (s : Seeds 64) :
    processTail32 m o v01 v10 s = processTail32 m' o v01 v10 s := by
  simp only [processTail32, rotWord_congr (off := o) h (by omega),
    rotWord_congr (off := o + 8) h (by omega), rotWord_congr (off := o + 16) h (by omega),
    rotWord_congr (off := o + 24) h (by omega)]

theorem tail128_congr {m m' : Input} {L rem : Nat} (h : AgreeOn L m m') (h16 : 16 < L)
    (hrem : rem ≤ L) : tail128 m L rem = tail128 m' L rem := by
  unfold tail128
  rw [pack64_congr (o := L - 16) h (by omega) le_rfl (by omega)]
  split
  · rw [pack64_congr (o := L - rem) h (by omega) le_rfl (by omega)]
  · rfl

theorem folded128_congr {m m' : Input} {L : Nat} (h : AgreeOn L m m') (v01 v10 : Word) (s : Seeds 64) :
    folded128 m L v01 v10 s = folded128 m' L v01 v10 s := by
  unfold folded128 chunks64
  split
  · rw [loop128_congr h _ _ _ _ (by omega)]
  · rfl

/-- `hash128_ref` reads nothing but the `L` input bytes (R158, R159). -/
theorem hash128Ref_congr {m m' : Input} {L : Nat} (h : AgreeOn L m m') (seed : Word) :
    hash128Ref m L seed = hash128Ref m' L seed := by
  unfold hash128Ref
  split
  · rw [short128_congr h ‹_›]
  · simp only []
    have ho : 64 * chunks64 L ≤ L := by unfold chunks64; omega
    split
    · rw [folded128_congr h, processTail32_congr h (by omega), tail128_congr h (by omega) (by omega)]
    · rw [folded128_congr h, tail128_congr h (by omega) (by omega)]

/-- `hash128` reads nothing but the `L` input bytes (R159, R160 law 2). -/
theorem hash128_congr {m m' : Input} {L : Nat} (h : AgreeOn L m m') (seed : Word) :
    hash128 m L seed = hash128 m' L seed := by
  unfold hash128
  split
  · exact hash128Ref_congr h seed
  · rw [bytesOf_congr h]

end Sys2Proof.Machine
end

