-- ==== Sys2Proof/Laws/Sequencer.lean ====
section
/-! SUPPORT. The sequencer computes the digest (spec/10_state.md R26; spec/45_commands.md R181): each step
keeps the place (`Placed`) and the register contents (`Tracks`) that the rules of the mixers give, and at
the finalizer they are the digest. -/

namespace Sys2Proof.Machine

/-! ### Registers -/

section Lanes
variable {w : Nat} (l : Lanes w)

@[simp] theorem Lanes.words_setWords (x : Words w) : (l.setWords x).words = x := by
  obtain ⟨a, b, cd⟩ := x
  cases cd <;> rfl

@[simp] theorem Lanes.seeds_setWords (x : Words w) : (l.setWords x).seeds = l.seeds := by
  obtain ⟨a, b, cd⟩ := x
  cases cd <;> rfl

@[simp] theorem Lanes.val01_setWords (x : Words w) : (l.setWords x).val01 = l.val01 := by
  obtain ⟨a, b, cd⟩ := x
  cases cd <;> rfl

@[simp] theorem Lanes.a_setWords (x : Words w) : (l.setWords x).a = x.a := by
  obtain ⟨a, b, cd⟩ := x
  cases cd <;> rfl

@[simp] theorem Lanes.b_setWords (x : Words w) : (l.setWords x).b = x.b := by
  obtain ⟨a, b, cd⟩ := x
  cases cd <;> rfl

@[simp] theorem Lanes.seed1_setWords (x : Words w) : (l.setWords x).seed1 = l.seed1 := by
  obtain ⟨a, b, cd⟩ := x
  cases cd <;> rfl

@[simp] theorem Lanes.seed2_setWords (x : Words w) : (l.setWords x).seed2 = l.seed2 := by
  obtain ⟨a, b, cd⟩ := x
  cases cd <;> rfl

@[simp] theorem Lanes.seeds_setSeeds (s : Seeds w) : (l.setSeeds s).seeds = s := rfl
@[simp] theorem Lanes.val01_setSeeds (s : Seeds w) : (l.setSeeds s).val01 = l.val01 := rfl
@[simp] theorem Lanes.val10_setSeeds (s : Seeds w) : (l.setSeeds s).val10 = l.val10 := rfl
@[simp] theorem Lanes.seeds_setMasks (m n : BitVec w) : (l.setMasks m n).seeds = l.seeds := rfl
@[simp] theorem Lanes.val01_setMasks (m n : BitVec w) : (l.setMasks m n).val01 = m := rfl
@[simp] theorem Lanes.val10_setMasks (m n : BitVec w) : (l.setMasks m n).val10 = n := rfl
@[simp] theorem Lanes.seeds_xorMasks : l.xorMasks.seeds = l.seeds := rfl
@[simp] theorem Lanes.val01_xorMasks : l.xorMasks.val01 = l.val01 ^^^ l.seeds.seed1 := rfl
@[simp] theorem Lanes.val10_xorMasks : l.xorMasks.val10 = l.val10 ^^^ l.seeds.seed2 := rfl

end Lanes

/-! ### Lengths -/

theorem chunks16_eq {L p rem : Nat} (h : p + rem = L) (hd : 16 ∣ p) (h0 : 0 < rem) (h1 : rem ≤ 16) :
    p / 16 = chunks16 L := by unfold chunks16; omega

/-! ### The 64-bit variant -/

theorem tracks64_step {j : Job} {d : Datapath} (hx : j.mixer = .m64) (hs : d.stage ≠ .final)
    (hp : Placed j d) (h : Tracks64 j d) : Tracks64 j (step64 j d) := by
  cases hst : d.stage <;> simp only [Placed, hst, hx, chunkSize, tailSize] at hp <;>
    simp only [Tracks64, hst] at h <;> simp only [step64, hst]
  case init => simp only [Tracks64]; exact ⟨rfl, rfl, rfl⟩
  case dispatch =>
    obtain ⟨h12, h01, h10⟩ := h
    have h1 : d.wide.seed1 = (init64 j.nbytes j.seed).1 := congrArg Prod.fst h12
    have h2 : d.wide.seed2 = (init64 j.nbytes j.seed).2 := congrArg Prod.snd h12
    split
    · simp only [Tracks64, Lanes.final64, Lanes.a_setWords, Lanes.b_setWords, Lanes.seed1_setWords,
        Lanes.seed2_setWords, Lanes.val01_setWords, hash64]
      rw [if_pos ‹_›, h01, h1, h2]
    · simp only [Tracks64, hp.1, Nat.zero_div, loop64, Lanes.xorMasks]
      rw [h01, h10, h1, h2]
      exact ⟨rfl, rfl, rfl⟩
  case loop =>
    obtain ⟨h12, h01, h10⟩ := h
    obtain ⟨_, _, hd, _⟩ := hp
    have h16 : 16 * (d.p / 16) = d.p := Nat.mul_div_cancel' hd
    have hk : (d.p + 16) / 16 = d.p / 16 + 1 := by omega
    have hl : ∀ v01 v10 s, loop64 (j.input 0) v01 v10 s ((d.p + 16) / 16) =
        iter64 (j.input 0) d.p v01 v10 (loop64 (j.input 0) v01 v10 s (d.p / 16)) := by
      intro v01 v10 s
      rw [hk, loop64, h16]
    split
    · simp only [Tracks64, hl, Lanes.setPair, ← h12, h01, h10, and_self]
    · simp only [Tracks64, hl, Lanes.setPair, ← h12, h01, h10, and_self]
  case tail =>
    obtain ⟨h12, h01⟩ := h
    obtain ⟨hL, hpr, hd, h0, h1⟩ := hp
    rw [chunks16_eq hpr hd h0 h1] at h12
    simp only [Tracks64, Lanes.final64, Lanes.a_setWords, Lanes.b_setWords, Lanes.seed1_setWords,
      Lanes.seed2_setWords, Lanes.val01_setWords, hash64]
    rw [if_neg (by omega), ← h12, h01]
  case fold => simp at hp
  case tail32 => simp at hp
  case final => exact absurd hst hs

/-! ### The 32-bit variant, one lane -/

theorem lane_init (j : Job) (m : Input) (p : Nat) (l : Lanes 32) :
    TracksLane j m .dispatch p
      ((l.setSeeds (init32 j.nbytes (seed32Of j.seed))).setMasks Val01_32 Val10_32) :=
  ⟨rfl, rfl, rfl⟩

theorem lane_short {j : Job} {m : Input} {p : Nat} {l : Lanes 32} (hL : j.nbytes ≤ 16)
    (h : TracksLane j m .dispatch p l) (q : Nat) :
    TracksLane j m .final q (l.setWords (short32 m j.nbytes)) := by
  obtain ⟨hs, h01, _⟩ := h
  simp only [TracksLane, Lanes.final32, Lanes.words_setWords, Lanes.seeds_setWords,
    Lanes.val01_setWords, hash32]
  rw [if_pos hL, hs, h01]

theorem lane_long {j : Job} {m : Input} {p : Nat} {l : Lanes 32}
    (h : TracksLane j m .dispatch p l) : TracksLane j m .loop 0 l.xorMasks := by
  obtain ⟨hs, h01, h10⟩ := h
  refine ⟨(Lanes.seeds_xorMasks l).trans hs, ?_, ?_⟩
  · rw [Lanes.val01_xorMasks, hs, h01]
  · rw [Lanes.val10_xorMasks, hs, h10]

theorem lane_loop {j : Job} {m : Input} {p : Nat} {l : Lanes 32} (hd : 16 ∣ p)
    (h : TracksLane j m .loop p l) :
    TracksLane j m .loop (p + 16) (l.setSeeds (iter32 m p l.val01 l.val10 l.seeds)) := by
  obtain ⟨hs, h01, h10⟩ := h
  have h16 : 16 * (p / 16) = p := Nat.mul_div_cancel' hd
  have hk : (p + 16) / 16 = p / 16 + 1 := by omega
  refine ⟨?_, by rw [Lanes.val01_setSeeds, h01], by rw [Lanes.val10_setSeeds, h10]⟩
  rw [hk, loop32, h16, Lanes.seeds_setSeeds, hs, h01, h10]

theorem lane_tail_of_loop {j : Job} {m : Input} {p : Nat} {l : Lanes 32}
    (h : TracksLane j m .loop p l) : TracksLane j m .tail p l := ⟨h.1, h.2.1⟩

theorem lane_tail {j : Job} {m : Input} {p rem : Nat} {l : Lanes 32} (hL : 16 < j.nbytes)
    (hpr : p + rem = j.nbytes) (hd : 16 ∣ p) (h0 : 0 < rem) (h1 : rem ≤ 16)
    (h : TracksLane j m .tail p l) (q : Nat) :
    TracksLane j m .final q (l.setWords (tail32 m j.nbytes rem)) := by
  obtain ⟨hs, h01⟩ := h
  have hc := chunks16_eq hpr hd h0 h1
  have hr : j.nbytes - 16 * chunks16 j.nbytes = rem := by omega
  rw [hc] at hs
  simp only [TracksLane, Lanes.final32, Lanes.words_setWords, Lanes.seeds_setWords,
    Lanes.val01_setWords, hash32]
  rw [if_neg (by omega), hr, hs, h01]

/-- The lanes in use all satisfy a property of a lane and its input. -/
def OnLanes (j : Job) (P : Input → Lanes 32 → Prop) (d : Datapath) : Prop :=
  match j.mixer with
  | .m32x4 => P (j.input 0) d.lane0 ∧ P (j.input 1) d.lane1 ∧ P (j.input 2) d.lane2 ∧ P (j.input 3) d.lane3
  | _ => P (j.input 0) d.lane0

theorem onLanes_map {j : Job} {P Q : Input → Lanes 32 → Prop} {f : Input → Lanes 32 → Lanes 32}
    {d e : Datapath} (hf : ∀ m l, P m l → Q m (f m l)) (h : OnLanes j P d)
    (h0 : e.lane0 = (d.mapLanes j f).lane0) (h1 : e.lane1 = (d.mapLanes j f).lane1)
    (h2 : e.lane2 = (d.mapLanes j f).lane2) (h3 : e.lane3 = (d.mapLanes j f).lane3) :
    OnLanes j Q e := by
  unfold OnLanes at h ⊢
  unfold Datapath.mapLanes at h0 h1 h2 h3
  cases hx : j.mixer <;> simp only [hx] at h h0 h1 h2 h3 ⊢
  case m32x4 =>
    rw [h0, h1, h2, h3]
    exact ⟨hf _ _ h.1, hf _ _ h.2.1, hf _ _ h.2.2.1, hf _ _ h.2.2.2⟩
  all_goals
    rw [h0]
    exact hf _ _ h

/-- What `Tracks` says of a 32-bit operation. -/
theorem tracks_iff_onLanes {j : Job} {d : Datapath} (hx : j.mixer = .m32 ∨ j.mixer = .m32x4) :
    Tracks j d ↔ OnLanes j (fun m l => TracksLane j m d.stage d.p l) d := by
  unfold Tracks OnLanes
  rcases hx with hx | hx <;> simp only [hx]

theorem tracks32_step {j : Job} {d : Datapath} (hx : j.mixer = .m32 ∨ j.mixer = .m32x4)
    (hs : d.stage ≠ .final) (hp : Placed j d) (h : Tracks j d) : Tracks j (step32 j d) := by
  rw [tracks_iff_onLanes hx] at h ⊢
  have hc : chunkSize j.mixer = 16 := by rcases hx with hx | hx <;> rw [hx] <;> rfl
  have ht : tailSize j.mixer = 16 := by rcases hx with hx | hx <;> rw [hx] <;> rfl
  have hn : j.mixer ≠ .m128 := by rcases hx with hx | hx <;> rw [hx] <;> decide
  cases hst : d.stage <;> simp only [Placed, hst, hc, ht] at hp <;> simp only [hst] at h <;>
    simp only [step32, hst]
  case init =>
    exact onLanes_map (P := fun _ _ => True) (fun m l _ => lane_init j m 0 l)
      (by unfold OnLanes; cases j.mixer <;> simp) rfl rfl rfl rfl
  case dispatch =>
    split
    · exact onLanes_map (fun m l hl => lane_short ‹_› hl _) h rfl rfl rfl rfl
    · have h' := onLanes_map (e := { d.mapLanes j (fun _ l => l.xorMasks) with stage := .loop })
        (fun m l hl => lane_long hl) h rfl rfl rfl rfl
      have hp0 : (d.mapLanes j (fun _ l => l.xorMasks)).p = 0 := by
        unfold Datapath.mapLanes; split <;> exact hp.1
      simpa only [hp0] using h'
  case loop =>
    obtain ⟨_, _, hd, _⟩ := hp
    split
    · exact onLanes_map (fun m l hl => lane_tail_of_loop (lane_loop hd hl)) h rfl rfl rfl rfl
    · exact onLanes_map (fun m l hl => lane_loop hd hl) h rfl rfl rfl rfl
  case tail =>
    obtain ⟨hL, hpr, hd, h0, h1⟩ := hp
    exact onLanes_map (fun m l hl => lane_tail hL hpr hd h0 h1 hl _) h rfl rfl rfl rfl
  case fold => exact absurd hp.1 hn
  case tail32 => exact absurd hp.1 hn
  case final => exact absurd hst hs

/-! ### The 128-bit variant -/

/-- The eight seed registers after both halves were written. -/
theorem regs_setEight (d : Datapath) (w : Lanes 64) (hi : Seeds 64) (p rem : Nat) (st : Stage) :
    (⟨({ d.setUpper hi with wide := w, p := p, rem := rem, stage := st } : Datapath).wide.seeds,
      ({ d.setUpper hi with wide := w, p := p, rem := rem, stage := st } : Datapath).upper⟩ : Seeds8) =
      ⟨w.seeds, hi⟩ := rfl

theorem tracks128_step {j : Job} {d : Datapath} (hx : j.mixer = .m128) (hs : d.stage ≠ .final)
    (hp : Placed j d) (h : Tracks128 j d) : Tracks128 j (step128 j d) := by
  cases hst : d.stage <;> simp only [Placed, hst, hx, chunkSize, tailSize] at hp <;>
    simp only [Tracks128, hst] at h <;> simp only [step128, hst]
  case init => simp only [Tracks128]; exact ⟨rfl, rfl, rfl⟩
  case dispatch =>
    obtain ⟨hsd, h01, h10⟩ := h
    by_cases hL : j.nbytes ≤ 16
    · simp only [if_pos hL, Tracks128, Lanes.final128, Lanes.words_setWords, Lanes.seeds_setWords,
        Lanes.val01_setWords, hash128Ref, hsd, h01]
    · rw [if_neg hL]
      by_cases h64 : 64 < j.nbytes
      · rw [if_pos h64]
        refine ⟨?_, ?_, ?_, h64⟩
        · refine (regs_setEight d _ _ _ _ _).trans ?_
          rw [Lanes.seeds_xorMasks, hsd]
          simp only [Datapath.setUpper, hp.1, Nat.zero_div, loop128]
        · simp only [Lanes.val01_xorMasks, hsd, h01]
        · simp only [Lanes.val10_xorMasks, hsd, h10]
      · rw [if_neg h64]
        have hf : ∀ v01 v10 s, folded128 (j.input 0) j.nbytes v01 v10 s = s := by
          intro v01 v10 s
          rw [folded128, if_neg h64]
        have hc : chunks64 j.nbytes = 0 := by unfold chunks64; omega
        split
        · refine ⟨?_, ?_, ?_⟩
          · rw [hf]; exact (Lanes.seeds_xorMasks d.wide).trans hsd
          · simp only [Lanes.val01_xorMasks, hsd, h01]
          · simp only [Lanes.val10_xorMasks, hsd, h10]
        · refine ⟨?_, ?_⟩
          · simp only [Lanes.val01_xorMasks, hsd, h01]
          · rw [hf, hc, if_pos hp.1]; exact (Lanes.seeds_xorMasks d.wide).trans hsd
  case loop =>
    obtain ⟨hsd, h01, h10, h64⟩ := h
    obtain ⟨_, _, hd, _⟩ := hp
    have hq : 64 * (d.p / 64) = d.p := Nat.mul_div_cancel' hd
    have hk : (d.p + 64) / 64 = d.p / 64 + 1 := by omega
    have hl : ∀ v01 v10 s, loop128 (j.input 0) v01 v10 s ((d.p + 64) / 64) =
        iter128 (j.input 0) d.p v01 v10 (loop128 (j.input 0) v01 v10 s (d.p / 64)) := by
      intro v01 v10 s
      rw [hk, loop128, hq]
    have hreg : ∀ st, (⟨_, _⟩ : Seeds8) = _ := fun st =>
      (regs_setEight d (d.wide.setSeeds (iter128 (j.input 0) d.p d.wide.val01 d.wide.val10
        ⟨d.wide.seeds, d.upper⟩).lo) (iter128 (j.input 0) d.p d.wide.val01 d.wide.val10
        ⟨d.wide.seeds, d.upper⟩).hi (d.p + 64) (d.rem - 64) st).trans
        (congrArg (fun s => (⟨s, _⟩ : Seeds8)) (Lanes.seeds_setSeeds d.wide _))
    have hnew : iter128 (j.input 0) d.p d.wide.val01 d.wide.val10 ⟨d.wide.seeds, d.upper⟩ =
        loop128 (j.input 0) (Val01 ^^^ (init128 j.nbytes j.seed).seed1)
          (Val10 ^^^ (init128 j.nbytes j.seed).seed2) ⟨init128 j.nbytes j.seed, quartet⟩
          ((d.p + 64) / 64) := by
      rw [hl, ← hsd, h01, h10]
    split
    · exact ⟨(hreg _).trans hnew, (Lanes.val01_setSeeds d.wide _).trans h01,
        (Lanes.val10_setSeeds d.wide _).trans h10⟩
    · exact ⟨(hreg _).trans hnew, (Lanes.val01_setSeeds d.wide _).trans h01,
        (Lanes.val10_setSeeds d.wide _).trans h10, h64⟩
  case fold =>
    obtain ⟨hsd, h01, h10⟩ := h
    obtain ⟨_, h64, hpr, hd, h0, h1⟩ := hp
    have hc : d.p / 64 = chunks64 j.nbytes := by unfold chunks64; omega
    rw [hc] at hsd
    have hf : ∀ v01 v10 s, folded128 (j.input 0) j.nbytes v01 v10 s =
        fold128 (loop128 (j.input 0) v01 v10 ⟨s, quartet⟩ (chunks64 j.nbytes)) := by
      intro v01 v10 s
      rw [folded128, if_pos h64]
    split
    · refine ⟨?_, by rw [Lanes.val01_setSeeds, h01], by rw [Lanes.val10_setSeeds, h10]⟩
      rw [hf, ← hsd, Lanes.seeds_setSeeds]
    · refine ⟨by rw [Lanes.val01_setSeeds, h01], ?_⟩
      rw [if_pos (show d.p = 64 * chunks64 j.nbytes by omega), hf, ← hsd, Lanes.seeds_setSeeds]
  case tail32 =>
    obtain ⟨hsd, h01, h10⟩ := h
    obtain ⟨_, _, hpr, hd, h0, h1⟩ := hp
    have hc : d.p = 64 * chunks64 j.nbytes := by unfold chunks64; omega
    refine ⟨by rw [Lanes.val01_setSeeds, h01], ?_⟩
    rw [if_neg (show ¬ d.p + 32 = 64 * chunks64 j.nbytes by omega), ← hc, ← hsd]
    simp only [Lanes.seeds_setSeeds, h01, h10]
  case tail =>
    obtain ⟨h01, hsd⟩ := h
    obtain ⟨hL, hpr, hd, h0, h1⟩ := hp
    simp only [Tracks128, Lanes.final128, Lanes.words_setWords, Lanes.seeds_setWords,
      Lanes.val01_setWords, hash128Ref]
    rw [if_neg (by omega), hsd, h01]
    by_cases hc : d.p = 64 * chunks64 j.nbytes
    · rw [if_pos hc, if_neg (by omega)]
      rw [show j.nbytes - 64 * chunks64 j.nbytes = d.rem by omega]
    · have hc' : d.p = 64 * chunks64 j.nbytes + 32 := by
        unfold chunks64 at hc ⊢
        omega
      rw [if_neg hc, if_pos (by omega)]
      rw [show j.nbytes - 64 * chunks64 j.nbytes - 32 = d.rem by omega]
  case final => exact absurd hst hs

/-! ### Every operation -/

/-- Before the seed init the registers may hold anything. -/
theorem tracks_of_init {j : Job} {d : Datapath} (h : d.stage = .init) : Tracks j d := by
  unfold Tracks
  cases j.mixer <;> simp only [Tracks64, Tracks128, TracksLane, h, and_self]

/-- One sequencer step keeps what the registers hold. -/
theorem tracks_advance {j : Job} {d : Datapath} (hs : d.stage ≠ .final) (hp : Placed j d)
    (h : Tracks j d) : Tracks j (j.advance d) := by
  cases hx : j.mixer
  · simpa only [Job.advance, hx] using tracks32_step (.inl hx) hs hp h
  · have h' : Tracks64 j d := by simpa only [Tracks, hx] using h
    simpa only [Job.advance, Tracks, hx] using tracks64_step hx hs hp h'
  · have h' : Tracks128 j d := by simpa only [Tracks, hx] using h
    simpa only [Job.advance, Tracks, hx] using tracks128_step hx hs hp h'
  · simpa only [Job.advance, hx] using tracks32_step (.inr hx) hs hp h

/-- At the finalizer the registers give the operation's digest. -/
theorem result_eq_digest {j : Job} {d : Datapath} (hs : d.stage = .final) (h : Tracks j d) :
    j.result d = j.digest := by
  cases hx : j.mixer <;>
    simp only [Tracks, hx, TracksLane, Tracks64, Tracks128, hs] at h <;>
    simp only [Job.result, Job.digest, hx, Job.hash32Lane]
  · rw [h]
  · rw [h]
  · unfold hash128
    split
    · rw [h]
    · rfl
  · rw [h.1, h.2.1, h.2.2.1, h.2.2.2]

/-- How far the finalizer is: an upper bound on the sequencer steps left before it. -/
def stepsLeft (j : Job) (d : Datapath) : Nat :=
  match d.stage with
  | .init => j.nbytes + 5
  | .dispatch => j.nbytes + 4
  | .loop => d.rem + 3
  | .fold => 3
  | .tail32 => 2
  | .tail => 1
  | .final => 0

theorem stepsLeft_le {j : Job} {d : Datapath} (h : Placed j d) : stepsLeft j d ≤ j.nbytes + 5 := by
  cases hst : d.stage <;> simp only [Placed, stepsLeft, hst] at h ⊢ <;> omega

@[simp] theorem Datapath.mapLanes_p (j : Job) (f) (d : Datapath) : (d.mapLanes j f).p = d.p := by
  unfold Datapath.mapLanes; split <;> rfl
@[simp] theorem Datapath.mapLanes_rem (j : Job) (f) (d : Datapath) : (d.mapLanes j f).rem = d.rem := by
  unfold Datapath.mapLanes; split <;> rfl

theorem step16_placed {j : Job} {d e : Datapath} (hc : chunkSize j.mixer = 16)
    (ht : tailSize j.mixer = 16) (hn : j.mixer ≠ .m128) (hs : d.stage ≠ .final) (hp : Placed j d)
    (hi : d.stage = .init → e.p = 0 ∧ e.rem = j.nbytes ∧ e.stage = .dispatch)
    (hd : d.stage = .dispatch → e.p = d.p ∧ e.rem = d.rem ∧
      e.stage = if j.nbytes ≤ 16 then .final else .loop)
    (hl : d.stage = .loop → e.p = d.p + 16 ∧ e.rem = d.rem - 16 ∧
      e.stage = if d.rem - 16 ≤ 16 then .tail else .loop)
    (hf : d.stage = .tail → e.stage = .final) :
    Placed j e ∧ stepsLeft j e < stepsLeft j d := by
  cases hst : d.stage <;> simp only [Placed, hst, hc, ht] at hp
  case init =>
    obtain ⟨h1, h2, h3⟩ := hi hst
    simp only [Placed, stepsLeft, h3, hst]
    exact ⟨⟨h1, h2⟩, by omega⟩
  case dispatch =>
    obtain ⟨h1, h2, h3⟩ := hd hst
    split at h3
    · simp only [Placed, stepsLeft, h3, hst]
      exact ⟨trivial, by omega⟩
    · simp only [Placed, stepsLeft, h3, hst, hc]
      refine ⟨⟨by omega, by omega, ?_, by omega⟩, by omega⟩
      rw [h1, hp.1]; exact dvd_zero 16
  case loop =>
    obtain ⟨h1, h2, h3⟩ := hl hst
    split at h3
    · simp only [Placed, stepsLeft, h3, hst, ht]
      exact ⟨⟨by omega, by omega, by omega, by omega, by omega⟩, by omega⟩
    · simp only [Placed, stepsLeft, h3, hst, hc]
      exact ⟨⟨by omega, by omega, by omega, by omega⟩, by omega⟩
  case tail =>
    simp only [Placed, stepsLeft, hf hst, hst]
    exact ⟨trivial, by omega⟩
  case fold => exact absurd hp.1 hn
  case tail32 => exact absurd hp.1 hn
  case final => exact absurd hst hs

theorem step128_placed {j : Job} {d : Datapath} (hx : j.mixer = .m128) (hs : d.stage ≠ .final)
    (hp : Placed j d) : Placed j (step128 j d) ∧ stepsLeft j (step128 j d) < stepsLeft j d := by
  cases hst : d.stage <;> simp only [Placed, hst, hx, chunkSize, tailSize] at hp <;>
    simp only [step128, hst]
  case init =>
    simp only [Placed, stepsLeft, hst]
    exact ⟨⟨trivial, trivial⟩, by omega⟩
  case dispatch =>
    by_cases hL : j.nbytes ≤ 16
    · simp only [if_pos hL, Placed, stepsLeft, hst]
      exact ⟨trivial, by omega⟩
    · rw [if_neg hL]
      by_cases h64 : 64 < j.nbytes
      · simp only [if_pos h64, Placed, stepsLeft, hst, hx, chunkSize, Datapath.setUpper]
        exact ⟨⟨by omega, by omega, by omega, by omega⟩, by omega⟩
      · rw [if_neg h64]
        by_cases h32 : 32 < j.nbytes
        · simp only [if_pos h32, Placed, stepsLeft, hst, hx]
          exact ⟨⟨trivial, by omega, by omega, by omega, by omega, by omega⟩, by omega⟩
        · simp only [if_neg h32, Placed, stepsLeft, hst, hx, tailSize]
          exact ⟨⟨by omega, by omega, by omega, by omega, by omega⟩, by omega⟩
  case loop =>
    by_cases hr : d.rem - 64 ≤ 64
    · simp only [if_pos hr, Placed, stepsLeft, hst, hx]
      exact ⟨⟨trivial, by omega, by omega, by omega, by omega, by omega⟩, by omega⟩
    · simp only [if_neg hr, Placed, stepsLeft, hst, hx, chunkSize]
      exact ⟨⟨by omega, by omega, by omega, by omega⟩, by omega⟩
  case fold =>
    by_cases hr : 32 < d.rem
    · simp only [if_pos hr, Placed, stepsLeft, hst, hx]
      exact ⟨⟨trivial, by omega, by omega, by omega, by omega, by omega⟩, by omega⟩
    · simp only [if_neg hr, Placed, stepsLeft, hst, hx, tailSize]
      exact ⟨⟨by omega, by omega, by omega, by omega, by omega⟩, by omega⟩
  case tail32 =>
    simp only [Placed, stepsLeft, hst, hx, tailSize]
    exact ⟨⟨by omega, by omega, by omega, by omega, by omega⟩, by omega⟩
  case tail =>
    simp only [Placed, stepsLeft, hst]
    exact ⟨trivial, by omega⟩
  case final => exact absurd hst hs

theorem step64_placed {j : Job} {d : Datapath} (hx : j.mixer = .m64) (hs : d.stage ≠ .final)
    (hp : Placed j d) : Placed j (step64 j d) ∧ stepsLeft j (step64 j d) < stepsLeft j d := by
  refine step16_placed (by rw [hx]; rfl) (by rw [hx]; rfl) (by rw [hx]; decide) hs hp ?_ ?_ ?_ ?_ <;>
    intro hst <;> simp only [step64, hst]
  · exact ⟨trivial, trivial, trivial⟩
  · split <;> exact ⟨rfl, rfl, rfl⟩
  · exact ⟨trivial, trivial, trivial⟩

theorem step32_placed {j : Job} {d : Datapath} (hx : j.mixer = .m32 ∨ j.mixer = .m32x4)
    (hs : d.stage ≠ .final) (hp : Placed j d) :
    Placed j (step32 j d) ∧ stepsLeft j (step32 j d) < stepsLeft j d := by
  refine step16_placed (by rcases hx with hx | hx <;> rw [hx] <;> rfl)
    (by rcases hx with hx | hx <;> rw [hx] <;> rfl)
    (by rcases hx with hx | hx <;> rw [hx] <;> decide) hs hp ?_ ?_ ?_ ?_ <;>
    intro hst <;> simp only [step32, hst]
  · exact ⟨trivial, trivial, trivial⟩
  · split <;> simp
  · exact ⟨trivial, trivial, trivial⟩

/-- One sequencer step keeps the place legal and comes nearer to the finalizer. -/
theorem placed_advance {j : Job} {d : Datapath} (hs : d.stage ≠ .final) (hp : Placed j d) :
    Placed j (j.advance d) ∧ stepsLeft j (j.advance d) < stepsLeft j d := by
  cases hx : j.mixer <;> simp only [Job.advance, hx]
  · exact step32_placed (.inl hx) hs hp
  · exact step64_placed hx hs hp
  · exact step128_placed hx hs hp
  · exact step32_placed (.inr hx) hs hp

end Sys2Proof.Machine
end

