-- ==== Sys2Proof/Laws/Run.lean ====
section
/-! SUPPORT. The core on its own (spec/45_commands.md R181; spec/70_reset_and_hazards.md R243, R248): what
one sequencer step can do, and that every operation in RUN completes, with its digest unless the host
broke R50. -/

namespace Sys2Proof.Machine

@[simp] theorem andThen_next (s : State) (k : State → Host.Outcome State Fault Refusal) :
    andThen (.next s) k = k s := rfl

/-- A step after another answers a next state only if both do. -/
theorem andThen_eq_next {o : Host.Outcome State Fault Refusal}
    {k : State → Host.Outcome State Fault Refusal} {u : State} :
    andThen o k = .next u ↔ ∃ t, o = .next t ∧ k t = .next u := by
  cases o <;> simp [andThen]

theorem coreStep_idle {s : State} (h : s.phase ≠ .run) : coreStep s = .next s := by
  unfold coreStep
  cases hp : s.phase <;> simp_all

/-- One sequencer step of an operation in RUN whose window lies in IN. -/
theorem coreStep_run {s : State} {i : Instr} (hp : s.phase = .run) (hi : decode s.opr.op = .ok i)
    (hb : (jobOf i s.opr s.mem).inBounds s.opr s.mem = true) :
    coreStep s = if s.dp.stage = .final then .next (s.finish (jobOf i s.opr s.mem))
      else .next (s.setDp ((jobOf i s.opr s.mem).advance s.dp)) := by
  unfold coreStep
  simp only [hp, hi]
  rw [if_pos hb]

/-- Everything one sequencer step can answer when it answers a next state. -/
theorem coreStep_cases {s t : State} (h : coreStep s = .next t) :
    (s.phase ≠ .run ∧ t = s) ∨
    ∃ i, s.phase = .run ∧ decode s.opr.op = .ok i ∧
      (jobOf i s.opr s.mem).inBounds s.opr s.mem = true ∧
      ((s.dp.stage = .final ∧ t = s.finish (jobOf i s.opr s.mem)) ∨
       (s.dp.stage ≠ .final ∧ t = s.setDp ((jobOf i s.opr s.mem).advance s.dp))) := by
  by_cases hp : s.phase = .run
  · right
    unfold coreStep at h
    simp only [hp] at h
    cases hd : decode s.opr.op with
    | error e => simp [hd] at h
    | ok i =>
      simp only [hd] at h
      by_cases hb : (jobOf i s.opr s.mem).inBounds s.opr s.mem = true
      · rw [if_pos hb] at h
        refine ⟨i, hp, rfl, hb, ?_⟩
        by_cases hs : s.dp.stage = .final
        · rw [if_pos hs] at h
          exact .inl ⟨hs, (Host.Outcome.next.inj h).symm⟩
        · rw [if_neg hs] at h
          exact .inr ⟨hs, (Host.Outcome.next.inj h).symm⟩
      · rw [if_neg hb] at h
        exact absurd h (by simp)
  · rw [coreStep_idle hp] at h
    exact .inl ⟨hp, (Host.Outcome.next.inj h).symm⟩

theorem coreRun_idle {s : State} (h : s.phase ≠ .run) : ∀ n, coreRun n s = .next s
  | 0 => rfl
  | n + 1 => by rw [coreRun, coreStep_idle h, andThen_next, coreRun_idle h n]

theorem coreRun_succ_of_step {s t : State} (h : coreStep s = .next t) (n : Nat) :
    coreRun (n + 1) s = coreRun n t := by rw [coreRun, h, andThen_next]

/-- `a + b` sequencer steps are `a` and then `b`. -/
theorem coreRun_add (b : Nat) : ∀ (a : Nat) (s : State),
    coreRun (a + b) s = andThen (coreRun a s) (coreRun b)
  | 0, s => by simp [coreRun]
  | a + 1, s => by
    rw [Nat.add_right_comm, coreRun, coreRun]
    cases coreStep s with
    | next t => simpa using coreRun_add b a t
    | fault r => rfl
    | refused r => rfl

/-- The completion step without a hazard writes the finalizer's result. -/
theorem finish_of_no_hazard {s : State} (j : Job) (h : s.hazard = false) :
    s.finish j = completedState s (j.result s.dp) s.dp := by
  simp [State.finish, h, State.complete, Status.completed, completedState]

/-- The completion step after the host broke R50 writes any value. -/
theorem finish_of_hazard {s : State} (j : Job) (h : s.hazard = true) :
    s.finish j = { completedState s (freeDigest j.mixer s.draws) s.dp with draws := s.draws + 4 } := by
  simp [State.finish, h, State.complete, Status.completed, completedState]

/-- An operation at its finalizer completes with its digest in one step. -/
theorem completes_at_final {i : Instr} {s : State} (hp : s.phase = .run)
    (hi : decode s.opr.op = .ok i) (hb : (jobOf i s.opr s.mem).inBounds s.opr s.mem = true)
    (hz : s.hazard = false) (hs : s.dp.stage = .final) (ht : Tracks (jobOf i s.opr s.mem) s.dp) :
    CompletesWith s (jobOf i s.opr s.mem).digest := by
  have hstep := coreStep_run hp hi hb
  rw [if_pos hs, finish_of_no_hazard _ hz, result_eq_digest hs ht] at hstep
  refine ⟨0, s.dp, (coreRun_succ_of_step hstep 0).trans rfl, fun k hk => ⟨s.dp, ?_⟩⟩
  rw [Nat.le_zero.mp hk]
  rfl

/-- An operation at a legal place, its window in IN, its registers as the rules give them and no byte of
its window written, completes with its digest. -/
theorem completes_of_tracks {i : Instr} {s : State} (hp : s.phase = .run)
    (hi : decode s.opr.op = .ok i) (hb : (jobOf i s.opr s.mem).inBounds s.opr s.mem = true)
    (hz : s.hazard = false) (hpl : Placed (jobOf i s.opr s.mem) s.dp)
    (ht : Tracks (jobOf i s.opr s.mem) s.dp) : CompletesWith s (jobOf i s.opr s.mem).digest := by
  obtain ⟨r, hr⟩ : ∃ r, stepsLeft (jobOf i s.opr s.mem) s.dp ≤ r := ⟨_, le_rfl⟩
  induction r generalizing s with
  | zero =>
    have hs : s.dp.stage = .final := by
      cases hst : s.dp.stage <;> simp only [stepsLeft, hst] at hr <;> first | rfl | omega
    exact completes_at_final hp hi hb hz hs ht
  | succ r ih =>
    by_cases hs : s.dp.stage = .final
    · exact completes_at_final hp hi hb hz hs ht
    · have hstep := coreStep_run hp hi hb
      rw [if_neg hs] at hstep
      have hadv := placed_advance hs hpl
      obtain ⟨n, e, hn, hk⟩ := ih (s := s.setDp ((jobOf i s.opr s.mem).advance s.dp)) hp hi hb hz
        hadv.1 (tracks_advance hs hpl ht)
        (by simp only [State.setDp_opr, State.setDp_mem, State.setDp_dp]; omega)
      refine ⟨n + 1, e, ?_, fun k hk' => ?_⟩
      · rw [coreRun_succ_of_step hstep]
        exact hn
      · cases k with
        | zero => exact ⟨s.dp, rfl⟩
        | succ k =>
          obtain ⟨e', he'⟩ := hk k (by omega)
          exact ⟨e', (coreRun_succ_of_step hstep k).trans he'⟩

/-- A command taken in a state where its window fits completes with the digest of the operands latched. -/
theorem started_completes {i : Instr} {s : State} (hf : commandFits i s = true) :
    CompletesWith (startedState i s) (jobOf i (latchedOpr (encode i) s) s.mem).digest :=
  completes_of_tracks rfl (decode_encode i) hf rfl trivial (tracks_of_init rfl)

/-- A command that comes while the block is idle, its window in IN, is started, and completes with the digest
of the operands latched. -/
theorem exec_completes {i : Instr} {s : State} {r : Res} (hb : s.status.busy = false)
    (hf : WindowFits i s) (hr : (jobOf i (latchedOpr (encode i) s) s.mem).digest = r) :
    exec i s = .next (startedState i s) ∧ CompletesWith (startedState i s) r :=
  have hf' := (commandFits_iff i s).mpr hf
  ⟨exec_fits hb hf', hr ▸ started_completes hf'⟩

/-- The digest words the completion of an operation writes: its digest, or any value after the host broke
R50. -/
def finalWords (i : Instr) (s : State) (r : Res) : Prop :=
  (s.hazard = false → r = (jobOf i s.opr s.mem).digest) ∧
  (s.hazard = true → r = freeDigest (jobOf i s.opr s.mem).mixer s.draws)

/-- Every operation at a legal place completes within `stepsLeft + 1` sequencer steps, hazard or not. -/
theorem finishes_of_placed {i : Instr} : ∀ (r : Nat) (s : State), s.phase = .run →
    decode s.opr.op = .ok i → (jobOf i s.opr s.mem).inBounds s.opr s.mem = true →
    Placed (jobOf i s.opr s.mem) s.dp → stepsLeft (jobOf i s.opr s.mem) s.dp ≤ r →
    ∃ n u, n ≤ r ∧ coreRun (n + 1) s = .next u ∧ u.phase = .doneOk ∧ u.status = s.status.completed := by
  intro r
  induction r with
  | zero =>
    intro s hp hi hb hpl hr
    have hs : s.dp.stage = .final := by
      cases hst : s.dp.stage <;> simp only [stepsLeft, hst] at hr <;> first | rfl | omega
    have hstep := coreStep_run hp hi hb
    rw [if_pos hs] at hstep
    refine ⟨0, _, le_rfl, (coreRun_succ_of_step hstep 0).trans rfl, ?_⟩
    unfold State.finish
    split <;> exact ⟨rfl, rfl⟩
  | succ r ih =>
    intro s hp hi hb hpl hr
    have hstep := coreStep_run hp hi hb
    by_cases hs : s.dp.stage = .final
    · rw [if_pos hs] at hstep
      refine ⟨0, _, Nat.zero_le _, (coreRun_succ_of_step hstep 0).trans rfl, ?_⟩
      unfold State.finish
      split <;> exact ⟨rfl, rfl⟩
    · rw [if_neg hs] at hstep
      have hadv := placed_advance hs hpl
      obtain ⟨n, u, hn, hu, h1, h2⟩ := ih (s.setDp ((jobOf i s.opr s.mem).advance s.dp)) hp hi hb
        hadv.1 (by have := hadv.2; simp only [State.setDp_opr, State.setDp_mem, State.setDp_dp]; omega)
      exact ⟨n + 1, u, by omega, (coreRun_succ_of_step hstep _).trans hu, h1, h2⟩

/-- A sequencer step leaves PHASE alone outside RUN, and from RUN it stays in RUN or goes to DONE_OK (R26). -/
theorem coreStep_phase {s t : State} (h : coreStep s = .next t) :
    (s.phase ≠ .run ∧ t = s) ∨ (s.phase = .run ∧ (t.phase = .run ∨ t.phase = .doneOk)) := by
  rcases coreStep_cases h with ⟨hp, rfl⟩ | ⟨i, hp, _, _, ⟨_, rfl⟩ | ⟨_, rfl⟩⟩
  · exact .inl ⟨hp, rfl⟩
  · refine .inr ⟨hp, .inr ?_⟩
    unfold State.finish
    split <;> rfl
  · exact .inr ⟨hp, .inl hp⟩

theorem coreRun_phase : ∀ (n : Nat) {s t : State}, s.phase = .run → coreRun n s = .next t →
    t.phase = .run ∨ t.phase = .doneOk
  | 0, s, t, hp, h => by
    obtain rfl : s = t := Host.Outcome.next.inj h
    exact .inl hp
  | n + 1, s, t, hp, h => by
    obtain ⟨u, hu, ht⟩ := andThen_eq_next.mp h
    rcases coreStep_phase hu with ⟨h', _⟩ | ⟨_, h' | h'⟩
    · exact absurd hp h'
    · exact coreRun_phase n h' ht
    · rw [coreRun_idle (by rw [h']; decide)] at ht
      obtain rfl := Host.Outcome.next.inj ht
      exact .inr h'

/-- Sequencer steps that bring an operation to DONE_OK clear BUSY, set DONE and leave the rest of STATUS. -/
theorem coreRun_status : ∀ (n : Nat) {s t : State}, s.phase = .run → coreRun n s = .next t →
    t.phase = .doneOk → t.status = s.status.completed
  | 0, s, t, hp, h, hd => by
    obtain rfl : s = t := Host.Outcome.next.inj h
    rw [hp] at hd; cases hd
  | n + 1, s, t, hp, h, hd => by
    obtain ⟨u, hu, ht⟩ := andThen_eq_next.mp h
    rcases coreStep_cases hu with ⟨h', _⟩ | ⟨i, _, _, _, ⟨_, rfl⟩ | ⟨_, rfl⟩⟩
    · exact absurd hp h'
    · have hf : ∀ j, (s.finish j).phase = .doneOk ∧ (s.finish j).status = s.status.completed := fun j => by
        unfold State.finish; split <;> exact ⟨rfl, rfl⟩
      rw [coreRun_idle (by rw [(hf _).1]; decide)] at ht
      obtain rfl := Host.Outcome.next.inj ht
      exact (hf _).2
    · exact coreRun_status n (s := s.setDp ((jobOf i s.opr s.mem).advance s.dp)) hp ht hd

/-- However many sequencer steps bring an operation to DONE_OK, the state is its completed one. -/
theorem eq_completed_of_coreRun {s u : State} {r : Res} {n : Nat} (h : CompletesWith s r)
    (hp : s.phase = .run) (hu : coreRun n s = .next u) (hd : u.phase = .doneOk) :
    ∃ d, u = completedState s r d := by
  obtain ⟨m, d, hm, hk⟩ := h
  rcases Nat.lt_or_ge m n with hn | hn
  · obtain ⟨c, rfl⟩ := Nat.exists_eq_add_of_le hn
    rw [coreRun_add, hm, andThen_next, coreRun_idle (by simp [completedState])] at hu
    exact ⟨d, (Host.Outcome.next.inj hu).symm⟩
  · obtain ⟨e, he⟩ := hk n hn
    rw [he] at hu
    obtain rfl := Host.Outcome.next.inj hu
    exact absurd (hp.symm.trans hd) (by decide)

/-- What a sequencer step leaves alone: everything but STATUS, RES, PHASE, the datapath registers and the
count of drawn words (R202). -/
theorem coreStep_frame {s t : State} (h : coreStep s = .next t) :
    t.seed = s.seed ∧ t.src = s.src ∧ t.len = s.len ∧ t.val0 = s.val0 ∧ t.val1 = s.val1 ∧
      t.val2 = s.val2 ∧ t.val3 = s.val3 ∧ t.opr = s.opr ∧ t.mem = s.mem ∧ t.hazard = s.hazard ∧
      t.script = s.script ∧ t.hostData = s.hostData := by
  rcases coreStep_cases h with ⟨_, rfl⟩ | ⟨i, _, _, _, ⟨_, rfl⟩ | ⟨_, rfl⟩⟩
  · simp
  · unfold State.finish
    split <;> simp
  · simp

theorem coreRun_frame : ∀ (n : Nat) {s t : State}, coreRun n s = .next t →
    t.seed = s.seed ∧ t.src = s.src ∧ t.len = s.len ∧ t.val0 = s.val0 ∧ t.val1 = s.val1 ∧
      t.val2 = s.val2 ∧ t.val3 = s.val3 ∧ t.opr = s.opr ∧ t.mem = s.mem ∧ t.hazard = s.hazard ∧
      t.script = s.script ∧ t.hostData = s.hostData
  | 0, s, t, h => by
    obtain rfl : s = t := Host.Outcome.next.inj h
    simp
  | n + 1, s, t, h => by
    obtain ⟨u, hu, ht⟩ := andThen_eq_next.mp h
    have h1 := coreStep_frame hu
    have h2 := coreRun_frame n ht
    simp_all

end Sys2Proof.Machine
end

