-- ==== Sys2Proof/Laws/HostPort.lean ====
section
/-! SUPPORT. What the host's accesses do (spec/10_state.md R20; spec/60_exceptions.md R213, R214): everything a
window write and a window access can answer, and which fields they leave alone. -/

namespace Sys2Proof.Machine

theorem inInterface_iff (offset width : Nat) :
    inInterface offset width = true ↔ width = 64 ∧ offset % 8 = 0 ∧ offset ≤ 0xFF := by
  simp [inInterface, and_assoc]

@[simp] theorem regAt_regOffset (r : Reg) : regAt (regOffset r) = some r := by cases r <;> rfl

theorem regAt_eq_some {offset : Nat} {r : Reg} (h : regAt offset = some r) : offset = regOffset r := by
  unfold regAt at h
  iterate 13
    rw [ite_eq_iff] at h
    rcases h with ⟨h1, h2⟩ | ⟨_, h⟩
    · cases h2
      exact h1
  cases h

/-- A write of the CMD register is a command, or an illegal value (R180). -/
theorem writeWindow_cmd (s : State) (v : Word) :
    writeWindow s 0x00 v = match decode v with
      | .ok i => exec i s
      | .error _ => .next (s.issueIllegal v) := rfl

/-- A write of any other offset stores an operand register or does nothing (R20, R48). -/
theorem writeWindow_other {s : State} {offset : Nat} (v : Word) (h : offset ≠ 0x00) :
    writeWindow s offset v = .next (match regAt offset with | some r => s.writeReg r v | none => s) := by
  unfold writeWindow
  cases hr : regAt offset with
  | none => rfl
  | some r =>
    cases r <;> try rfl
    exact absurd (regAt_eq_some hr) h

/-- Everything a write of the window can do: a drop, a start, a rejection, or a stored register. -/
theorem writeWindow_cases (s : State) (offset : Nat) (v : Word) :
    (offset = 0x00 ∧ s.status.busy = true ∧ writeWindow s offset v = .next s.drop) ∨
    (∃ i, offset = 0x00 ∧ decode v = .ok i ∧ s.status.busy = false ∧ commandFits i s = true ∧
      writeWindow s offset v = .next (startedState i s)) ∨
    (∃ code, offset = 0x00 ∧ s.status.busy = false ∧ (code = errBounds ∨ code = errIllegal) ∧
      writeWindow s offset v = .next (rejectedState v code s)) ∨
    (offset ≠ 0x00 ∧ (writeWindow s offset v = .next s ∨
      ∃ r, writeWindow s offset v = .next (s.writeReg r v))) := by
  by_cases h0 : offset = 0x00
  · subst h0
    rw [writeWindow_cmd]
    cases hd : decode v with
    | error e =>
      dsimp only
      rw [issueIllegal_eq]
      cases hb : s.status.busy
      · exact .inr (.inr (.inl ⟨errIllegal, rfl, rfl, .inr rfl, rfl⟩))
      · exact .inl ⟨rfl, rfl, rfl⟩
    | ok i =>
      have hv : v = encode i := eq_encode_of_decode hd
      rcases exec_cases i s with ⟨hb, he⟩ | ⟨hb, hf, he⟩ | ⟨hb, hf, he⟩
      · exact .inl ⟨rfl, hb, he⟩
      · exact .inr (.inl ⟨i, rfl, rfl, hb, hf, he⟩)
      · exact .inr (.inr (.inl ⟨errBounds, rfl, hb, .inl rfl, hv ▸ he⟩))
  · refine .inr (.inr (.inr ⟨h0, ?_⟩))
    rw [writeWindow_other v h0]
    cases regAt offset with
    | none => exact .inl rfl
    | some r => exact .inr ⟨r, rfl⟩

/-- A write of an operand register changes that register only (R20, R48, R244). -/
theorem writeReg_frame (s : State) (r : Reg) (v : Word) :
    (s.writeReg r v).status = s.status ∧ (s.writeReg r v).res0 = s.res0 ∧
      (s.writeReg r v).res1 = s.res1 ∧ (s.writeReg r v).res2 = s.res2 ∧
      (s.writeReg r v).res3 = s.res3 ∧ (s.writeReg r v).opr = s.opr ∧
      (s.writeReg r v).phase = s.phase ∧ (s.writeReg r v).dp = s.dp ∧ (s.writeReg r v).mem = s.mem ∧
      (s.writeReg r v).hazard = s.hazard ∧ (s.writeReg r v).draws = s.draws ∧
      (s.writeReg r v).script = s.script ∧ (s.writeReg r v).hostData = s.hostData := by
  cases r <;> simp [State.writeReg]

/-! ### Updates that a running operation does not see (R23, R213, R244) -/

/-- An update of fields the sequencer neither reads nor decides on commutes with a sequencer step. -/
theorem coreStep_map {f : State → State} (h1 : ∀ s, (f s).phase = s.phase)
    (h2 : ∀ s, (f s).opr = s.opr) (h3 : ∀ s, (f s).mem = s.mem) (h4 : ∀ s, (f s).dp = s.dp)
    (h5 : ∀ s j, (f s).finish j = f (s.finish j)) (h6 : ∀ s d, (f s).setDp d = f (s.setDp d))
    (s : State) : coreStep (f s) = mapNext f (coreStep s) := by
  unfold coreStep
  rw [h1, h2, h3, h4]
  cases s.phase <;> try rfl
  dsimp only
  cases decode s.opr.op with
  | error e => rfl
  | ok i =>
    dsimp only
    rw [h5, h6]
    split
    · split <;> rfl
    · rfl

/-- An update that commutes with one sequencer step commutes with any number of them. -/
theorem coreRun_map {f : State → State} (hf : ∀ s, coreStep (f s) = mapNext f (coreStep s)) :
    ∀ n s, coreRun n (f s) = mapNext f (coreRun n s)
  | 0, _ => rfl
  | n + 1, s => by
    rw [coreRun, coreRun, hf]
    cases coreStep s with
    | next t => exact coreRun_map hf n t
    | fault r => rfl
    | refused r => rfl

theorem coreStep_drop (s : State) : coreStep s.drop = mapNext State.drop (coreStep s) := by
  refine coreStep_map (f := State.drop) (fun _ => rfl) (fun _ => rfl) (fun _ => rfl) (fun _ => rfl)
    (fun s j => ?_) (fun _ _ => rfl) s
  unfold State.finish
  rw [State.drop_hazard]
  cases s.hazard <;> rfl

theorem coreStep_writeReg (r : Reg) (v : Word) (s : State) :
    coreStep (s.writeReg r v) = mapNext (fun t => t.writeReg r v) (coreStep s) := by
  refine coreStep_map (f := fun t => t.writeReg r v) ?_ ?_ ?_ ?_ (fun s j => ?_) ?_ s
  · intro s; cases r <;> rfl
  · intro s; cases r <;> rfl
  · intro s; cases r <;> rfl
  · intro s; cases r <;> rfl
  · unfold State.finish
    rw [(writeReg_frame s r v).2.2.2.2.2.2.2.2.2.1]
    cases s.hazard <;> cases r <;> rfl
  · intro s d; cases r <;> rfl

/-- Everything one host access can answer when it answers a next state. -/
theorem hostAccess_cases {op : HostOp} {s t : State} (h : hostAccess op s = .next t) :
    (∃ offset v, op = .write offset 64 v ∧ inInterface offset 64 = true ∧
      writeWindow s offset v = .next t) ∨
    (∃ offset, op = .read offset 64 ∧ inInterface offset 64 = true ∧
      t = { s with hostData := s.readWindow offset }) ∨
    (op = .poll ∧ s.status.busy = true ∧
      t = { s with hostData := s.status.word, script := { core := 1, op := .poll } :: s.script }) ∨
    (op = .poll ∧ s.status.busy = false ∧ t = { s with hostData := s.status.word }) ∨
    (∃ addr b, op = .writeIn addr b ∧ addr < s.mem.size ∧ t = s.hostWriteIn addr b) ∨
    (op = .reset ∧ t = s.onReset) ∨ (op = .idle ∧ t = s) := by
  cases op with
  | write offset width v =>
    left
    simp only [hostAccess] at h
    split at h
    · rename_i hi
      obtain ⟨rfl, _⟩ := (inInterface_iff offset width).mp hi
      exact ⟨offset, v, rfl, hi, h⟩
    · exact absurd h (by simp)
  | read offset width =>
    right; left
    simp only [hostAccess] at h
    split at h
    · rename_i hi
      obtain ⟨rfl, _⟩ := (inInterface_iff offset width).mp hi
      exact ⟨offset, rfl, hi, (Host.Outcome.next.inj h).symm⟩
    · exact absurd h (by simp)
  | poll =>
    right; right
    simp only [hostAccess] at h
    split at h
    · exact .inl ⟨rfl, ‹_›, (Host.Outcome.next.inj h).symm⟩
    · exact .inr (.inl ⟨rfl, by simp_all, (Host.Outcome.next.inj h).symm⟩)
  | writeIn addr b =>
    right; right; right; right; left
    simp only [hostAccess] at h
    split at h
    · rename_i ha
      exact ⟨addr, b, rfl, by simpa using ha, (Host.Outcome.next.inj h).symm⟩
    · exact absurd h (by simp)
  | reset =>
    right; right; right; right; right; left
    exact ⟨rfl, (Host.Outcome.next.inj h).symm⟩
  | idle =>
    right; right; right; right; right; right
    exact ⟨rfl, (Host.Outcome.next.inj h).symm⟩

/-- One step of the machine: the core alone when the script is empty, else one slot of it. -/
theorem step_nil {s : State} (h : s.script = []) : step s = coreStep s := by
  simp [step, machineStep, h]

theorem step_cons {s : State} {t : Slot} {rest : List Slot} (h : s.script = t :: rest) :
    step s = andThen (coreRun t.core { s with script := rest }) (hostAccess t.op) := by
  simp [step, machineStep, h, slotStep]

/-- Everything a step can be when it answers a next state. -/
theorem step_cases {s u : State} (h : step s = .next u) :
    (s.script = [] ∧ coreStep s = .next u) ∨
    ∃ t rest v, s.script = t :: rest ∧ coreRun t.core { s with script := rest } = .next v ∧
      hostAccess t.op v = .next u := by
  cases hs : s.script with
  | nil => exact .inl ⟨rfl, step_nil hs ▸ h⟩
  | cons t rest =>
    rw [step_cons hs] at h
    obtain ⟨v, hv, hu⟩ := andThen_eq_next.mp h
    exact .inr ⟨t, rest, v, rfl, hv, hu⟩

end Sys2Proof.Machine
end

