-- ==== Sys2Proof/Laws/Invariant.lean ====
section
/-! SUPPORT. What keeps the invariant of Safety.lean: each way a step can go, one lemma. -/

namespace Sys2Proof.Machine

/-! ### The operation does not depend on IN but for its input bytes -/

theorem jobOf_mixer (i : Instr) (o : Opr) (m m' : InMem) :
    (jobOf i o m').mixer = (jobOf i o m).mixer := by cases i <;> rfl
theorem jobOf_nbytes (i : Instr) (o : Opr) (m m' : InMem) :
    (jobOf i o m').nbytes = (jobOf i o m).nbytes := by cases i <;> rfl
theorem jobOf_seed (i : Instr) (o : Opr) (m m' : InMem) :
    (jobOf i o m').seed = (jobOf i o m).seed := by cases i <;> rfl
theorem jobOf_windowed (i : Instr) (o : Opr) (m m' : InMem) :
    (jobOf i o m').windowed = (jobOf i o m).windowed := by cases i <;> rfl

/-- A byte of IN outside the window is no input byte. -/
theorem jobOf_input_write (i : Instr) (o : Opr) (m : InMem) (a : Nat) (b : Byte)
    (h : (jobOf i o m).windowed = false ∨ a < o.src.toNat ∨
      o.src.toNat + (jobOf i o m).nbytes ≤ a) (k : Nat) :
    AgreeOn (jobOf i o m).nbytes ((jobOf i o m).input k) ((jobOf i o (m.write a b)).input k) := by
  have hw : ∀ L, (a < o.src.toNat ∨ o.src.toNat + L ≤ a) →
      AgreeOn L (windowInput o m) (windowInput o (m.write a b)) := by
    intro L hL x hx
    simp only [windowInput]
    rw [InMem.byte_write_other]
    omega
  cases i
  case hash32Buf | hash64Buf | hash128Buf | hash32T16 | hash64T16 | hash128T16 =>
    rcases h with h | h
    · exact absurd h (Bool.noConfusion)
    · exact hw _ h
  all_goals exact fun _ _ => rfl

/-- `Placed` depends on the mixer and the length only. -/
theorem placed_congr {j j' : Job} {d : Datapath} (hx : j'.mixer = j.mixer)
    (hn : j'.nbytes = j.nbytes) : Placed j' d ↔ Placed j d := by
  unfold Placed
  rw [hx, hn]

/-- `Tracks` depends on the input bytes the rules read only (R118, R138, R159). -/
theorem tracks_congr {j j' : Job} {d : Datapath} (hx : j'.mixer = j.mixer)
    (hn : j'.nbytes = j.nbytes) (hs : j'.seed = j.seed)
    (hm : ∀ k, AgreeOn j.nbytes (j.input k) (j'.input k)) (hp : Placed j d) (h : Tracks j d) :
    Tracks j' d := by
  have lane : ∀ k l, (j.mixer = .m32 ∨ j.mixer = .m32x4) →
      TracksLane j (j.input k) d.stage d.p l → TracksLane j' (j'.input k) d.stage d.p l := by
    intro k l hxl ht
    have hc : chunkSize j.mixer = 16 := by rcases hxl with hx | hx <;> rw [hx] <;> rfl
    have hc' : tailSize j.mixer = 16 := by rcases hxl with hx | hx <;> rw [hx] <;> rfl
    unfold TracksLane at ht ⊢
    rw [hn, hs]
    cases hst : d.stage <;> simp only [hst] at ht ⊢
    case loop =>
      simp only [Placed, hst, hc] at hp
      rw [← loop32_congr (hm k) _ _ _ _ (by omega)]
      exact ht
    case tail =>
      simp only [Placed, hst, hc'] at hp
      rw [← loop32_congr (hm k) _ _ _ _ (by omega)]
      exact ht
    case final =>
      rw [← hash32_congr (hm k)]
      exact ht
    all_goals exact ht
  unfold Tracks at h ⊢
  rw [hx]
  cases hxx : j.mixer <;> simp only [hxx] at h ⊢
  · exact lane 0 _ (.inl hxx) h
  · unfold Tracks64 at h ⊢
    rw [hn, hs]
    cases hst : d.stage <;> simp only [hst] at h ⊢
    case loop =>
      simp only [Placed, hst, hxx, chunkSize] at hp
      rw [← loop64_congr (hm 0) _ _ _ _ (by omega)]
      exact h
    case tail =>
      simp only [Placed, hst, hxx, tailSize] at hp
      rw [← loop64_congr (hm 0) _ _ _ _ (by omega)]
      exact h
    case final =>
      rw [← hash64_congr (hm 0)]
      exact h
    all_goals exact h
  · unfold Tracks128 at h ⊢
    rw [hn, hs]
    cases hst : d.stage <;> simp only [hst] at h ⊢
    case loop =>
      simp only [Placed, hst, hxx, chunkSize] at hp
      rw [← loop128_congr (hm 0) _ _ _ _ (by omega)]
      exact h
    case fold =>
      simp only [Placed, hst, hxx] at hp
      rw [← loop128_congr (hm 0) _ _ _ _ (by omega)]
      exact h
    case tail32 =>
      rw [← folded128_congr (hm 0)]
      exact h
    case tail =>
      simp only [Placed, hst, hxx, tailSize] at hp
      rw [← folded128_congr (hm 0)]
      by_cases hc : d.p = 64 * chunks64 j.nbytes
      · rw [if_pos hc] at h ⊢
        exact h
      · rw [if_neg hc] at h ⊢
        rw [← processTail32_congr (hm 0) (by unfold chunks64 at hc ⊢; omega)]
        exact h
    case final =>
      rw [← hash128Ref_congr (hm 0)]
      exact h
    all_goals exact h
  · exact ⟨lane 0 _ (.inr hxx) h.1, lane 1 _ (.inr hxx) h.2.1, lane 2 _ (.inr hxx) h.2.2.1,
      lane 3 _ (.inr hxx) h.2.2.2⟩

/-- The digest depends on the mixer, the length, the seed and the input bytes of each lane only. -/
theorem digest_congr {j j' : Job} (hx : j'.mixer = j.mixer) (hn : j'.nbytes = j.nbytes)
    (hs : j'.seed = j.seed) (hm : ∀ k, AgreeOn j.nbytes (j.input k) (j'.input k)) :
    j'.digest = j.digest := by
  unfold Job.digest Job.hash32Lane
  rw [hx, hn, hs, hash64_congr (hm 0), hash128_congr (hm 0), hash32_congr (hm 0), hash32_congr (hm 1),
    hash32_congr (hm 2), hash32_congr (hm 3)]

/-! ### The parts of a step -/

/-- A state not in RUN, its memory and STATUS as they should be. -/
theorem inv_of_not_run {s : State} (hm : s.mem.wf = true) (hs : StatusFits s.phase s.status)
    (hp : s.phase ≠ .run) : Inv s := ⟨hm, hs, fun h => absurd h hp⟩

theorem inv_started {i : Instr} {s : State} (h : Inv s) (hf : commandFits i s = true) :
    Inv (startedState i s) :=
  ⟨h.1, ⟨rfl, rfl, rfl, rfl⟩, fun _ => ⟨i, decode_encode i, hf, trivial, fun _ => tracks_of_init rfl⟩⟩

theorem inv_rejected {v : Word} {code : BitVec 4} {s : State} (h : Inv s)
    (hc : code = errBounds ∨ code = errIllegal) : Inv (rejectedState v code s) := by
  refine inv_of_not_run h.1 ?_ (by simp [rejectedState])
  rcases hc with rfl | rfl
  · exact .inl rfl
  · exact .inr rfl

theorem inv_drop {s : State} (h : Inv s) (hb : s.status.busy = true) : Inv s.drop := by
  have hr : s.phase = .run := by
    have := h.2.1
    cases hp : s.phase <;> simp only [StatusFits, hp] at this
    · rw [this] at hb; exact absurd hb (by decide)
    · rfl
    · rw [this.1] at hb; exact absurd hb (by decide)
    · rcases this with e | e <;> rw [e] at hb <;> exact absurd hb (by decide)
  refine ⟨h.1, ?_, fun hp => h.2.2 hp⟩
  have hs := h.2.1
  simp only [State.drop_phase, hr, StatusFits, State.drop_status, Status.dropped] at hs ⊢
  exact hs

/-- Fields the invariant does not read may change. -/
theorem inv_of_same {s t : State} (h : Inv s) (h1 : t.mem = s.mem) (h2 : t.phase = s.phase)
    (h3 : t.status = s.status) (h4 : t.opr = s.opr) (h5 : t.dp = s.dp) (h6 : t.hazard = s.hazard) :
    Inv t := by
  unfold Inv RunOk
  rw [h1, h2, h3, h4, h5, h6]
  exact h

theorem inv_coreStep {s t : State} (h : Inv s) (hst : coreStep s = .next t) : Inv t := by
  rcases coreStep_cases hst with ⟨_, rfl⟩ | ⟨i, hp, hi, hb, ⟨hs, rfl⟩ | ⟨hs, rfl⟩⟩
  · exact h
  · have hstat := h.2.1
    simp only [hp, StatusFits] at hstat
    have hsf : StatusFits .doneOk s.status.completed := ⟨rfl, rfl, hstat.2.2⟩
    unfold State.finish
    split
    · exact inv_of_not_run h.1 hsf (by simp)
    · exact inv_of_not_run h.1 hsf (by simp)
  · obtain ⟨i', hi', _, hpl, htr⟩ := h.2.2 hp
    obtain rfl : i = i' := by rw [hi] at hi'; exact Except.ok.inj hi'
    exact ⟨h.1, h.2.1, fun _ => ⟨i, hi, hb, (placed_advance hs hpl).1,
      fun hz => tracks_advance hs hpl (htr hz)⟩⟩

theorem inv_coreRun : ∀ (n : Nat) {s t : State}, Inv s → coreRun n s = .next t → Inv t
  | 0, s, t, h, hr => by
    obtain rfl : s = t := Host.Outcome.next.inj hr
    exact h
  | n + 1, s, t, h, hr => by
    obtain ⟨u, hu, ht⟩ := andThen_eq_next.mp hr
    exact inv_coreRun n (inv_coreStep h hu) ht

theorem inv_writeReg {s : State} (h : Inv s) (r : Reg) (v : Word) : Inv (s.writeReg r v) := by
  have f := writeReg_frame s r v
  exact inv_of_same h f.2.2.2.2.2.2.2.2.1 f.2.2.2.2.2.2.1 f.1 f.2.2.2.2.2.1 f.2.2.2.2.2.2.2.1
    f.2.2.2.2.2.2.2.2.2.1

theorem inv_writeWindow {s t : State} {offset : Nat} {v : Word} (h : Inv s)
    (hw : writeWindow s offset v = .next t) : Inv t := by
  rcases writeWindow_cases s offset v with ⟨_, hb, e⟩ | ⟨i, _, _, _, hf, e⟩ | ⟨code, _, _, hc, e⟩ |
      ⟨_, e | ⟨r, e⟩⟩ <;> rw [e] at hw <;> obtain rfl := Host.Outcome.next.inj hw
  · exact inv_drop h hb
  · exact inv_started h hf
  · exact inv_rejected h hc
  · exact h
  · exact inv_writeReg h r v

/-- An IN address outside a running operation's window. -/
theorem outside_of_not_inWindow {s : State} {i : Instr} {addr : Nat} (hp : s.phase = .run)
    (hi : decode s.opr.op = .ok i) (hw : s.inWindow addr = false) :
    (jobOf i s.opr s.mem).windowed = false ∨ addr < s.opr.src.toNat ∨
      s.opr.src.toNat + (jobOf i s.opr s.mem).nbytes ≤ addr := by
  unfold State.inWindow at hw
  simp only [hp, hi, Bool.and_eq_false_iff] at hw
  rcases hw with (hw | hw) | hw
  · exact .inl hw
  · exact .inr (.inl (by
      rw [← Bool.not_eq_true, Nat.ble_eq] at hw
      omega))
  · exact .inr (.inr (by
      rw [← Bool.not_eq_true, Nat.blt_eq] at hw
      omega))

theorem inv_hostWriteIn {s : State} {addr : Nat} (b : Byte) (h : Inv s) (ha : addr < s.mem.size) :
    Inv (s.hostWriteIn addr b) := by
  refine ⟨InMem.wf_write b h.1 ha, h.2.1, fun hp => ?_⟩
  obtain ⟨i, hi, hb, hpl, htr⟩ := h.2.2 hp
  refine ⟨i, hi, ?_, (placed_congr (jobOf_mixer ..) (jobOf_nbytes ..)).mpr hpl, fun hz => ?_⟩
  · show (jobOf i s.opr (s.mem.write addr b)).inBounds s.opr (s.mem.write addr b) = true
    unfold Job.inBounds at hb ⊢
    rw [jobOf_windowed i s.opr s.mem, jobOf_nbytes i s.opr s.mem]
    exact hb
  · have hz' : (s.hazard || s.inWindow addr) = false := hz
    rw [Bool.or_eq_false_iff] at hz'
    exact tracks_congr (jobOf_mixer ..) (jobOf_nbytes ..) (jobOf_seed ..)
      (jobOf_input_write i s.opr s.mem addr b (outside_of_not_inWindow hp hi hz'.2)) hpl (htr hz'.1)

theorem inv_onReset {s : State} (h : Inv s) : Inv s.onReset :=
  inv_of_not_run h.1 rfl (by simp [State.onReset, State.reset])

theorem inv_hostAccess {op : HostOp} {s t : State} (h : Inv s) (ht : hostAccess op s = .next t) :
    Inv t := by
  rcases hostAccess_cases ht with ⟨_, _, _, _, hw⟩ | ⟨_, _, _, rfl⟩ | ⟨_, _, rfl⟩ | ⟨_, _, rfl⟩ |
      ⟨addr, b, _, ha, rfl⟩ | ⟨_, rfl⟩ | ⟨_, rfl⟩
  · exact inv_writeWindow h hw
  · exact inv_of_same h rfl rfl rfl rfl rfl rfl
  · exact inv_of_same h rfl rfl rfl rfl rfl rfl
  · exact inv_of_same h rfl rfl rfl rfl rfl rfl
  · exact inv_hostWriteIn b h ha
  · exact inv_onReset h
  · exact h

/-! ### From a state that meets the invariant the core does not stop -/

theorem busy_iff_run {s : State} (h : Inv s) : s.status.busy = true ↔ s.phase = .run := by
  have hs := h.2.1
  cases hp : s.phase <;> simp only [StatusFits, hp] at hs
  · simp [hs, Status.reset]
  · simp [hs.1]
  · simp [hs.1]
  · rcases hs with e | e <;> simp [e, statusRejected]

theorem coreStep_next {s : State} (h : Inv s) : ∃ t, coreStep s = .next t := by
  by_cases hp : s.phase = .run
  · obtain ⟨i, hi, hb, _⟩ := h.2.2 hp
    rw [coreStep_run hp hi hb]
    split <;> exact ⟨_, rfl⟩
  · exact ⟨_, coreStep_idle hp⟩

theorem coreRun_next : ∀ (n : Nat) {s : State}, Inv s → ∃ t, coreRun n s = .next t
  | 0, s, _ => ⟨s, rfl⟩
  | n + 1, s, h => by
    obtain ⟨t, ht⟩ := coreStep_next h
    rw [coreRun_succ_of_step ht]
    exact coreRun_next n (inv_coreStep h ht)

/-- From a state of the invariant in RUN, sequencer steps that reach DONE_OK have completed its operation. -/
theorem completedFrom_of_coreRun {s u : State} {n : Nat} (h : Inv s) (hp : s.phase = .run)
    (hu : coreRun n s = .next u) (hd : u.phase = .doneOk) : CompletedFrom s u := by
  obtain ⟨i, hi, hb, hpl, ht⟩ := h.2.2 hp
  exact ⟨hd, coreRun_status n hp hu hd, i, hi, fun hz =>
    eq_completed_of_coreRun (completes_of_tracks hp hi hb hz hpl (ht hz)) hp hu hd⟩

end Sys2Proof.Machine
end

