-- ==== Sys2Proof/Laws/PerInstr.lean ====
section
/-! SUPPORT. One statement for each command, as syntax: its encoding (spec/30_encoding.md R62). -/

namespace Sys2Proof.Laws.Encoding

/-- The command is well formed, its word has its fields, and the word decodes to it. -/
def Statement (i : Instr) : Prop :=
  i.wf = true ∧ fieldsOf (encode i) = i.fields ∧ decode (encode i) = .ok i

theorem hash32Buf : Statement .hash32Buf := ⟨by decide, fieldsOf_encode _, decode_encode _⟩
theorem hash64Buf : Statement .hash64Buf := ⟨by decide, fieldsOf_encode _, decode_encode _⟩
theorem hash128Buf : Statement .hash128Buf := ⟨by decide, fieldsOf_encode _, decode_encode _⟩
theorem hash32T16 : Statement .hash32T16 := ⟨by decide, fieldsOf_encode _, decode_encode _⟩
theorem hash64T16 : Statement .hash64T16 := ⟨by decide, fieldsOf_encode _, decode_encode _⟩
theorem hash128T16 : Statement .hash128T16 := ⟨by decide, fieldsOf_encode _, decode_encode _⟩
theorem hash32V4 : Statement .hash32V4 := ⟨by decide, fieldsOf_encode _, decode_encode _⟩
theorem hash64V4 : Statement .hash64V4 := ⟨by decide, fieldsOf_encode _, decode_encode _⟩
theorem hash128V4 : Statement .hash128V4 := ⟨by decide, fieldsOf_encode _, decode_encode _⟩
theorem hash32V8 : Statement .hash32V8 := ⟨by decide, fieldsOf_encode _, decode_encode _⟩
theorem hash64V8 : Statement .hash64V8 := ⟨by decide, fieldsOf_encode _, decode_encode _⟩
theorem hash128V8 : Statement .hash128V8 := ⟨by decide, fieldsOf_encode _, decode_encode _⟩
theorem hash32x4 : Statement .hash32x4 := ⟨by decide, fieldsOf_encode _, decode_encode _⟩

end Sys2Proof.Laws.Encoding
end

