-- ==== Sys2Proof/Tests/Slice0.lean ====
section
/-! SUPPORT. Tests: command words written out field by field, the well-formedness checks, the vectors of
spec/95_test_vectors.md, one step for each command, and for each statement with hypotheses a state that
meets them. Every expected value is the spec's. -/

namespace Sys2Proof.Tests

open Sys2Proof Sys2Proof.Machine

/-! ### Small states -/

/-- An idle block after reset, IN_SIZE = 0x1000 (95_test_vectors.md section 3). -/
def idle : State := { State.reset with mem := { size := 0x1000, cells := [] } }

/-- A list of bytes placed in IN from an address on. -/
def cellsAt : Nat → List Byte → List Host.Cell
  | _, [] => []
  | a, b :: rest => (a, b) :: cellsAt (a + 1) rest

/-- "Hello, World!" at 0x100 (95_test_vectors.md program P1). -/
def hello : State :=
  { idle with mem := { size := 0x1000, cells := cellsAt 0x100 helloBytes }, src := 0x100, len := 13 }

/-- "Hi" in UTF-16LE at 0x200 (K14 to K16). -/
def hi : State :=
  { idle with mem := { size := 0x1000, cells := cellsAt 0x200 hiBytes }, src := 0x200, len := 2 }

/-- 01 02 03 04 at 0, and the same value in VAL0 (V6 to V8, K1 to K3). -/
def four : State :=
  { idle with mem := { size := 0x1000, cells := cellsAt 0 bytes1234 }, len := 4, val0 := 0x04030201 }

/-- 01 .. 08 at 0, and the same value in VAL0 (K5 to K7). -/
def eight : State :=
  { idle with
    mem := { size := 0x1000, cells := cellsAt 0 [1, 2, 3, 4, 5, 6, 7, 8] }
    len := 8, val0 := 0x0807060504030201 }

/-- The operands of K11. -/
def batch : State :=
  { idle with val0 := 0x04030201, val1 := 0xdeadbeef, val2 := 0xffffffff, val3 := 0 }

/-- The empty window at the top of IN (K17). -/
def top : State := { idle with src := 0x1000 }

/-- A window of 16 bytes that leaves IN (K18). -/
def past : State := { idle with src := 0xff8, len := 16 }

/-- An operation in RUN. -/
def running : State := startedState .hash64Buf hello

/-- The bytes 0, 1, 2, .. (95_test_vectors.md `seq`). -/
def seq : Input := fun k => BitVec.ofNat 8 k

/-- What a step's next state shows; none where there is none. -/
def look {α : Type} (f : State → α) : Host.Outcome State Fault Refusal → Option α
  | .next s => some (f s)
  | .fault _ => none
  | .refused _ => none

/-- The next step lets the core make `n` sequencer steps, and the host reads the register `r`. -/
def thenRead (s : State) (n : Nat) (r : Reg) : State := { s with script := [{ core := n, op := rd r }] }

/-- The state right after the command `i` was taken and started. -/
abbrev started (i : Instr) (s : State) : State := startedState i s

/-! ### Command words, field by field (spec/30_encoding.md R60, R62): RSVD, X4, SHAPE, WIDTH -/

theorem test_decode_hash32Buf : decode (0#59 ++ 0b0#1 ++ 0b00#2 ++ 0b00#2) = .ok .hash32Buf := by decide
theorem test_decode_hash64Buf : decode (0#59 ++ 0b0#1 ++ 0b00#2 ++ 0b01#2) = .ok .hash64Buf := by decide
theorem test_decode_hash128Buf : decode (0#59 ++ 0b0#1 ++ 0b00#2 ++ 0b10#2) = .ok .hash128Buf := by decide
theorem test_decode_hash32T16 : decode (0#59 ++ 0b0#1 ++ 0b01#2 ++ 0b00#2) = .ok .hash32T16 := by decide
theorem test_decode_hash64T16 : decode (0#59 ++ 0b0#1 ++ 0b01#2 ++ 0b01#2) = .ok .hash64T16 := by decide
theorem test_decode_hash128T16 : decode (0#59 ++ 0b0#1 ++ 0b01#2 ++ 0b10#2) = .ok .hash128T16 := by decide
theorem test_decode_hash32V4 : decode (0#59 ++ 0b0#1 ++ 0b10#2 ++ 0b00#2) = .ok .hash32V4 := by decide
theorem test_decode_hash64V4 : decode (0#59 ++ 0b0#1 ++ 0b10#2 ++ 0b01#2) = .ok .hash64V4 := by decide
theorem test_decode_hash128V4 : decode (0#59 ++ 0b0#1 ++ 0b10#2 ++ 0b10#2) = .ok .hash128V4 := by decide
theorem test_decode_hash32V8 : decode (0#59 ++ 0b0#1 ++ 0b11#2 ++ 0b00#2) = .ok .hash32V8 := by decide
theorem test_decode_hash64V8 : decode (0#59 ++ 0b0#1 ++ 0b11#2 ++ 0b01#2) = .ok .hash64V8 := by decide
theorem test_decode_hash128V8 : decode (0#59 ++ 0b0#1 ++ 0b11#2 ++ 0b10#2) = .ok .hash128V8 := by decide
theorem test_decode_hash32x4 : decode (0#59 ++ 0b1#1 ++ 0b10#2 ++ 0b00#2) = .ok .hash32x4 := by decide

/-- K23: bit 32 set. -/
theorem test_decode_reserved_bit : decode 0x0000000100000001#64 = .error .reservedBits := by decide
/-- K21: WIDTH = 11. -/
theorem test_decode_reserved_width : decode (0#59 ++ 0b0#1 ++ 0b00#2 ++ 0b11#2) = .error .reservedWidth := by
  decide
/-- K22: X4 with WIDTH = 01. -/
theorem test_decode_reserved_x4 : decode (0#59 ++ 0b1#1 ++ 0b10#2 ++ 0b01#2) = .error .reservedX4 := by decide

/-! ### Well-formedness: for each check, a term it refuses -/

theorem test_wf_command : (Instr.hash32x4).wf = true := by decide
theorem test_wf_refuses_reserved_bits : (⟨0, 0, 0, 1⟩ : CmdFields).rsvdOk = false := by decide
theorem test_wf_refuses_width_3 : (⟨3, 0, 0, 0⟩ : CmdFields).widthOk = false := by decide
theorem test_wf_refuses_x4_with_v8 : (⟨0, 3, 1, 0⟩ : CmdFields).x4Ok = false := by decide
theorem test_wf_refuses_x4_with_width_1 : (⟨1, 2, 1, 0⟩ : CmdFields).wf = false := by decide
theorem test_wf_refuses_32_bit_write : (HostOp.write 0x10 32 0).wf = false := by decide
theorem test_wf_refuses_unaligned_read : (HostOp.read 0x11 64).wf = false := by decide
theorem test_wf_refuses_offset_100 : (HostOp.read 0x100 64).wf = false := by decide
theorem test_wf_accepts_reserved_offset : (HostOp.write 0xF8 64 0).wf = true := by decide

/-! ### Primitives and mixers (worked values of R84, R100, R101, R119, R139, R161; 95_test_vectors.md) -/

/-- R119: init64 at L = 17. -/
theorem test_init64_17 : init64 17 0 = (0x4f3fb2fde63be34c#64, 0x09cac66c371a784b#64) := by decide
/-- R101: init32 at L = 13. -/
theorem test_init32_13 : init32 13 0xdeadbeef = ⟨0x90f6ef00, 0x06988728, 0xFB0BD3EA, 0x0F58FD47⟩ := by decide
/-- R84: the window of 9 bytes 01 .. 09. -/
theorem test_pack64_9 :
    pack64 (fun k => BitVec.ofNat 8 (k + 1)) 0 9 = (0x0403020109080706#64, 0x0807060505040302#64) := by decide
/-- R83: AB CD EF. -/
theorem test_pack_bytes : packBytes 64 (listInput [0xAB, 0xCD, 0xEF]) 3 = 0x00EFCDAB#64 := by decide
/-- R119: one iteration of the loop at L = 17. -/
theorem test_iter64_17 : iter64 seq 0 0x1a6ae7a8b36eb619 0xa3606cc69db0d2e1
    (0x4f3fb2fde63be34c, 0x09cac66c371a784b) = (0x5b482a5933787c11#64, 0xa432543955346c86#64) := by decide +kernel
/-- R119: the digest at L = 17. -/
theorem test_hash64_17 : hash64 seq 17 0 = 0xf3aea2b256102c36#64 := by decide +kernel
/-- V13: 256 bytes. -/
theorem test_hash64_256 : hash64 seq 256 0 = 0x92a52c8586258560#64 := by decide +kernel
/-- 95_test_vectors.md 2.3: L = 33, both mixers, seeds 0xdeadbeefcafebabe and 0xcafebabe. -/
theorem test_hash_33 : hash64 seq 33 0xdeadbeefcafebabe = 0xb104ad438997a37a#64 ∧
    hash32 seq 33 0 = 0xf2365846#32 := by decide +kernel
/-- V14: 256 bytes. -/
theorem test_hash32_256 : hash32 seq 256 0 = 0xce642dc8#32 := by decide +kernel
/-- R139: L = 17, rem = 1, no c,d pair. -/
theorem test_hash32_17 : hash32 seq 17 0 = 0x28956c8f#32 := by decide +kernel
/-- Corner input: 16 bytes 0xFF. -/
theorem test_hash_ff16 : hash64 (fun _ => 0xFF) 16 0 = 0xdcf7d4710e21d606#64 ∧
    hash32 (fun _ => 0xFF) 16 0 = 0xadcf76c9#32 := by decide +kernel
/-- 95_test_vectors.md 2.4: L = 3 and L = 16, where `+` and `^` of the finalizer differ. -/
theorem test_hash128_short : hash128Ref seq 3 0 = (0xc408f882c7a07a98#64, 0xb8f709deed2c04ce#64) ∧
    hash128Ref seq 16 0xdeadbeefcafebabe = (0x5d9fdf07e4d899c2#64, 0x1eed542dfeee8305#64) := by decide +kernel
/-- The default instance (not normative) at L = 33 and L = 129. -/
theorem test_hash128_default : hash128Ref seq 33 0 = (0x3718ac936f2dbba7#64, 0x37396a1ceeca395a#64) ∧
    hash128Ref seq 129 0 = (0xc1330e75fcdf79c9#64, 0xd4fdcbe227ec46a4#64) := by decide +kernel

/-! ### One step: taking a command (R180), and completing it (R181) -/

theorem test_take_hash32Buf : look (fun t => (t.status.word, t.opr.op, t.phase))
    (step (hello.withFetchWord 64 (encode .hash32Buf).toNat)) = some (0x01, encode .hash32Buf, .run) := by decide
theorem test_take_hash64Buf : look (fun t => (t.status.word, t.opr.op, t.phase))
    (step (hello.withFetchWord 64 (encode .hash64Buf).toNat)) = some (0x01, encode .hash64Buf, .run) := by decide
theorem test_take_hash128Buf : look (fun t => (t.status.word, t.opr.op, t.phase))
    (step (four.withFetchWord 64 (encode .hash128Buf).toNat)) = some (0x01, encode .hash128Buf, .run) := by decide
theorem test_take_hash32T16 : look (fun t => (t.status.word, t.opr.op, t.phase))
    (step (hi.withFetchWord 64 (encode .hash32T16).toNat)) = some (0x01, encode .hash32T16, .run) := by decide
theorem test_take_hash64T16 : look (fun t => (t.status.word, t.opr.op, t.phase))
    (step (hi.withFetchWord 64 (encode .hash64T16).toNat)) = some (0x01, encode .hash64T16, .run) := by decide
theorem test_take_hash128T16 : look (fun t => (t.status.word, t.opr.op, t.phase))
    (step (hi.withFetchWord 64 (encode .hash128T16).toNat)) = some (0x01, encode .hash128T16, .run) := by decide
theorem test_take_hash32V4 : look (fun t => (t.status.word, t.opr.op, t.phase))
    (step (four.withFetchWord 64 (encode .hash32V4).toNat)) = some (0x01, encode .hash32V4, .run) := by decide
theorem test_take_hash64V4 : look (fun t => (t.status.word, t.opr.op, t.phase))
    (step (four.withFetchWord 64 (encode .hash64V4).toNat)) = some (0x01, encode .hash64V4, .run) := by decide
theorem test_take_hash128V4 : look (fun t => (t.status.word, t.opr.op, t.phase))
    (step (four.withFetchWord 64 (encode .hash128V4).toNat)) = some (0x01, encode .hash128V4, .run) := by decide
theorem test_take_hash32V8 : look (fun t => (t.status.word, t.opr.op, t.phase))
    (step (eight.withFetchWord 64 (encode .hash32V8).toNat)) = some (0x01, encode .hash32V8, .run) := by decide
theorem test_take_hash64V8 : look (fun t => (t.status.word, t.opr.op, t.phase))
    (step (eight.withFetchWord 64 (encode .hash64V8).toNat)) = some (0x01, encode .hash64V8, .run) := by decide
theorem test_take_hash128V8 : look (fun t => (t.status.word, t.opr.op, t.phase))
    (step (eight.withFetchWord 64 (encode .hash128V8).toNat)) = some (0x01, encode .hash128V8, .run) := by decide
theorem test_take_hash32x4 : look (fun t => (t.status.word, t.opr.op, t.phase))
    (step (batch.withFetchWord 64 (encode .hash32x4).toNat)) = some (0x01, encode .hash32x4, .run) := by decide

/-- V12, P1 step 10. -/
theorem test_done_hash32Buf : look (fun t => (t.hostData, t.status.word))
    (step (thenRead (started .hash32Buf { hello with seed := 0xdeadbeef }) 3 .res0)) = some (0x00000000a8d1436e, 0x02) := by decide +kernel
/-- V11, P1 step 6. -/
theorem test_done_hash64Buf : look (fun t => (t.hostData, t.status.word))
    (step (thenRead (started .hash64Buf { hello with seed := 0xdeadbeefcafebabe }) 3 .res0)) = some (0x885137eaa6a7f5e8, 0x02) := by decide +kernel
/-- V8. -/
theorem test_done_hash128Buf : look (fun t => (t.hostData, t.status.word))
    (step (thenRead (started .hash128Buf four) 3 .res1)) = some (0x7fe7261ea9236d9f, 0x02) := by decide +kernel
/-- K14. -/
theorem test_done_hash32T16 : look (fun t => (t.hostData, t.status.word))
    (step (thenRead (started .hash32T16 hi) 3 .res0)) = some (0x0000000035e3dcf9, 0x02) := by decide +kernel
/-- K15. -/
theorem test_done_hash64T16 : look (fun t => (t.hostData, t.status.word))
    (step (thenRead (started .hash64T16 hi) 3 .res0)) = some (0xdb5eb693f6bc7ff5, 0x02) := by decide +kernel
/-- K16. -/
theorem test_done_hash128T16 : look (fun t => (t.hostData, t.status.word))
    (step (thenRead (started .hash128T16 hi) 3 .res1)) = some (0x9dbf1cea66be20e1, 0x02) := by decide +kernel
/-- K4: VAL0[63:32] ignored. -/
theorem test_done_hash32V4 : look (fun t => (t.hostData, t.status.word))
    (step (thenRead (started .hash32V4 { four with val0 := 0xFFFFFFFF04030201 }) 3 .res0)) = some (0x000000009c3517d8, 0x02) := by decide +kernel
/-- K8. -/
theorem test_done_hash64V4 : look (fun t => (t.hostData, t.status.word))
    (step (thenRead (started .hash64V4 { four with seed := 0xdeadbeefcafebabe }) 3 .res0)) = some (0x444527396cc994a7, 0x02) := by decide +kernel
/-- K9. -/
theorem test_done_hash128V4 : look (fun t => (t.hostData, t.status.word))
    (step (thenRead (started .hash128V4 { four with seed := 0xdeadbeefcafebabe }) 3 .res0)) = some (0x721e26bef55a9542, 0x02) := by decide +kernel
/-- K5. -/
theorem test_done_hash32V8 : look (fun t => (t.hostData, t.status.word))
    (step (thenRead (started .hash32V8 eight) 3 .res0)) = some (0x000000006c110d63, 0x02) := by decide +kernel
/-- K6. -/
theorem test_done_hash64V8 : look (fun t => (t.hostData, t.status.word))
    (step (thenRead (started .hash64V8 eight) 3 .res0)) = some (0xe9b2e9af9245d5ae, 0x02) := by decide +kernel
/-- K7. -/
theorem test_done_hash128V8 : look (fun t => (t.hostData, t.status.word))
    (step (thenRead (started .hash128V8 eight) 3 .res0)) = some (0xa0e8f52dc863c4f2, 0x02) := by decide +kernel
/-- K12. -/
theorem test_done_hash32x4 : look (fun t => (t.hostData, t.status.word))
    (step (thenRead (started .hash32x4 { batch with seed := 0xdeadbeef }) 3 .res2)) = some (0x9530bf83, 0x02) := by decide +kernel

/-! ### One step: errors, drops, accesses, reset -/

/-- K17: the empty window at the top of IN is in bounds. -/
theorem test_bounds_top : look (·.status.word) (exec .hash64Buf top) = some 0x01 := by decide
/-- K18. -/
theorem test_bounds_over : look (·.status.word) (exec .hash64Buf past) = some 0x16 := by decide
/-- K19: 0x801 + 0x800 > 0x1000. -/
theorem test_bounds_t16 :
    look (·.status.word) (exec .hash64T16 { idle with src := 0x801, len := 0x400 }) = some 0x16 := by decide
/-- K20: no wrap. -/
theorem test_bounds_no_wrap : look (·.status.word)
    (exec .hash32Buf { idle with src := 0xffffffffffffffff, len := 2 }) = some 0x16 := by decide
/-- K21 and K22. -/
theorem test_illegal : look (·.status.word) (writeWindow idle 0x00 0x03) = some 0x26 ∧
    look (·.status.word) (writeWindow idle 0x00 0x19) = some 0x26 := by decide
/-- K24: ILLEGAL wins. -/
theorem test_illegal_first : look (·.status.word) (writeWindow past 0x00 0x07) = some 0x26 := by decide
/-- K25: the second command is dropped while the first runs, and LOST stays set after completion. -/
theorem test_lost : look (fun t => (t.status.word, t.opr.op)) (exec .hash64V4 (started .hash32V4 four)) =
      some (0x09, 0x08) ∧
    look (fun t => (t.hostData, t.status.word)) (step (thenRead (started .hash32V4 four).drop 3 .res0)) =
      some (0x000000009c3517d8, 0x0A) := by decide +kernel
/-- P3 step 10, step 9 complete before it: the command is taken. -/
theorem test_complete_then_taken : look (fun t => (t.status.word, t.opr.op, t.res0))
    (step { started .hash64V8 eight with script := [{ core := 3, op := command .hash32V8 }] }) =
      some (0x01, 0x0C, 0xe9b2e9af9245d5ae) := by decide +kernel
/-- P5 steps 7 to 9: a reserved offset ignores a write and reads 0; CMD reads 0. -/
theorem test_reserved_offset : hostAccess (.write 0x80 64 0x1234) four = .next four ∧
    look (·.hostData) (hostAccess (.read 0x80 64) four) = some 0 ∧
    look (·.hostData) (hostAccess (rd .cmd) four) = some 0 := ⟨rfl, by decide, by decide⟩
/-- R214: a 32-bit access is refused. -/
theorem test_refused : hostAccess (.write 0x10 32 1) idle = .refused (.accessOutsideInterface 0x10 32) :=
  rfl
/-- R241: reset abandons the running operation. -/
theorem test_reset_abandons : look (fun t => (t.status.word, t.phase, t.mem == hello.mem))
    (hostAccess .reset running) = some (0, .idle, true) := by decide
/-- R243: a host write in the running window is marked, one beside it is not. -/
theorem test_hazard : look (·.hazard) (hostAccess (.writeIn 0x100 0) running) = some true ∧
    look (·.hazard) (hostAccess (.writeIn 0x10C 0) running) = some true ∧
    look (·.hazard) (hostAccess (.writeIn 0x0FF 0) running) = some false ∧
    look (·.hazard) (hostAccess (.writeIn 0x10D 0) running) = some false := by decide
/-- R40: the last byte of IN exists, the next does not. -/
theorem test_write_in_edge : look (fun t => t.mem.byte 0xFFF) (hostAccess (.writeIn 0xFFF 0x5A) idle) =
      some 0x5A ∧
    hostAccess (.writeIn 0x1000 0x5A) idle = .fault (.inAddressAbsent 0x1000) := ⟨by decide, rfl⟩
/-- R66: HASH64.BUF src, len expands in order, the seed 0. -/
theorem test_expand : expand (.buf .w64 0x100 13 none) =
    [.write 0x10 64 0, .write 0x18 64 0x100, .write 0x20 64 13, .write 0x00 64 0x01] := by decide
/-- R66: `.WAIT` adds POLL. -/
theorem test_expand_wait : expand (.wait (.v4 .w32 7 (some 9))) =
    [.write 0x10 64 9, .write 0x28 64 7, .write 0x00 64 0x08, .poll] := by decide

/-! ### States that meet the hypotheses of the statements -/

theorem idle_inv : Inv idle := inv_of_not_run (by decide) rfl (by decide)
theorem hello_inv : Inv hello := inv_of_not_run (by decide) rfl (by decide)
theorem running_inv : Inv running := inv_started hello_inv (by decide)

theorem holdsAtSrc_of {s : State} {l : List Byte}
    (h : ∀ k : Fin l.length, s.mem.byte (s.src.toNat + k.val) = l[k.val]) : HoldsAtSrc s l := by
  intro k b hk
  obtain ⟨hlt, rfl⟩ := List.getElem?_eq_some_iff.mp hk
  exact h ⟨k, hlt⟩

theorem hello_holds : HoldsAtSrc hello helloBytes := holdsAtSrc_of (by decide)
theorem hi_holds : HoldsAtSrc hi hiBytes := holdsAtSrc_of (by decide)
theorem four_holds : HoldsAtSrc four bytes1234 := holdsAtSrc_of (by decide)

/-- The window of a BUF command that ends exactly at IN_SIZE, one byte short of failing. -/
def edge : State := { idle with src := 0xff0, len := 16 }

theorem fits_of {i : Instr} {s : State} (h : commandFits i s = true) : WindowFits i s :=
  (commandFits_iff i s).mp h
theorem not_fits_of {i : Instr} {s : State} (h : commandFits i s = false) : ¬ WindowFits i s := fun hf => by
  rw [(commandFits_iff i s).mpr hf] at h
  exact Bool.noConfusion h

theorem witness_IllegalValuesAreExactlyTheReservedOnes :
    (∃ e, decode 0x20#64 = .error e) ∧ (∃ e, decode 0xffffffffffffffff#64 = .error e) ∧
    idle.status.busy = false := ⟨⟨.reservedBits, by decide⟩, ⟨.reservedBits, by decide⟩, rfl⟩

theorem witness_AStepRunsTheDecodedCommand :
    (∃ s u : State, s.script = { core := 3, op := .write 0x00 64 0x0D } :: [] ∧
      decode 0x0D#64 = .ok .hash64V8 ∧ coreRun 3 { s with script := [] } = .next u) ∧
    ((0x18 : Nat) < 2 ^ 64 ∧ decode (BitVec.ofNat 64 0x18) = .ok .hash32x4) :=
  ⟨⟨{ idle with script := [{ core := 3, op := .write 0x00 64 0x0D }] }, idle, rfl, by decide, rfl⟩,
    by decide, by decide⟩

theorem witness_ACmdWriteIsDroppedRejectedOrStarted :
    running.status.busy = true ∧ (idle.status.busy = false ∧ ∀ i, (0x0F : Word) ≠ encode i) ∧
    (past.status.busy = false ∧ (0x01 : Word) = encode .hash64Buf ∧ ¬ WindowFits .hash64Buf past) ∧
    (edge.status.busy = false ∧ (0x01 : Word) = encode .hash64Buf ∧ WindowFits .hash64Buf edge) :=
  ⟨rfl, ⟨rfl, fun i => by cases i <;> decide⟩, ⟨rfl, rfl, not_fits_of (by decide)⟩,
    ⟨rfl, rfl, fits_of (by decide)⟩⟩

theorem witness_ADroppedCommandSetsLostAndNothingElse :
    running.status.busy = true ∧
    (idle.status.busy = false ∧ ∃ t, writeWindow idle 0x00 0x08 = .next t) ∧
    (HostOp.poll ≠ .reset ∧ running.drop.status.lost = true ∧
      ∃ t, hostAccess .poll running.drop = .next t) :=
  ⟨rfl, ⟨rfl, _, rfl⟩, by decide, rfl, _, rfl⟩

theorem witness_BoundsIsCheckedOnExactIntegers :
    (idle.status.busy = false ∧ windowBytes past .hash64Buf = some 16 ∧
      past.mem.size < past.src.toNat + 16) ∧
    (windowBytes { idle with len := 0xffffffffffffffff } .hash32T16 = some 0x1fffffffffffffffe ∧
      (0x1000 : Nat) < 0 + 0x1fffffffffffffffe) ∧
    (windowBytes edge .hash64Buf = some 16 ∧ edge.src.toNat + 16 ≤ edge.mem.size) ∧
    (windowBytes top .hash64T16 = some 0 ∧ top.src.toNat + 0 ≤ top.mem.size) ∧
    windowBytes past .hash64V8 = none := by decide

theorem witness_ErrorsAreCheckedInOrder :
    (past.status.busy = false ∧ ∀ i, (0x07 : Word) ≠ encode i) ∧
    (past.status.busy = false ∧ ¬ WindowFits .hash64Buf past) ∧
    (∃ t, writeWindow past 0x00 0x07 = .next t) ∧
    (∃ s t : State, s.script = { core := 3, op := .write 0x00 64 0x0C } :: [] ∧ s.status.busy = true ∧
      coreRun 3 { s with script := [] } = .next t ∧ t.status.busy = false) :=
  ⟨⟨rfl, fun i => by cases i <;> decide⟩, ⟨rfl, not_fits_of (by decide)⟩, ⟨_, rfl⟩,
    ⟨{ started .hash64V8 eight with script := [{ core := 3, op := .write 0x00 64 0x0C }] }, _, rfl, rfl, rfl,
      rfl⟩⟩

theorem witness_OperandWritesDoNotReachARunningOperation :
    Reg.seed.isOperand = true ∧ Reg.val3.isOperand = true ∧ running.status.busy = true := by decide

/-- 256 bytes 00 01 02 .. at 0 (V13, V14). -/
def long : State :=
  { idle with
    mem := { size := 0x1000, cells := cellsAt 0 ((List.range 256).map (BitVec.ofNat 8)) }, len := 256 }

theorem long_holds : ∀ k, k < 256 → long.mem.byte (long.src.toNat + k) = BitVec.ofNat 8 k := by
  decide +kernel

theorem witness_Hash32BufGivesTheDigestOfItsBuffer :
    (edge.status.busy = false ∧ edge.src.toNat + edge.len.toNat ≤ edge.mem.size) ∧
    (past.status.busy = false ∧ past.mem.size < past.src.toNat + past.len.toNat) ∧
    (top.status.busy = false ∧ top.src.toNat ≤ top.mem.size ∧ top.len = 0 ∧ top.seed = 0) ∧
    (∃ s : State, s.status.busy = false ∧ s.src.toNat + 13 ≤ s.mem.size ∧ s.len = 13 ∧
      HoldsAtSrc s helloBytes ∧ s.seed = 0xdeadbeef#64) ∧
    (long.status.busy = false ∧ long.src.toNat + 256 ≤ long.mem.size ∧ long.len.toNat = 256 ∧
      (∀ k, k < 256 → long.mem.byte (long.src.toNat + k) = BitVec.ofNat 8 k) ∧ long.seed = 0) :=
  ⟨by decide, by decide, by decide, ⟨{ hello with seed := 0xdeadbeef }, rfl, by decide, rfl, hello_holds, rfl⟩,
    rfl, by decide, rfl, long_holds, rfl⟩

theorem witness_Hash64BufGivesTheDigestOfItsBuffer :
    (edge.status.busy = false ∧ edge.src.toNat + edge.len.toNat ≤ edge.mem.size) ∧
    (past.status.busy = false ∧ past.mem.size < past.src.toNat + past.len.toNat) ∧
    (top.status.busy = false ∧ top.src.toNat ≤ top.mem.size ∧ top.len = 0 ∧ top.seed = 0) ∧
    ((63 : Nat) < 64) ∧
    (∃ s : State, s.status.busy = false ∧ s.src.toNat + 13 ≤ s.mem.size ∧ s.len = 13 ∧
      HoldsAtSrc s helloBytes ∧ s.seed = 0xdeadbeefcafebabe#64) ∧
    (∃ s : State, s.status.busy = false ∧ s.src.toNat + 31 ≤ s.mem.size ∧ s.len.toNat = 31 ∧
      (∀ k, k < 31 → s.mem.byte (s.src.toNat + k) = BitVec.ofNat 8 k) ∧ s.seed = 0xdeadbeefcafebabe#64) :=
  ⟨by decide, by decide, by decide, by decide,
    ⟨{ hello with seed := 0xdeadbeefcafebabe }, rfl, by decide, rfl, hello_holds, rfl⟩,
    { long with len := 31, seed := 0xdeadbeefcafebabe }, rfl, by decide, rfl, fun k hk => long_holds k (by omega), rfl⟩

theorem witness_Hash128BufGivesTheDigestOfItsBuffer :
    (edge.status.busy = false ∧ edge.src.toNat + edge.len.toNat ≤ edge.mem.size ∧ edge.len.toNat ≤ 16) ∧
    (∃ s : State, s.status.busy = false ∧ s.src.toNat + s.len.toNat ≤ s.mem.size ∧ 17 ≤ s.len.toNat) ∧
    (past.status.busy = false ∧ past.mem.size < past.src.toNat + past.len.toNat) ∧
    (top.status.busy = false ∧ top.src.toNat ≤ top.mem.size ∧ top.len = 0 ∧ top.seed = 0) ∧
    (four.status.busy = false ∧ four.src.toNat + 4 ≤ four.mem.size ∧ four.len = 4 ∧
      HoldsAtSrc four bytes1234 ∧ four.seed = 0) :=
  ⟨by decide, ⟨{ idle with len := 17 }, by decide⟩, by decide, by decide, rfl, by decide, rfl, four_holds, rfl⟩

theorem witness_Hash32TextGivesTheDigestOfItsCodeUnits :
    (hi.status.busy = false ∧ hi.src.toNat + 2 * hi.len.toNat ≤ hi.mem.size) ∧
    (past.status.busy = false ∧ past.mem.size < past.src.toNat + 2 * past.len.toNat) ∧
    (top.status.busy = false ∧ top.src.toNat ≤ top.mem.size ∧ top.len = 0) ∧
    windowBytes { idle with len := 1 } .hash32T16 = some 2 ∧
    windowBytes { idle with len := 8 } .hash32T16 = some 16 ∧
    (hi.status.busy = false ∧ hi.src.toNat + 4 ≤ hi.mem.size ∧ hi.len = 2 ∧ HoldsAtSrc hi hiBytes ∧
      hi.seed = 0) :=
  ⟨by decide, by decide, by decide, rfl, rfl, rfl, by decide, rfl, hi_holds, rfl⟩

theorem witness_Hash64TextGivesTheDigestOfItsCodeUnits :
    (hi.status.busy = false ∧ hi.src.toNat + 2 * hi.len.toNat ≤ hi.mem.size) ∧
    (past.status.busy = false ∧ past.mem.size < past.src.toNat + 2 * past.len.toNat) ∧
    (hi.src.toNat + 4 ≤ hi.mem.size ∧ hi.len = 2 ∧ HoldsAtSrc hi hiBytes ∧ hi.seed = 0) :=
  ⟨by decide, by decide, by decide, rfl, hi_holds, rfl⟩

theorem witness_Hash128TextGivesTheDigestOfItsCodeUnits :
    (∃ s : State, s.status.busy = false ∧ s.src.toNat + 2 * s.len.toNat ≤ s.mem.size ∧ s.len.toNat ≤ 8) ∧
    (∃ s : State, s.status.busy = false ∧ s.src.toNat + 2 * s.len.toNat ≤ s.mem.size ∧ 9 ≤ s.len.toNat) ∧
    (past.status.busy = false ∧ past.mem.size < past.src.toNat + 2 * past.len.toNat) ∧
    (hi.src.toNat + 4 ≤ hi.mem.size ∧ hi.len = 2 ∧ HoldsAtSrc hi hiBytes ∧ hi.seed = 0) :=
  ⟨⟨{ idle with len := 8 }, by decide⟩, ⟨{ idle with len := 9 }, by decide⟩, by decide, by decide, rfl, hi_holds,
    rfl⟩

theorem witness_Hash32ValueOfFourBytesGivesItsDigest :
    (idle.status.busy = false) ∧
    (four.status.busy = false ∧ four.seed = four.seed ∧ four.len = 4 ∧ four.src.toNat + 4 ≤ four.mem.size ∧
      HoldsAtSrc four [four.val0.extractLsb' 0 8, four.val0.extractLsb' 8 8, four.val0.extractLsb' 16 8,
        four.val0.extractLsb' 24 8]) ∧
    (0xFFFFFFFF04030201 : Word).setWidth 32 = four.val0.setWidth 32 ∧
    (four.val0 = 0x04030201#64 ∧ four.seed = 0) :=
  ⟨rfl, ⟨rfl, rfl, rfl, by decide, holdsAtSrc_of (by decide)⟩, by decide, rfl, rfl⟩

theorem witness_Hash64ValueOfFourBytesGivesItsDigest :
    (0xFFFFFFFF04030201 : Word).setWidth 32 = four.val0.setWidth 32 ∧
    (four.status.busy = false ∧ four.val0 = 0x04030201#64 ∧ four.seed = 0) ∧
    (∃ s : State, s.status.busy = false ∧ s.val0 = 0x04030201#64 ∧ s.seed = 0xdeadbeefcafebabe#64) :=
  ⟨by decide, by decide, { four with seed := 0xdeadbeefcafebabe }, by decide⟩

theorem witness_Hash128ValueOfFourBytesGivesItsDigest :
    four.status.busy = false ∧ four.val0 = 0x04030201#64 ∧ four.seed = 0 := by decide

theorem witness_Hash32ValueOfEightBytesGivesItsDigest :
    eight.status.busy = false ∧ eight.val0 = 0x0807060504030201#64 ∧ eight.seed = 0 := by decide
theorem witness_Hash64ValueOfEightBytesGivesItsDigest :
    eight.status.busy = false ∧ eight.val0 = 0x0807060504030201#64 ∧ eight.seed = 0 := by decide
theorem witness_Hash128ValueOfEightBytesGivesItsDigest :
    eight.status.busy = false ∧ eight.val0 = 0x0807060504030201#64 ∧ eight.seed = 0 := by decide

theorem witness_BatchGivesFourIndependentDigests :
    (0xFFFFFFFF00000001 : Word).setWidth 32 = (1 : Word).setWidth 32 ∧
    (idle.status.busy = false ∧ idle.val0 = 0 ∧ idle.val1 = 0 ∧ idle.val2 = 0 ∧ idle.val3 = 0 ∧
      idle.seed = 0) ∧
    (batch.status.busy = false ∧ batch.val0 = 0x04030201#64 ∧ batch.val1 = 0xdeadbeef#64 ∧
      batch.val2 = 0xffffffff#64 ∧ batch.val3 = 0 ∧ batch.seed = 0) := by decide

theorem witness_OperandsAreExactLengthsAndBytes :
    Instr.hash32Buf.fields.shape = 0#2 ∧ Instr.hash128T16.fields.shape = 1#2 ∧
    Instr.hash32x4.fields.shape = 2#2 ∧ Instr.hash64V8.fields.shape = 3#2 := by decide

theorem witness_FixedValuesHashAsBuffers :
    (four.status.busy = false ∧ four.seed = four.seed ∧ four.len = 4 ∧ four.src.toNat + 4 ≤ four.mem.size ∧
      ∀ k, k < 4 → four.mem.byte (four.src.toNat + k) = four.val0.extractLsb' (8 * k) 8) ∧
    (eight.status.busy = false ∧ eight.seed = eight.seed ∧ eight.len = 8 ∧
      eight.src.toNat + 8 ≤ eight.mem.size ∧
      ∀ k, k < 8 → eight.mem.byte (eight.src.toNat + k) = eight.val0.extractLsb' (8 * k) 8) := by decide

theorem witness_ABatchIsFourSingleCommands : batch.status.busy = false := rfl

/-- The same bytes at another address, after another digest. -/
def helloElsewhere : State :=
  { idle with
    mem := { size := 0x1000, cells := cellsAt 0x300 helloBytes }, src := 0x300, len := 13
    res0 := 0x1234, val0 := 5, phase := .doneOk, status := statusDone }

theorem witness_EqualInputsGiveEqualDigests :
    (hello.status.busy = false ∧ helloElsewhere.status.busy = false ∧ WindowFits .hash64Buf hello ∧
      WindowFits .hash64Buf helloElsewhere ∧ SameSeedBits .hash64Buf hello.seed helloElsewhere.seed ∧
      (∀ n, windowBytes hello .hash64Buf = some n → windowBytes helloElsewhere .hash64Buf = some n ∧
        ∀ k, k < n → hello.mem.byte (hello.src.toNat + k) =
          helloElsewhere.mem.byte (helloElsewhere.src.toNat + k)) ∧
      SameValueBytes .hash64Buf hello helloElsewhere) ∧
    (WindowFits .hash32V4 four ∧ SameSeedBits .hash32V4 0xFFFFFFFF00000000 0 ∧
      windowBytes four .hash32V4 = none ∧
      SameValueBytes .hash32V4 four { four with val0 := 0xFFFFFFFF04030201, val1 := 7 }) ∧
    SameValueBytes .hash64V8 eight { eight with val1 := 7 } ∧
    SameValueBytes .hash32x4 batch { batch with val3 := 0x8000000000000000 } := by
  refine ⟨⟨rfl, rfl, fits_of (by decide), fits_of (by decide), rfl, fun n hn => ?_, trivial⟩,
    ⟨fits_of (by decide), ?_, rfl, ?_⟩, rfl, ?_⟩
  · have hn' : n = 13 := (Option.some.inj hn).symm
    subst hn'
    exact ⟨rfl, by decide⟩
  · simp [SameSeedBits, Instr.fields]
  · show four.val0.setWidth 32 = (0xFFFFFFFF04030201 : Word).setWidth 32
    decide
  · show _ ∧ _ ∧ _ ∧ batch.val3.setWidth 32 = (0x8000000000000000 : Word).setWidth 32
    decide

theorem witness_UnusedOperandHalvesHaveNoEffect :
    (Instr.hash32Buf.fields.width = 0#2 ∧ edge.status.busy = false ∧ WindowFits .hash32Buf edge ∧
      (0xFFFFFFFF00000000 : Word).setWidth 32 = edge.seed.setWidth 32) ∧
    (Instr.hash32x4.fields.shape = 2#2 ∧ batch.status.busy = false ∧
      (0xFFFFFFFF04030201 : Word).setWidth 32 = batch.val0.setWidth 32 ∧
      (0x00000001deadbeef : Word).setWidth 32 = batch.val1.setWidth 32 ∧
      (0x80000000ffffffff : Word).setWidth 32 = batch.val2.setWidth 32 ∧
      (0x0000000100000000 : Word).setWidth 32 = batch.val3.setWidth 32) :=
  ⟨⟨rfl, rfl, fits_of (by decide), by decide⟩, by decide⟩

theorem witness_CommandsChangeOnlyWhatTheRulesName : Inv running := running_inv

/-- The job of `running`: the 13 bytes of `hello`. -/
def helloJob : Job := jobOf .hash64Buf running.opr running.mem

/-- `running` after its seed init and its dispatch. -/
def atFinal : State := running.setDp (helloJob.advance (helloJob.advance running.dp))

theorem atFinal_inv : Inv atFinal :=
  have h1 : coreStep running = .next (running.setDp (helloJob.advance running.dp)) := rfl
  have h2 : coreStep (running.setDp (helloJob.advance running.dp)) = .next atFinal := rfl
  inv_coreStep (inv_coreStep running_inv h1) h2

theorem atFinal_step : coreStep atFinal = .next (atFinal.finish helloJob) := rfl

theorem witness_EveryOperationCompletesWithItsDigest :
    (Inv running ∧ running.phase = .run ∧ running.hazard = false) ∧
    (∃ s t, Inv s ∧ s.phase = .run ∧ step s = .next t ∧ t.phase ≠ .run ∧ s.script = []) ∧
    (∃ s t, Inv s ∧ s.phase = .run ∧ step s = .next t ∧ t.phase ≠ .run ∧
      s.script = [{ core := 1, op := .idle }]) ∧
    (∃ s t, Inv s ∧ s.phase = .run ∧ step s = .next t ∧ t.phase ≠ .run ∧
      s.script = [{ core := 0, op := .reset }]) := by
  refine ⟨⟨running_inv, rfl, rfl⟩, ?_, ?_, ?_⟩
  · exact ⟨atFinal, atFinal.finish helloJob, atFinal_inv, rfl, (step_nil rfl).trans atFinal_step, by decide +kernel, rfl⟩
  · refine ⟨{ atFinal with script := [{ core := 1, op := .idle }] }, atFinal.finish helloJob,
      inv_of_same atFinal_inv rfl rfl rfl rfl rfl rfl, rfl, ?_, by decide +kernel, rfl⟩
    rw [step_cons rfl]
    show andThen (coreRun 1 atFinal) (hostAccess .idle) = _
    rw [coreRun_succ_of_step atFinal_step]
    rfl
  · exact ⟨{ running with script := [{ core := 0, op := .reset }] }, running.onReset,
      inv_of_same running_inv rfl rfl rfl rfl rfl rfl, rfl, rfl, by decide, rfl⟩

theorem witness_EveryOperationEnds : Inv running ∧ running.phase = .run := ⟨running_inv, rfl⟩

theorem witness_WritingTheWindowMakesTheDigestFree :
    (Inv running ∧ running.phase = .run ∧ decode running.opr.op = .ok .hash64Buf ∧
      (jobOf .hash64Buf running.opr running.mem).windowed = true ∧
      running.opr.src.toNat ≤ 0x10C ∧
      0x10C < running.opr.src.toNat + (jobOf .hash64Buf running.opr running.mem).nbytes) ∧
    (running.hazard = false ∧ 0x10D < running.mem.size ∧ 0x0FF < running.opr.src.toNat ∧
      running.opr.src.toNat + (jobOf .hash64Buf running.opr running.mem).nbytes ≤ 0x10D) ∧
    (Inv (startedState .hash64V4 four) ∧
      (jobOf .hash64V4 (startedState .hash64V4 four).opr four.mem).windowed = false ∧
      (startedState .hash64V4 four).opr.src.toNat ≤ 2 ∧ 2 < four.mem.size) :=
  ⟨⟨running_inv, by decide⟩, by decide, inv_started (inv_of_not_run (by decide) rfl (by decide)) (by decide), by decide⟩

theorem witness_ResultsChangeOnlyAtCompletionOrReset :
    (HostOp.poll ≠ .reset ∧ ∃ t, hostAccess .poll running = .next t) ∧
    (Inv running ∧ ∃ t, coreStep running = .next t) :=
  ⟨⟨by decide, _, rfl⟩, running_inv, coreStep_next running_inv⟩

theorem witness_TheRegisterWindowReadsAndWritesAsListed :
    Reg.len.isOperand = true ∧ (Reg.res0.isOperand = false ∧ Reg.res0 ≠ .cmd) ∧
    (Reg.status.isOperand = false ∧ Reg.status ≠ .cmd) ∧
    ((0x68 : Nat) ≤ 0x68 ∧ (0x68 : Nat) ≤ 0xFF) ∧ ((0x68 : Nat) ≤ 0xFF ∧ (0xFF : Nat) ≤ 0xFF) ∧
    ¬ ((32 : Nat) = 64 ∧ (0x10 : Nat) % 8 = 0 ∧ (0x10 : Nat) ≤ 0xFF) ∧
    ¬ ((64 : Nat) = 64 ∧ (0x12 : Nat) % 8 = 0 ∧ (0x12 : Nat) ≤ 0xFF) ∧
    ¬ ((64 : Nat) = 64 ∧ (0x100 : Nat) % 8 = 0 ∧ (0x100 : Nat) ≤ 0xFF) := by decide

theorem witness_StatusReadsAsItsFields : Inv idle ∧ idle.status.err = false ∧
    Inv (rejectedState 0x07 errIllegal idle) ∧ (rejectedState 0x07 errIllegal idle).status.err = true :=
  ⟨idle_inv, rfl, inv_rejected idle_inv (.inr rfl), rfl⟩

theorem witness_MisfitAccessesAreRefused :
    ¬ ((8 : Nat) = 64 ∧ (0x10 : Nat) % 8 = 0 ∧ (0x10 : Nat) ≤ 0xFF) ∧
    ((0x68 : Nat) ≤ 0x68 ∧ (0x68 : Nat) ≤ 0xF8 ∧ (0x68 : Nat) % 8 = 0) ∧
    ((0x68 : Nat) ≤ 0xF8 ∧ (0xF8 : Nat) ≤ 0xF8 ∧ (0xF8 : Nat) % 8 = 0) := by decide

theorem witness_AccessesHaveNoOtherSideEffects :
    (∃ t, hostAccess (.read 0xF8 64) four = .next t) ∧ Reg.src.isOperand = true ∧ Reg.val1 ≠ Reg.src ∧
    (Reg.status.isOperand = false ∧ Reg.status ≠ .cmd) ∧
    ((0x68 : Nat) ≤ 0x68 ∧ (0x68 : Nat) ≤ 0xF8 ∧ (0x68 : Nat) % 8 = 0) :=
  ⟨⟨_, rfl⟩, by decide⟩

theorem witness_EveryStepKeepsTheInvariant : ∃ t, Inv running ∧ step running = .next t :=
  let ⟨t, ht⟩ := coreStep_next running_inv
  ⟨t, running_inv, ht⟩

theorem witness_StepsStopOnlyOnMisfitHostAccesses : Inv idle := idle_inv

theorem witness_InputBytesReadBackAsWritten :
    hello.mem.wf = true ∧ (0 : Nat) < hello.mem.size ∧ (0xFFF : Nat) < hello.mem.size ∧
    (0x101 : Nat) ≠ 0x100 := by decide

theorem witness_HostWritesOfInputReachThatByteOnly :
    (0xFFF : Nat) < hello.mem.size ∧ hello.mem.size ≤ 0x1000 ∧ (0x100 : Nat) ≠ 0xFFF := by decide

theorem witness_PackedBytesAreTheirLittleEndianValue : (3 : Nat) ≤ 3 ∧ (0 : Nat) ≤ 3 := by decide

theorem witness_PackedWindowsHaveTheirListedForms :
    ((5 : Nat) ≤ 5 ∧ (7 : Nat) ≤ 7) ∧ ((9 : Nat) ≤ 9 ∧ (16 : Nat) ≤ 16) ∧ ((4 : Nat) ≤ 4 ∧ (4 : Nat) ≤ 16) ∧
    (8 : Nat) ∈ [0, 0 + 16 - 4, 0 + 4 * (16 / 8), 0 + 16 - 4 - 4 * (16 / 8)] := by decide

theorem witness_TheSeedInitializerMultipliesTheMaskedLanes :
    (bufJob .m64 Opr.reset idle.mem).mixer = .m64 ∧ Datapath.reset.stage = .init := by decide

theorem witness_TheOtherInitializersAddConstantLanes :
    (bufJob .m32 Opr.reset idle.mem).mixer = .m32 ∧ (bufJob .m128 Opr.reset idle.mem).mixer = .m128 ∧
    Datapath.reset.stage = .init := by decide

/-- Two seeds with the same initialized lanes: the first factor of the product is 0. -/
theorem witness_TheSeedActsThroughTheInitializerOnly :
    (C2 &&& Val10 ≠ C2 &&& Val10 ||| 1 ∧
      init64 (C2 &&& Val01).toNat (C2 &&& Val10) = init64 (C2 &&& Val01).toNat (C2 &&& Val10 ||| 1)) ∧
    init32 (C2_32 &&& Val01_32).toNat (C2_32 &&& Val10_32) =
      init32 (C2_32 &&& Val01_32).toNat (C2_32 &&& Val10_32 ||| 1) ∧
    init128 (C2 &&& Val01).toNat (C2 &&& Val10) = init128 (C2 &&& Val01).toNat (C2 &&& Val10 ||| 1) := by decide

theorem witness_DigestsDependOnTheInputBytesOnly :
    ∀ k, k < 17 → seq k = (fun i => if i < 17 then BitVec.ofNat 8 i else 0xFF : Input) k := by decide

theorem witness_TheLongDigestIsAFunctionThatMeetsTheVector :
    (17 ≤ 17 ∧ bytesOf seq 17 = bytesOf (fun i => if i < 17 then BitVec.ofNat 8 i else 0xFF) 17) ∧
    ∀ k, k < 256 → seq k = BitVec.ofNat 8 k := ⟨by decide, fun _ _ => rfl⟩

theorem witness_PseudoInstructionsExpandToTheirWrites :
    (∃ s : State, s.script = scriptOf 0 (expand (.buf .w64 0x100 13 none)) ++ []) ∧
    (∃ s : State, s.script = scriptOf 0 (expand (.t16 .w32 0x200 2 (some 1))) ++ []) ∧
    (∃ s : State, s.script = scriptOf 0 (expand (.v4 .w128 7 none)) ++ []) ∧
    (∃ s : State, s.script = scriptOf 0 (expand (.v8 .w32 7 none)) ++ []) ∧
    (∃ s : State, s.script = scriptOf 0 (expand (.x4 1 2 3 4 (some 5))) ++ []) :=
  ⟨⟨{ idle with script := scriptOf 0 (expand (.buf .w64 0x100 13 none)) }, (List.append_nil _).symm⟩,
    ⟨{ idle with script := scriptOf 0 (expand (.t16 .w32 0x200 2 (some 1))) }, (List.append_nil _).symm⟩,
    ⟨{ idle with script := scriptOf 0 (expand (.v4 .w128 7 none)) }, (List.append_nil _).symm⟩,
    ⟨{ idle with script := scriptOf 0 (expand (.v8 .w32 7 none)) }, (List.append_nil _).symm⟩,
    ⟨{ idle with script := scriptOf 0 (expand (.x4 1 2 3 4 (some 5))) }, (List.append_nil _).symm⟩⟩

theorem witness_PollingEndsWithTheBlockNotBusy :
    ∃ s : State, Inv s ∧ s.script = { core := 0, op := .poll } :: [] ∧ s.phase = .run :=
  ⟨{ running with script := [{ core := 0, op := .poll }] }, inv_of_same running_inv rfl rfl rfl rfl rfl rfl, rfl,
    rfl⟩

end Sys2Proof.Tests
end

section
/-! PROOFS. The state and its registers (spec/10_state.md R20, R21, R22): every step keeps the invariant, RES
changes only at a completion or at reset, the register window, and the STATUS word. -/

namespace Sys2Proof.Machine

/-! ### Every step keeps the invariant -/

/-- Taking a slot off the host's script touches nothing the invariant reads. -/
theorem inv_withScript {s : State} (h : Inv s) (l : List Slot) : Inv { s with script := l } :=
  inv_of_same h rfl rfl rfl rfl rfl rfl

/-- Settles O41: a step is one sequencer step, or the sequencer steps of a slot and then its host access, and
each of these keeps the invariant. -/
theorem everyStepKeepsTheInvariant : Obligations.EveryStepKeepsTheInvariant := by
  intro s u hinv hstep
  rcases step_cases hstep with ⟨_, hcore⟩ | ⟨t, rest, v, _, hrun, haccess⟩
  · exact inv_coreStep hinv hcore
  · exact inv_hostAccess (inv_coreRun t.core (inv_withScript hinv rest) hrun) haccess

/-! ### RES0 to RES3 -/

/-- RES0 to RES3 as one record (R182). -/
def State.results (s : State) : Res := ⟨s.res0, s.res1, s.res2, s.res3⟩

theorem results_eq_iff {s t : State} : t.results = s.results ↔
    t.res0 = s.res0 ∧ t.res1 = s.res1 ∧ t.res2 = s.res2 ∧ t.res3 = s.res3 := by
  simp [State.results]

@[simp] theorem writeReg_results (s : State) (r : Reg) (v : Word) :
    (s.writeReg r v).results = s.results := by
  obtain ⟨_, h0, h1, h2, h3, _⟩ := writeReg_frame s r v
  exact results_eq_iff.mpr ⟨h0, h1, h2, h3⟩

/-- A write of the window leaves RES alone, whether it is a command or not (R22, R246). -/
theorem writeWindow_results {s t : State} {offset : Nat} {v : Word}
    (h : writeWindow s offset v = .next t) : t.results = s.results := by
  rcases writeWindow_cases s offset v with ⟨_, _, e⟩ | ⟨i, _, _, _, _, e⟩ | ⟨code, _, _, _, e⟩ |
      ⟨_, e | ⟨r, e⟩⟩ <;> rw [e] at h <;> obtain rfl := Host.Outcome.next.inj h
  · rfl
  · rfl
  · rfl
  · rfl
  · exact writeReg_results s r v

/-- No host access but reset changes RES (R22, R246). -/
theorem hostAccess_results {op : HostOp} {s t : State} (hop : op ≠ .reset)
    (h : hostAccess op s = .next t) : t.results = s.results := by
  rcases hostAccess_cases h with ⟨_, _, _, _, hw⟩ | ⟨_, _, _, rfl⟩ | ⟨_, _, rfl⟩ | ⟨_, _, rfl⟩ |
      ⟨_, _, _, _, rfl⟩ | ⟨rfl, _⟩ | ⟨_, rfl⟩
  · exact writeWindow_results hw
  · rfl
  · rfl
  · rfl
  · rfl
  · exact absurd rfl hop
  · rfl

@[simp] theorem finish_phase (s : State) (j : Job) : (s.finish j).phase = .doneOk := by
  unfold State.finish
  split <;> rfl

/-- A sequencer step leaves RES alone or brings a running operation to DONE_OK. -/
theorem coreStep_results {s t : State} (h : coreStep s = .next t) :
    t.results = s.results ∨ (s.phase = .run ∧ t.phase = .doneOk) := by
  rcases coreStep_cases h with ⟨_, rfl⟩ | ⟨i, hp, _, _, ⟨_, rfl⟩ | ⟨_, rfl⟩⟩
  · exact .inl rfl
  · exact .inr ⟨hp, finish_phase ..⟩
  · exact .inl rfl

/-- STATUS of a running operation (R21, R180). -/
theorem status_of_run {s : State} (h : Inv s) (hp : s.phase = .run) :
    s.status.busy = true ∧ s.status.done = false ∧ s.status.err = false ∧ s.status.errCode = 0#4 := by
  have hfits : StatusFits s.phase s.status := h.2.1
  rwa [hp] at hfits

/-- In a completed state without a hazard RES holds the digest of the operands that ran (R181). -/
theorem results_of_completedFrom {s u : State} (h : CompletedFrom s u) :
    ∃ i, decode s.opr.op = .ok i ∧
      (s.hazard = false → u.results = (jobOf i s.opr s.mem).digest) := by
  obtain ⟨_, _, i, hi, hdigest⟩ := h
  refine ⟨i, hi, fun hz => ?_⟩
  obtain ⟨d, rfl⟩ := hdigest hz
  rfl

/-- Settles O34: host accesses leave RES alone, and a sequencer step that does not has completed the
operation that ran. -/
theorem resultsChangeOnlyAtCompletionOrReset : Obligations.ResultsChangeOnlyAtCompletionOrReset := by
  refine ⟨fun op s t hop h => results_eq_iff.mp (hostAccess_results hop h), fun s t hinv h => ?_⟩
  rcases coreStep_results h with hsame | ⟨hp, hd⟩
  · exact .inl (results_eq_iff.mp hsame)
  · have hcompleted : CompletedFrom s t :=
      completedFrom_of_coreRun (n := 1) hinv hp ((coreRun_succ_of_step h 0).trans rfl) hd
    obtain ⟨hbusy, _, herr, _⟩ := status_of_run hinv hp
    have ⟨_, hstatus, _⟩ := hcompleted
    refine .inr ⟨hp, hd, hbusy, ?_, ?_, ?_, results_of_completedFrom hcompleted⟩ <;> rw [hstatus]
    exact herr

/-! ### The register window -/

@[simp] theorem readWindow_regOffset (s : State) (r : Reg) :
    s.readWindow (regOffset r) = s.readReg r := by
  simp [State.readWindow]

/-- An operand register reads back what was written. -/
theorem readReg_writeReg_same (s : State) {r : Reg} (v : Word) (hr : r.isOperand = true) :
    (s.writeReg r v).readReg r = v := by
  cases r
  case seed | src | len | val0 | val1 | val2 | val3 => rfl
  all_goals cases hr

/-- A register write is not seen in any other register. -/
theorem readReg_writeReg_other (s : State) {r q : Reg} (v : Word) (hq : q ≠ r) :
    (s.writeReg r v).readReg q = s.readReg q := by
  cases r
  case cmd | status | res0 | res1 | res2 | res3 => rfl
  all_goals cases q <;> simp [State.readReg, State.writeReg] at hq ⊢

/-- A write of CMD, STATUS or RES is no store. -/
theorem writeReg_of_not_isOperand (s : State) {r : Reg} (v : Word) (hr : r.isOperand = false) :
    s.writeReg r v = s := by
  cases r
  case cmd | status | res0 | res1 | res2 | res3 => rfl
  all_goals cases hr

theorem regOffset_eq_zero_iff (r : Reg) : regOffset r = 0x00 ↔ r = .cmd := by
  cases r <;> decide

/-- A window write at the offset of a register other than CMD is a write of that register. -/
theorem writeWindow_regOffset (s : State) {r : Reg} (v : Word) (hr : r ≠ .cmd) :
    writeWindow s (regOffset r) v = .next (s.writeReg r v) := by
  rw [writeWindow_other v (mt (regOffset_eq_zero_iff r).mp hr), regAt_regOffset]

theorem ne_cmd_of_isOperand {r : Reg} (hr : r.isOperand = true) : r ≠ .cmd := by
  rintro rfl
  cases hr

theorem regOffset_lt (r : Reg) : regOffset r < 0x68 := by
  cases r <;> decide

/-- No register stands at or above 0x68. -/
theorem regAt_reserved {offset : Nat} (h : 0x68 ≤ offset) : regAt offset = none := by
  cases hr : regAt offset with
  | none => rfl
  | some r =>
    have hlt := regOffset_lt r
    have heq := regAt_eq_some hr
    omega

theorem readWindow_reserved (s : State) {offset : Nat} (h : 0x68 ≤ offset) :
    s.readWindow offset = 0#64 := by
  simp [State.readWindow, regAt_reserved h]

theorem writeWindow_reserved (s : State) {offset : Nat} (v : Word) (h : 0x68 ≤ offset) :
    writeWindow s offset v = .next s := by
  rw [writeWindow_other v (by omega), regAt_reserved h]

/-- Every register reads 0 after reset (R20, R240). -/
theorem reset_readReg (r : Reg) : State.reset.readReg r = 0#64 := by
  cases r
  case status => decide
  all_goals rfl

/-- A window access outside the interface is refused, read or write (R214). -/
theorem hostAccess_refused_of_misfit (s : State) {offset width : Nat} (v : Word)
    (h : ¬ (width = 64 ∧ offset % 8 = 0 ∧ offset ≤ 0xFF)) :
    hostAccess (.read offset width) s = .refused (.accessOutsideInterface offset width) ∧
    hostAccess (.write offset width v) s = .refused (.accessOutsideInterface offset width) := by
  have hout : ¬ inInterface offset width = true := mt (inInterface_iff offset width).mp h
  exact ⟨if_neg hout, if_neg hout⟩

/-- Settles O35, clause by clause from the lemmas on the window above. -/
theorem theRegisterWindowReadsAndWritesAsListed :
    Obligations.TheRegisterWindowReadsAndWritesAsListed := by
  refine ⟨rfl, readWindow_regOffset, fun _ => rfl, fun s r v hr => ?_, fun s r v hr hcmd => ?_,
    fun s offset v hlo _ => ⟨readWindow_reserved s hlo, writeWindow_reserved s v hlo⟩, reset_readReg,
    fun s offset width v h => hostAccess_refused_of_misfit s v h⟩
  · exact ⟨s.writeReg r v, writeWindow_regOffset s v (ne_cmd_of_isOperand hr),
      readReg_writeReg_same s v hr, fun q hq => readReg_writeReg_other s v hq⟩
  · rw [writeWindow_regOffset s v hcmd, writeReg_of_not_isOperand s v hr]

/-! ### STATUS -/

/-- Bit by bit, STATUS is BUSY, DONE, ERR, LOST, and from bit 4 on ERRCODE, which is 0 above bit 7. -/
theorem Status.word_getLsbD (s : Status) :
    s.word.getLsbD 0 = s.busy ∧ s.word.getLsbD 1 = s.done ∧ s.word.getLsbD 2 = s.err ∧
      s.word.getLsbD 3 = s.lost ∧ ∀ k, s.word.getLsbD (4 + k) = s.errCode.getLsbD k := by
  simp only [Status.word, BitVec.getLsbD_append, BitVec.getLsbD_ofBool, BitVec.getLsbD_zero]
  refine ⟨rfl, rfl, rfl, rfl, fun k => ?_⟩
  have hk : 4 + k - 1 - 1 - 1 - 1 = k := by omega
  rw [if_neg (by omega), if_neg (by omega), if_neg (by omega), if_neg (by omega), hk]
  split
  · rfl
  · exact (BitVec.getLsbD_of_ge _ _ (by omega)).symm

theorem Status.word_errCode (s : Status) : s.word.extractLsb' 4 4 = s.errCode := by
  obtain ⟨_, _, _, _, hcode⟩ := s.word_getLsbD
  ext i hi
  rw [BitVec.getElem_extractLsb', hcode, BitVec.getLsbD_eq_getElem hi]

theorem Status.word_above (s : Status) : s.word.extractLsb' 8 56 = 0#56 := by
  obtain ⟨_, _, _, _, hcode⟩ := s.word_getLsbD
  ext i hi
  rw [BitVec.getElem_extractLsb', show 8 + i = 4 + (4 + i) by omega, hcode,
    BitVec.getLsbD_of_ge _ _ (by omega), BitVec.getElem_zero]

/-- In every legal STATUS, ERRCODE is 0 without ERR, and BOUNDS or ILLEGAL with it (R21, R210). -/
theorem errCode_of_statusFits {p : Phase} {s : Status} (h : StatusFits p s) :
    (s.err = false → s.errCode = 0#4) ∧ (s.err = true → s.errCode = 1#4 ∨ s.errCode = 2#4) := by
  cases p
  case idle =>
    obtain rfl : s = Status.reset := h
    decide
  case run | doneOk =>
    obtain ⟨_, _, herr, hcode⟩ := h
    simp [herr, hcode]
  case doneErr =>
    rcases h with rfl | rfl <;> decide

/-- Settles O36: the fields of the word, and of the legal combinations: an operation that is BUSY is in RUN,
where DONE is clear. -/
theorem statusReadsAsItsFields : Obligations.StatusReadsAsItsFields := by
  refine ⟨fun s => ?_, fun s hinv => ?_⟩
  · obtain ⟨hbusy, hdone, herr, hlost, _⟩ := s.status.word_getLsbD
    exact ⟨hbusy, hdone, herr, hlost, s.status.word_errCode, s.status.word_above⟩
  · obtain ⟨hclear, hset⟩ := errCode_of_statusFits hinv.2.1
    refine ⟨fun ⟨hbusy, hdone⟩ => ?_, hclear, hset, busy_iff_run hinv⟩
    obtain ⟨_, hnot, _⟩ := status_of_run hinv ((busy_iff_run hinv).mp hbusy)
    rw [hnot] at hdone
    cases hdone

end Sys2Proof.Machine
end

section
/-! PROOFS. IN and the loads that read it (spec/20_memory.md R40 to R43), the operand forms of the commands
(spec/45_commands.md R183 to R185), and what the host's accesses leave unchanged (R48, R50, R54). -/

namespace Sys2Proof.Machine

/-! ### Bytes of IN -/

/-- Settles O43, from the laws of a write of IN: it keeps the form, and a read of it is by cases on the
address. -/
theorem inputBytesReadBackAsWritten : Obligations.InputBytesReadBackAsWritten :=
  fun m a b hwf ha =>
    ⟨InMem.wf_write b hwf ha, m.byte_write_same a b, m.size_write a b, fun _ hx => m.byte_write_other b hx⟩

/-- The host's write of IN stores no register. -/
@[simp] theorem readReg_hostWriteIn (s : State) (a : Nat) (b : Byte) (r : Reg) :
    (s.hostWriteIn a b).readReg r = s.readReg r := by
  cases r <;> rfl

/-- The host reaches exactly the addresses below IN_SIZE (R40). -/
theorem hostAccess_writeIn (s : State) (a : Nat) (b : Byte) :
    hostAccess (.writeIn a b) s =
      if a < s.mem.size then .next (s.hostWriteIn a b) else .fault (.inAddressAbsent a) := by
  simp [hostAccess]

/-- Settles O44: inside IN the answer is the state with that byte written, whose other fields are as they
were. -/
theorem hostWritesOfInputReachThatByteOnly : Obligations.HostWritesOfInputReachThatByteOnly := by
  refine fun s a b => ⟨fun ha => ?_, fun ha => ?_⟩
  · exact ⟨s.hostWriteIn a b, (hostAccess_writeIn s a b).trans (if_pos ha), s.mem.byte_write_same a b,
      fun _ hx => s.mem.byte_write_other b hx, readReg_hostWriteIn s a b, rfl, rfl, rfl, rfl⟩
  · exact (hostAccess_writeIn s a b).trans (if_neg (Nat.not_lt.mpr ha))

/-! ### Little-endian reads -/

theorem memRead_eq_sum (m : Input) (off n : Nat) :
    memRead m off n = ∑ i ∈ Finset.range n, (m (off + i)).toNat * 2 ^ (8 * i) := by
  induction n with
  | zero => rfl
  | succ n ih => rw [memRead, ih, Finset.sum_range_succ]

/-- A read of `n + k` bytes is one of the first `n` and, above it, one of the next `k`. -/
theorem memRead_add (m : Input) (off n k : Nat) :
    memRead m off (n + k) = memRead m off n + 2 ^ (8 * n) * memRead m (off + n) k := by
  induction k with
  | zero => rfl
  | succ k ih =>
    rw [← Nat.add_assoc, memRead, ih, memRead, Nat.mul_add 8, Nat.pow_add, ← Nat.add_assoc off]
    ring

@[simp] theorem memRead_one (m : Input) (off : Nat) : memRead m off 1 = (m off).toNat := by
  simp [memRead]

theorem memRead_lt (m : Input) (off n : Nat) : memRead m off n < 2 ^ (8 * n) := by
  induction n with
  | zero => exact Nat.one_pos
  | succ n ih =>
    have hbyte : (m (off + n)).toNat + 1 ≤ 2 ^ 8 := (m (off + n)).isLt
    calc memRead m off (n + 1)
      _ < 2 ^ (8 * n) + (m (off + n)).toNat * 2 ^ (8 * n) := Nat.add_lt_add_right ih _
      _ = ((m (off + n)).toNat + 1) * 2 ^ (8 * n) := by ring
      _ ≤ 2 ^ 8 * 2 ^ (8 * n) := Nat.mul_le_mul_right _ hbyte
      _ = 2 ^ (8 * (n + 1)) := by ring

/-- The low byte of a read is its first byte (R42). -/
theorem memRead_succ_mod (m : Input) (off n : Nat) : memRead m off (n + 1) % 2 ^ 8 = (m off).toNat := by
  rw [Nat.add_comm, memRead_add, memRead_one, Nat.add_mul_mod_self_left, Nat.mod_eq_of_lt (m off).isLt]

@[simp] theorem toNat_loadU32 (m : Input) (off : Nat) : (loadU32 m off).toNat = memRead m off 4 := by
  rw [loadU32, BitVec.toNat_ofNat]
  exact Nat.mod_eq_of_lt (memRead_lt m off 4)

@[simp] theorem toNat_loadU64 (m : Input) (off : Nat) : (loadU64 m off).toNat = memRead m off 8 := by
  rw [loadU64, BitVec.toNat_ofNat]
  exact Nat.mod_eq_of_lt (memRead_lt m off 8)

/-- Two halves, the high one written as a shift. -/
theorem setWidth_or_shiftLeft (lo hi : Half) :
    lo.setWidth 64 ||| (hi.setWidth 64 <<< 32) = hi ++ lo := by
  rw [BitVec.or_comm, ← BitVec.setWidth_append_eq_shiftLeft_setWidth_or]
  exact BitVec.setWidth_eq _

theorem toNat_half_append (hi lo : Half) : (hi ++ lo : Word).toNat = lo.toNat + 2 ^ 32 * hi.toNat := by
  rw [BitVec.toNat_append, ← Nat.shiftLeft_add_eq_or_of_lt lo.isLt, Nat.shiftLeft_eq, Nat.add_comm,
    Nat.mul_comm]

/-- An 8-byte load is two 4-byte loads, the one at the higher address in the high half (R42). -/
theorem loadU64_eq_append (m : Input) (off : Nat) : loadU64 m off = loadU32 m (off + 4) ++ loadU32 m off := by
  apply BitVec.eq_of_toNat_eq
  rw [toNat_half_append, toNat_loadU64, toNat_loadU32, toNat_loadU32]
  exact memRead_add m off 4 4

theorem loadU32_lowByte (m : Input) (off : Nat) : (loadU32 m off).extractLsb' 0 8 = m off := by
  apply BitVec.eq_of_toNat_eq
  rw [BitVec.extractLsb'_toNat, Nat.shiftRight_zero, toNat_loadU32, memRead_succ_mod]

theorem loadU64_lowByte (m : Input) (off : Nat) : (loadU64 m off).extractLsb' 0 8 = m off := by
  apply BitVec.eq_of_toNat_eq
  rw [BitVec.extractLsb'_toNat, Nat.shiftRight_zero, toNat_loadU64, memRead_succ_mod]

/-- Settles O45, clause by clause. -/
theorem loadsAreLittleEndian : Obligations.LoadsAreLittleEndian :=
  fun m off => ⟨memRead_eq_sum m off, toNat_loadU32 m off, toNat_loadU64 m off,
    (loadU64_eq_append m off).trans (setWidth_or_shiftLeft _ _).symm, loadU32_lowByte m off,
    loadU64_lowByte m off⟩

/-! ### The operands of a command -/

/-- Read back, the first `n` bytes of a word are its low `8 * n` bits (R43). -/
theorem memRead_wordBytes (v : Word) (n : Nat) : memRead (wordBytes v) 0 n = v.toNat % 2 ^ (8 * n) := by
  induction n with
  | zero => exact (Nat.mod_one _).symm
  | succ n ih =>
    rw [memRead, ih, wordBytes, BitVec.extractLsb'_toNat, Nat.shiftRight_eq_div_pow, Nat.zero_add,
      Nat.mul_succ, Nat.pow_add, Nat.mod_mul, Nat.mul_comm (2 ^ (8 * n))]

theorem loadU32_wordBytes (v : Word) : loadU32 (wordBytes v) 0 = v.extractLsb' 0 32 := by
  apply BitVec.eq_of_toNat_eq
  rw [toNat_loadU32, memRead_wordBytes, BitVec.extractLsb'_toNat, Nat.shiftRight_zero]

theorem loadU64_wordBytes (v : Word) : loadU64 (wordBytes v) 0 = v := by
  apply BitVec.eq_of_toNat_eq
  rw [toNat_loadU64, memRead_wordBytes]
  exact Nat.mod_eq_of_lt v.isLt

/-- The exact length of an operation, by the command's SHAPE (R183). -/
theorem jobOf_nbytes_of_shape (i : Instr) (o : Opr) (m : InMem) :
    (jobOf i o m).nbytes =
      if i.fields.shape = 0#2 then o.len.toNat else if i.fields.shape = 1#2 then 2 * o.len.toNat
      else if i.fields.shape = 2#2 then 4 else 8 := by
  cases i <;> rfl

/-- A BUF or T16 command reads the window of IN at OPR.src (R184). -/
theorem jobOf_of_window {i : Instr} (h : i.fields.shape = 0#2 ∨ i.fields.shape = 1#2) (o : Opr) (m : InMem) :
    (jobOf i o m).windowed = true ∧ ∀ k, (jobOf i o m).input k = windowInput o m := by
  cases i
  case hash32Buf | hash64Buf | hash128Buf | hash32T16 | hash64T16 | hash128T16 => exact ⟨rfl, fun _ => rfl⟩
  all_goals exact absurd h (by decide)

/-- A value command reads the bytes of OPR.v0 and has no window (R185). -/
theorem jobOf_of_value {i : Instr} (h : i.fields.shape = 2#2 ∨ i.fields.shape = 3#2) (o : Opr) (m : InMem) :
    (jobOf i o m).windowed = false ∧ (jobOf i o m).input 0 = wordBytes o.v0 := by
  cases i
  case hash32V4 | hash64V4 | hash128V4 | hash32V8 | hash64V8 | hash128V8 | hash32x4 => exact ⟨rfl, rfl⟩
  all_goals exact absurd h (by decide)

theorem inBounds_of_windowed {j : Job} (h : j.windowed = true) (o : Opr) (m : InMem) :
    j.inBounds o m = true ↔ o.src.toNat + j.nbytes ≤ m.size := by
  simp [Job.inBounds, h]

theorem inBounds_of_not_windowed {j : Job} (h : j.windowed = false) (o : Opr) (m : InMem) :
    j.inBounds o m = true := by
  simp [Job.inBounds, h]

/-- Settles O25: the length by SHAPE, and then the window of IN for BUF and T16, the bytes of OPR.v0 for the
value commands. -/
theorem operandsAreExactLengthsAndBytes : Obligations.OperandsAreExactLengthsAndBytes := by
  intro i o m
  refine ⟨fun h => ?_, fun h => ?_, fun h => ?_, fun h => ?_, fun h => ?_, fun h => ?_⟩
  · simp [jobOf_nbytes_of_shape, h]
  · simp [jobOf_nbytes_of_shape, h]
  · obtain ⟨hwindowed, hinput⟩ := jobOf_of_window h o m
    exact ⟨inBounds_of_windowed hwindowed o m, fun k off => congrFun (hinput k) off⟩
  · obtain ⟨_, hinput⟩ := jobOf_of_value (.inl h) o m
    rw [hinput]
    exact ⟨by simp [jobOf_nbytes_of_shape, h], fun _ _ => rfl, loadU32_wordBytes o.v0⟩
  · obtain ⟨_, hinput⟩ := jobOf_of_value (.inr h) o m
    rw [hinput]
    exact ⟨by simp [jobOf_nbytes_of_shape, h], fun _ _ => rfl, loadU64_wordBytes o.v0⟩
  · obtain ⟨hwindowed, hinput⟩ := jobOf_of_value h o m
    refine ⟨inBounds_of_not_windowed hwindowed o m, fun o' m' hv => ?_⟩
    rw [hinput, (jobOf_of_value h o' m').2, hv]

/-! ### Accesses of the register window -/

theorem inInterface_regOffset (r : Reg) : inInterface (regOffset r) 64 = true := by
  cases r <;> rfl

/-- Inside the interface a write is a write of the window. -/
theorem hostAccess_write {offset width : Nat} (h : inInterface offset width = true) (v : Word) (s : State) :
    hostAccess (.write offset width v) s = writeWindow s offset v := if_pos h

/-- A read that is answered hands the data to the host and changes nothing else (R48). -/
theorem eq_of_hostAccess_read {s t : State} {offset width : Nat}
    (h : hostAccess (.read offset width) s = .next t) : t = { s with hostData := s.readWindow offset } := by
  simp only [hostAccess] at h
  split at h
  · exact (Host.Outcome.next.inj h).symm
  · cases h

/-- A write of any register but CMD is a write of that register. -/
theorem hostAccess_write_regOffset {r : Reg} (hr : r ≠ .cmd) (v : Word) (s : State) :
    hostAccess (.write (regOffset r) 64 v) s = .next (s.writeReg r v) :=
  (hostAccess_write (inInterface_regOffset r) v s).trans (writeWindow_regOffset s v hr)

/-- A CMD write of a value that decodes is `exec` of its command (R180). -/
theorem hostAccess_write_cmd {v : Word} {i : Instr} (h : decode v = .ok i) (s : State) :
    hostAccess (.write 0x00 64 v) s = exec i s := by
  rw [hostAccess_write rfl, writeWindow_cmd, h]

/-- Settles O38, clause by clause from the lemmas on the window. -/
theorem accessesHaveNoOtherSideEffects : Obligations.AccessesHaveNoOtherSideEffects := by
  refine ⟨fun _ _ _ => eq_of_hostAccess_read, fun s r v hr => ?_, fun s r v hr hcmd => ?_,
    fun s offset v hlo hhi halign => ?_, fun s i => hostAccess_write_cmd (decode_encode i) s⟩
  · obtain ⟨hstatus, _, _, _, _, hopr, hphase, hdp, hmem, _, _, hscript, _⟩ := writeReg_frame s r v
    exact ⟨hostAccess_write_regOffset (ne_cmd_of_isOperand hr) v s, hstatus, hopr, hphase, hdp, hmem,
      hscript, readReg_writeReg_same s v hr, fun q hq => readReg_writeReg_other s v hq⟩
  · rw [hostAccess_write_regOffset hcmd, writeReg_of_not_isOperand s v hr]
  · have hin : inInterface offset 64 = true := (inInterface_iff offset 64).mpr ⟨rfl, halign, by omega⟩
    rw [hostAccess_write hin, writeWindow_reserved s v hlo]

/-- A slot that writes a command to CMD runs its sequencer steps and then the command (R54, R65, R215). -/
theorem step_of_cmdWrite {s u : State} {v : Word} {i : Instr} {n : Nat} {rest : List Slot}
    (hscript : s.script = { core := n, op := .write 0x00 64 v } :: rest) (hdecode : decode v = .ok i)
    (hrun : coreRun n { s with script := rest } = .next u) : step s = exec i u := by
  rw [step_cons hscript, hrun, andThen_next, hostAccess_write_cmd hdecode]

/-- Settles O5: `withFetchWord` puts such a slot first, without sequencer steps. -/
theorem aStepRunsTheDecodedCommand : Obligations.AStepRunsTheDecodedCommand := by
  refine ⟨fun _ _ _ _ _ _ => step_of_cmdWrite, fun s i w hw hdecode => ?_⟩
  rw [← Nat.mod_eq_of_lt hw] at hdecode
  exact step_of_cmdWrite (s := s.withFetchWord 64 w) (u := s) rfl hdecode rfl

end Sys2Proof.Machine
end

section
/-! PROOFS. Commands as words (spec/30_encoding.md R60 to R64), the operand bits a command does not use (R61),
and the host's programs: pseudo-instructions (R66) and POLL (R65, R242). -/

namespace Sys2Proof.Machine

/-! ### The command words -/

/-- Settles O1: the decoder accepts one value for each command, and R62's table is the encoder's. -/
theorem theLegalCommandWordsAreExactlyThirteen : Obligations.TheLegalCommandWordsAreExactlyThirteen :=
  ⟨decode_eq_ok_iff, rfl, rfl, rfl, rfl, rfl, rfl, rfl, rfl, rfl, rfl, rfl, rfl, rfl⟩

/-- The decoder accepts a command's word, so the command's fields are legal. -/
theorem instr_wf (i : Instr) : i.wf = true := by
  have hlegal : (fieldsOf (encode i)).wf = true := (decode_isOk_iff_wf _).mp ⟨i, decode_encode i⟩
  rwa [fieldsOf_encode] at hlegal

/-- Settles O3, from the laws of the decoder and the encoder. -/
theorem decodingAnEncodedCommandGivesItBack : Obligations.DecodingAnEncodedCommandGivesItBack :=
  fun i => ⟨instr_wf i, fieldsOf_encode i, decode_encode i⟩

/-- Settles O4: closed words, which the decoder evaluates. -/
theorem tableWordsDecodeAsTheTableSays : Obligations.TableWordsDecodeAsTheTableSays := by
  unfold Obligations.TableWordsDecodeAsTheTableSays
  decide

theorem decode_isError_iff_not_isOk (v : Word) : (∃ e, decode v = .error e) ↔ ¬ ∃ i, decode v = .ok i := by
  cases decode v <;> simp

/-- The fields of a word are illegal exactly when one of R63's three classes names them. -/
theorem not_wf_iff (f : CmdFields) : ¬ f.wf = true ↔
    f.width = 3#2 ∨ (f.x4 = 1#1 ∧ ¬ (f.width = 0#2 ∧ f.shape = 2#2)) ∨ f.rsvd ≠ 0#59 := by
  have hx4 : f.x4 = 1#1 ↔ ¬ f.x4 = 0#1 := by
    rcases BitVec.eq_zero_or_eq_one f.x4 with h | h <;> simp [h]
  simp only [CmdFields.wf, CmdFields.rsvdOk, CmdFields.widthOk, CmdFields.x4Ok, Bool.and_eq_true,
    Bool.or_eq_true, beq_iff_eq, bne_iff_ne, hx4]
  tauto

/-- An illegal value that comes while the block is idle is rejected with ILLEGAL (R212). -/
theorem writeWindow_illegal {v : Word} {s : State} (hv : ∃ e, decode v = .error e)
    (hb : s.status.busy = false) : writeWindow s 0x00 v = .next (rejectedState v errIllegal s) := by
  obtain ⟨e, he⟩ := hv
  rw [writeWindow_cmd, he]
  simp [issueIllegal_eq, hb]

/-- Settles O2: the decoder refuses a word exactly when its fields are illegal. -/
theorem illegalValuesAreExactlyTheReservedOnes : Obligations.IllegalValuesAreExactlyTheReservedOnes := by
  refine ⟨fun v => ?_, fun v s => writeWindow_illegal⟩
  rw [decode_isError_iff_not_isOk, decode_isOk_iff_wf]
  exact not_wf_iff (fieldsOf v)

/-! ### Operand bits without effect -/

@[simp] theorem seed_jobOf (i : Instr) (o : Opr) (m : InMem) : (jobOf i o m).seed = o.seed := by
  cases i <;> rfl

/-- SEED enters the operands of a command as their seed, and nowhere else. -/
theorem jobOf_withSeed (i : Instr) (s : State) (x : Word) :
    jobOf i (latchedOpr (encode i) { s with seed := x }) s.mem =
      { jobOf i (latchedOpr (encode i) s) s.mem with seed := x } := by
  cases i <;> rfl

/-- A command of width 32 runs the 32-bit mixer, in one lane or in four. -/
theorem mixer_of_width32 {i : Instr} (h : i.fields.width = 0#2) (o : Opr) (m : InMem) :
    (jobOf i o m).mixer = .m32 ∨ (jobOf i o m).mixer = .m32x4 := by
  cases i
  case hash32Buf | hash32T16 | hash32V4 | hash32V8 => exact .inl rfl
  case hash32x4 => exact .inr rfl
  all_goals exact absurd h (by decide)

/-- The 32-bit mixer takes the low half of the seed only (R61, R105). -/
theorem digest_withSeed {j : Job} (hx : j.mixer = .m32 ∨ j.mixer = .m32x4) {x : Word}
    (h : seed32Of x = seed32Of j.seed) : ({ j with seed := x } : Job).digest = j.digest := by
  rcases hx with hx | hx <;> simp only [Job.digest, Job.hash32Lane, hx, h]

/-- The first 4 bytes of a value are those of its low half. -/
theorem agreeOn_wordBytes {v w : Word} (h : v.setWidth 32 = w.setWidth 32) :
    AgreeOn 4 (wordBytes v) (wordBytes w) := by
  have hlow : ∀ (x : Word) (k : Nat), k < 4 → wordBytes x k = (x.setWidth 32).extractLsb' (8 * k) 8 := by
    intro x k hk
    ext b hb
    simp only [wordBytes, BitVec.getElem_extractLsb', BitVec.getLsbD_setWidth]
    simp [show 8 * k + b < 32 by omega]
  intro k hk
  rw [hlow v k hk, hlow w k hk, h]

/-- A command on 4-byte values takes the low half of each value only (R61, R185, R198). -/
theorem digest_of_sameLowHalves {i : Instr} (h : i.fields.shape = 2#2) {o o' : Opr} (m : InMem)
    (hseed : o'.seed = o.seed)
    (hvals : ∀ k, (laneValue o k).setWidth 32 = (laneValue o' k).setWidth 32) :
    (jobOf i o' m).digest = (jobOf i o m).digest := by
  cases i
  case hash32V4 | hash64V4 | hash128V4 =>
    exact digest_congr rfl rfl hseed fun _ => agreeOn_wordBytes (hvals 0)
  case hash32x4 => exact digest_congr rfl rfl hseed fun k => agreeOn_wordBytes (hvals k)
  all_goals exact absurd h (by decide)

/-- A value command has no window to fit. -/
theorem windowFits_of_value {i : Instr} (h : i.fields.shape = 2#2 ∨ i.fields.shape = 3#2) (s : State) :
    WindowFits i s :=
  (commandFits_iff i s).mp (inBounds_of_not_windowed (jobOf_of_value h _ _).1 _ _)

/-- Settles O29: either way both commands start and complete, and the digests of their latched operands are
equal. -/
theorem unusedOperandHalvesHaveNoEffect : Obligations.UnusedOperandHalvesHaveNoEffect := by
  refine ⟨fun i s x hwidth hb hf hx => ?_, fun i s x0 x1 x2 x3 hshape hb h0 h1 h2 h3 => ?_⟩
  · obtain ⟨hexec, hdone⟩ := exec_completes hb hf rfl
    have hseed : seed32Of x = seed32Of (jobOf i (latchedOpr (encode i) s) s.mem).seed := by
      rw [seed_jobOf]
      exact hx
    have hdigest := digest_withSeed (mixer_of_width32 hwidth _ _) hseed
    rw [← jobOf_withSeed] at hdigest
    exact ⟨_, hexec, hdone, exec_completes (s := { s with seed := x }) hb hf hdigest⟩
  · obtain ⟨hexec, hdone⟩ := exec_completes hb (windowFits_of_value (.inl hshape) s) rfl
    refine ⟨_, hexec, hdone, exec_completes hb (windowFits_of_value (.inl hshape) _) ?_⟩
    refine digest_of_sameLowHalves hshape s.mem rfl fun k => ?_
    match k with
    | 0 => exact h0.symm
    | 1 => exact h1.symm
    | 2 => exact h2.symm
    | _ + 3 => exact h3.symm

/-! ### Runs of the machine -/

theorem hostRun_succ_of_step {M : Host.Core} {s t : M.State} (h : M.step s = .next t) (n : Nat) :
    M.run (n + 1) s = M.run n t := by
  rw [Host.Core.run, h]

theorem hostRun_one (M : Host.Core) (s : M.State) : M.run 1 s = M.step s := by
  rw [Host.Core.run]
  cases M.step s <;> rfl

theorem run_succ_of_step {s t : State} (h : step s = .next t) (n : Nat) :
    Host.Core.run core (n + 1) s = Host.Core.run core n t := hostRun_succ_of_step (M := core) h n

theorem run_one (s : State) : Host.Core.run core 1 s = step s := hostRun_one core s

/-- A slot without sequencer steps is its host access. -/
theorem step_core_zero (s : State) (op : HostOp) (rest : List Slot) :
    step { s with script := { core := 0, op := op } :: rest } = hostAccess op { s with script := rest } :=
  (step_cons rfl).trans rfl

/-! ### Pseudo-instructions -/

/-- The listed register writes, in order. -/
def State.writeRegs (s : State) (ws : List (Reg × Word)) : State :=
  ws.foldl (fun t w => t.writeReg w.1 w.2) s

theorem writeReg_withScript (s : State) (l : List Slot) (r : Reg) (v : Word) :
    ({ s with script := l } : State).writeReg r v = { s.writeReg r v with script := l } := by
  cases r <;> rfl

/-- The host's writes of registers other than CMD, and then of a command, with no sequencer step between them,
store the registers and are `exec` of the command (R65). -/
theorem run_writes_command (i : Instr) (rest : List Slot) (ws : List (Reg × Word))
    (hws : ∀ w ∈ ws, w.1 ≠ .cmd) (s : State) :
    Host.Core.run core (ws.length + 1)
        { s with script := scriptOf 0 (ws.map (fun w => wr w.1 w.2) ++ [command i]) ++ rest } =
      exec i { s.writeRegs ws with script := rest } := by
  induction ws generalizing s with
  | nil =>
    have hstep := (step_core_zero s (command i) rest).trans (hostAccess_write_cmd (decode_encode i) _)
    exact (run_one _).trans hstep
  | cons w ws ih =>
    obtain ⟨hw, hws⟩ := List.forall_mem_cons.mp hws
    have hstep := (step_core_zero s (wr w.1 w.2)
      (scriptOf 0 (ws.map (fun w => wr w.1 w.2) ++ [command i]) ++ rest)).trans
        (hostAccess_write_regOffset hw w.2 _)
    rw [writeReg_withScript] at hstep
    exact (run_succ_of_step hstep _).trans (ih hws (s.writeReg w.1 w.2))

/-- The same from a state whose script is known. -/
theorem run_of_script {i : Instr} {rest : List Slot} (ws : List (Reg × Word)) {s : State}
    (hs : s.script = scriptOf 0 (ws.map (fun w => wr w.1 w.2) ++ [command i]) ++ rest)
    (hws : ∀ w ∈ ws, w.1 ≠ .cmd) :
    Host.Core.run core (ws.length + 1) s = exec i { s.writeRegs ws with script := rest } := by
  have hrun := run_writes_command i rest ws hws s
  rwa [← hs] at hrun

/-- Settles O57: each expansion is a list of register writes and then its command. -/
theorem pseudoInstructionsExpandToTheirWrites : Obligations.PseudoInstructionsExpandToTheirWrites := by
  refine ⟨fun s w src len seed rest hs => ?_, fun s w src units seed rest hs => ?_,
    fun s w v seed rest hs => ?_, fun s w v seed rest hs => ?_,
    fun s v0 v1 v2 v3 seed rest hs => ?_, fun _ => rfl⟩
  · exact run_of_script [(.seed, seed.getD 0), (.src, src), (.len, len)] hs (by simp)
  · exact run_of_script [(.seed, seed.getD 0), (.src, src), (.len, units)] hs (by simp)
  · exact run_of_script [(.seed, seed.getD 0), (.val0, v)] hs (by simp)
  · exact run_of_script [(.seed, seed.getD 0), (.val0, v)] hs (by simp)
  · exact run_of_script [(.seed, seed.getD 0), (.val0, v0), (.val1, v1), (.val2, v2), (.val3, v3)] hs
      (by simp)

/-! ### POLL -/

/-- Finitely many steps consume the POLL at the head of the script, `rest` behind it: BUSY = 0, STATUS in the
read data, and DONE = 1 if an operation was running (R65, R242). -/
def PollEnds (s : State) (rest : List Slot) : Prop :=
  ∃ n u, Host.Core.run core n s = .next u ∧ u.script = rest ∧ u.status.busy = false ∧
    u.hostData = u.status.word ∧ (s.phase = .run → u.status.done = true)

/-- What the host last read is no input of the sequencer. -/
theorem coreRun_withHostData (d : Word) (n : Nat) (s : State) :
    coreRun n { s with hostData := d } = mapNext (fun t => { t with hostData := d }) (coreRun n s) := by
  refine coreRun_map (f := fun t => { t with hostData := d }) (fun s => ?_) n s
  refine coreStep_map (f := fun t => { t with hostData := d }) (fun _ => rfl) (fun _ => rfl) (fun _ => rfl)
    (fun _ => rfl) (fun s j => ?_) (fun _ _ => rfl) s
  rcases s.hazard.eq_false_or_eq_true with hz | hz
  · rw [finish_of_hazard j hz]
    exact finish_of_hazard (s := { s with hostData := d }) j hz
  · rw [finish_of_no_hazard j hz]
    exact finish_of_no_hazard (s := { s with hostData := d }) j hz

/-- Sequencer steps that leave RUN have set DONE (R181). -/
theorem done_of_coreRun {s t : State} {n : Nat} (hp : s.phase = .run) (hrun : coreRun n s = .next t)
    (ht : t.phase ≠ .run) : t.status.done = true := by
  have hd : t.phase = .doneOk := (coreRun_phase n hp hrun).resolve_left ht
  rw [coreRun_status n hp hrun hd]
  rfl

/-- However many sequencer steps come first, some more bring the block out of RUN. -/
theorem coreRun_leaves_run {s : State} (h : Inv s) (k : Nat) :
    ∃ n u, coreRun (k + n) s = .next u ∧ u.phase ≠ .run := by
  by_cases hp : s.phase = .run
  · obtain ⟨i, hi, hb, hpl, _⟩ := h.2.2 hp
    obtain ⟨n, u, _, hu, hd, _⟩ := finishes_of_placed _ s hp hi hb hpl le_rfl
    have hne : u.phase ≠ .run := by rw [hd]; decide
    refine ⟨n + 1, u, ?_, hne⟩
    rw [Nat.add_comm, coreRun_add, hu, andThen_next, coreRun_idle hne]
  · exact ⟨0, s, coreRun_idle hp k, hp⟩

section Poll
variable {s t : State} {k : Nat} {rest : List Slot}

/-- A POLL slot makes its sequencer steps and then reads STATUS. -/
theorem step_poll (hs : s.script = { core := k, op := .poll } :: rest)
    (ht : coreRun k { s with script := rest } = .next t) : step s = hostAccess .poll t := by
  rw [step_cons hs, ht, andThen_next]

theorem script_of_coreRun (ht : coreRun k { s with script := rest } = .next t) : t.script = rest := by
  obtain ⟨_, _, _, _, _, _, _, _, _, _, hscript, _⟩ := coreRun_frame k ht
  exact hscript

/-- A POLL that reads BUSY = 0 is over. -/
theorem pollEnds_of_idle (hs : s.script = { core := k, op := .poll } :: rest)
    (ht : coreRun k { s with script := rest } = .next t) (hinv : Inv t) (hb : t.status.busy = false) :
    PollEnds s rest := by
  have hp : t.phase ≠ .run := fun hp => by simp [(busy_iff_run hinv).mpr hp] at hb
  have hstep : step s = .next { t with hostData := t.status.word } := by
    rw [step_poll hs ht]
    simp [hostAccess, hb]
  have hscript : t.script = rest := script_of_coreRun ht
  exact ⟨1, _, (run_one s).trans hstep, hscript, hb, rfl,
    fun hrun => done_of_coreRun (s := { s with script := rest }) (t := t) hrun ht hp⟩

/-- The state after a POLL that reads BUSY = 1: the next read comes after one sequencer step. -/
def State.polledBusy (t : State) : State :=
  { t with hostData := t.status.word, script := { core := 1, op := .poll } :: t.script }

/-- A POLL that reads BUSY = 1 ends if the POLL it leaves does. -/
theorem pollEnds_of_busy (hs : s.script = { core := k, op := .poll } :: rest)
    (ht : coreRun k { s with script := rest } = .next t) (hinv : Inv t) (hb : t.status.busy = true)
    (hnext : PollEnds t.polledBusy rest) : PollEnds s rest := by
  have hstep : step s = .next t.polledBusy := by
    rw [step_poll hs ht]
    simp [hostAccess, hb, State.polledBusy]
  obtain ⟨n, u, hu, hscript, hbusy, hdata, hdone⟩ := hnext
  exact ⟨n + 1, u, (run_succ_of_step hstep n).trans hu, hscript, hbusy, hdata,
    fun _ => hdone ((busy_iff_run hinv).mp hb)⟩

/-- A POLL ends if `n` sequencer steps after its first read the block is out of RUN: each further read comes
one sequencer step later. -/
theorem pollEnds_of_coreRun {n : Nat} {w : State} (hinv : Inv s)
    (hs : s.script = { core := k, op := .poll } :: rest)
    (hw : coreRun (k + n) { s with script := rest } = .next w) (hp : w.phase ≠ .run) :
    PollEnds s rest := by
  induction n generalizing s w k with
  | zero =>
    have hinvw : Inv w := inv_coreRun k (inv_withScript hinv rest) hw
    exact pollEnds_of_idle hs hw hinvw (by simpa using mt (busy_iff_run hinvw).mp hp)
  | succ n ih =>
    rw [coreRun_add] at hw
    obtain ⟨t, ht, htw⟩ := andThen_eq_next.mp hw
    have hinvt : Inv t := inv_coreRun k (inv_withScript hinv rest) ht
    cases hb : t.status.busy with
    | false => exact pollEnds_of_idle hs ht hinvt hb
    | true =>
      obtain rfl : t.script = rest := script_of_coreRun ht
      refine pollEnds_of_busy hs ht hinvt hb
        (ih (k := 1) (w := { w with hostData := t.status.word }) ?_ rfl ?_ hp)
      · exact inv_of_same hinvt rfl rfl rfl rfl rfl rfl
      · rw [Nat.add_comm]
        exact (coreRun_withHostData t.status.word (n + 1) t).trans (by rw [htw]; rfl)

end Poll

/-- Settles O58: the running operation completes, and one sequencer step passes between two reads. -/
theorem pollingEndsWithTheBlockNotBusy : Obligations.PollingEndsWithTheBlockNotBusy := by
  intro s k rest hinv hs
  obtain ⟨n, w, hw, hp⟩ := coreRun_leaves_run (inv_withScript hinv rest) k
  exact pollEnds_of_coreRun hinv hs hw hp

end Sys2Proof.Machine
end

section
/-! PROOFS. The datapath primitives (spec/40_primitives.md R83 to R86, R88): packed bytes, packed windows, the
widening multipliers and the half swap. -/

namespace Sys2Proof.Machine

/-! ### Packed bytes -/

/-- XOR adds numbers whose bits do not overlap (R83: "XOR equals OR here"). -/
theorem xor_mul_two_pow_of_lt {x i : Nat} (hx : x < 2 ^ i) (b : Nat) :
    x ^^^ b * 2 ^ i = x + b * 2 ^ i := by
  have hdiv : (x ^^^ b * 2 ^ i) / 2 ^ i = b := by
    rw [Nat.xor_div_two_pow, Nat.div_eq_of_lt hx, Nat.mul_div_cancel b (Nat.two_pow_pos i), Nat.zero_xor]
  have hmod : (x ^^^ b * 2 ^ i) % 2 ^ i = x := by
    rw [Nat.xor_mod_two_pow, Nat.mod_eq_of_lt hx, Nat.mul_mod_left, Nat.xor_zero]
  rw [← Nat.mod_add_div' (x ^^^ b * 2 ^ i) (2 ^ i), hdiv, hmod]

/-- Byte `n` shifted to its place loses no bit in a word of at least `n + 1` bytes. -/
theorem toNat_setWidth_shiftLeft_byte {w n : Nat} (b : Byte) (h : 8 * (n + 1) ≤ w) :
    (b.setWidth w <<< (8 * n)).toNat = b.toNat * 2 ^ (8 * n) := by
  have hlt : b.toNat * 2 ^ (8 * n) < 2 ^ w :=
    calc b.toNat * 2 ^ (8 * n)
      _ < 2 ^ 8 * 2 ^ (8 * n) := Nat.mul_lt_mul_of_pos_right b.isLt (Nat.two_pow_pos _)
      _ = 2 ^ (8 * (n + 1)) := by rw [← Nat.pow_add, Nat.mul_succ, Nat.add_comm]
      _ ≤ 2 ^ w := Nat.pow_le_pow_right Nat.two_pos h
  rw [BitVec.toNat_shiftLeft, BitVec.toNat_setWidth_of_le (by omega), Nat.shiftLeft_eq, Nat.mod_eq_of_lt hlt]

/-- Packed into a word that holds them, `n` bytes are the number a read of them gives. -/
theorem toNat_packBytes {w : Nat} (m : Input) (n : Nat) (h : 8 * n ≤ w) :
    (packBytes w m n).toNat = memRead m 0 n := by
  induction n with
  | zero => simp [packBytes, memRead]
  | succ n ih =>
    rw [packBytes, BitVec.toNat_xor, ih (by omega), toNat_setWidth_shiftLeft_byte _ h,
      xor_mul_two_pow_of_lt (memRead_lt m 0 n), memRead, Nat.zero_add]

/-- At most three packed bytes leave bits [63:24] zero. -/
theorem toNat_packBytes_lt (m : Input) {n : Nat} (h : n ≤ 3) : (packBytes 64 m n).toNat < 2 ^ 24 :=
  calc (packBytes 64 m n).toNat
    _ = memRead m 0 n := toNat_packBytes m n (by omega)
    _ < 2 ^ (8 * n) := memRead_lt m 0 n
    _ ≤ 2 ^ 24 := Nat.pow_le_pow_right Nat.two_pos (by omega)

/-- Settles O46: three bytes fit both widths. -/
theorem packedBytesAreTheirLittleEndianValue : Obligations.PackedBytesAreTheirLittleEndianValue :=
  ⟨fun m n h => ⟨toNat_packBytes m n (by omega), toNat_packBytes m n (by omega), toNat_packBytes_lt m h⟩,
    fun _ => rfl, by decide⟩

/-! ### Packed windows -/

theorem pairWord_eq_append (m : Input) (hi lo : Nat) : pairWord m hi lo = loadU32 m hi ++ loadU32 m lo := by
  rw [pairWord, BitVec.or_comm, setWidth_or_shiftLeft]

/-- The one formula of R84, its words written as two loads each and its stride as a quotient. -/
theorem pack64_eq_append (m : Input) (o n : Nat) :
    pack64 m o n = (loadU32 m o ++ loadU32 m (o + n - 4),
      loadU32 m (o + 4 * (n / 8)) ++ loadU32 m (o + n - 4 - 4 * (n / 8))) := by
  simp only [pack64, pairWord_eq_append, Nat.shiftRight_eq_div_pow, Nat.reducePow]

/-- Below 8 bytes the stride is 0, and the second word repeats the first. -/
theorem pack64_of_lt_eight (m : Input) (o : Nat) {n : Nat} (h : n < 8) :
    pack64 m o n = (loadU32 m o ++ loadU32 m (o + n - 4), loadU32 m o ++ loadU32 m (o + n - 4)) := by
  rw [pack64_eq_append, Nat.div_eq_of_lt h]
  rfl

/-- Every load of a packed window starts inside it, at least 4 bytes before its end. -/
theorem pack64_offset_mem_window {o n x : Nat} (h4 : 4 ≤ n) (h16 : n ≤ 16)
    (hx : x ∈ [o, o + n - 4, o + 4 * (n / 8), o + n - 4 - 4 * (n / 8)]) : o ≤ x ∧ x ≤ o + n - 4 := by
  simp only [List.mem_cons, List.not_mem_nil, or_false] at hx
  omega

/-- Settles O47: each listed form is the one formula at that length's stride. -/
theorem packedWindowsHaveTheirListedForms : Obligations.PackedWindowsHaveTheirListedForms := by
  refine ⟨fun m o => ⟨?_, ?_, fun n _ h7 => ?_, fun n _ _ => ?_⟩, fun o n h4 h16 x hx => ?_, ?_⟩
  · exact pack64_of_lt_eight m o (by decide)
  · exact pack64_eq_append m o 8
  · exact pack64_of_lt_eight m o (Nat.lt_succ_of_le h7)
  · exact pack64_eq_append m o n
  · exact pack64_offset_mem_window h4 h16 hx
  · decide

/-! ### Widening multipliers -/

/-- The exact product of two words of `w` bits, low half first: the shape of both multipliers of the block. -/
def widenMul {w : Nat} (u v : BitVec w) : BitVec w × BitVec w :=
  (BitVec.ofNat w (u.toNat * v.toNat), BitVec.ofNat w ((u.toNat * v.toNat) >>> w))

theorem umul128_eq_widenMul : umul128 = widenMul := rfl

theorem umul64_eq_widenMul : umul64 = widenMul := rfl

/-- The two halves lose nothing of the product. -/
theorem widenMul_toNat {w : Nat} (u v : BitVec w) :
    (widenMul u v).1.toNat + 2 ^ w * (widenMul u v).2.toNat = u.toNat * v.toNat := by
  have hprod : u.toNat * v.toNat < 2 ^ w * 2 ^ w := Nat.mul_lt_mul'' u.isLt v.isLt
  have hhigh : u.toNat * v.toNat / 2 ^ w < 2 ^ w := Nat.div_lt_of_lt_mul hprod
  rw [widenMul, BitVec.toNat_ofNat, BitVec.toNat_ofNat, Nat.shiftRight_eq_div_pow, Nat.mod_eq_of_lt hhigh,
    Nat.mod_add_div]

theorem widenMul_comm {w : Nat} (u v : BitVec w) : widenMul u v = widenMul v u := by
  rw [widenMul, widenMul, Nat.mul_comm]

theorem zero_widenMul {w : Nat} (v : BitVec w) : widenMul 0#w v = (0#w, 0#w) := by
  simp [widenMul]

theorem one_widenMul {w : Nat} (hw : 0 < w) (v : BitVec w) : widenMul 1#w v = (v, 0#w) := by
  have hone : (1#w).toNat * v.toNat = v.toNat := by
    rw [BitVec.toNat_ofNat, Nat.mod_eq_of_lt (Nat.one_lt_two_pow hw.ne'), Nat.one_mul]
  rw [widenMul, hone, Nat.shiftRight_eq_zero _ _ v.isLt, BitVec.ofNat_toNat, BitVec.setWidth_eq]

/-- Settles O48: the laws of the widening product at 64 bits. -/
theorem umul128IsTheExactProduct : Obligations.Umul128IsTheExactProduct := by
  rw [Obligations.Umul128IsTheExactProduct, umul128_eq_widenMul]
  exact ⟨widenMul_toNat, widenMul_comm, fun v => ⟨zero_widenMul v, one_widenMul (by decide) v⟩,
    by decide, by decide⟩

/-- Settles O49: the laws of the widening product at 32 bits. -/
theorem umul64IsTheExactProduct : Obligations.Umul64IsTheExactProduct := by
  rw [Obligations.Umul64IsTheExactProduct, umul64_eq_widenMul]
  exact ⟨widenMul_toNat, widenMul_comm, fun v => ⟨zero_widenMul v, one_widenMul (by decide) v⟩, by decide⟩

/-! ### The half swap -/

theorem rotl32on64_append (hi lo : Half) : rotl32on64 (hi ++ lo) = lo ++ hi := by
  have hleft : (hi ++ lo : Word) <<< 32 = lo ++ 0#32 :=
    (BitVec.shiftLeft_eq_concat_of_lt (by decide)).trans
      (congrArg (· ++ 0#32) BitVec.extractLsb'_append_eq_right)
  have hright : (hi ++ lo : Word) >>> 32 = 0#32 ++ hi :=
    (BitVec.ushiftRight_eq_extractLsb'_of_lt (by decide)).trans
      (congrArg (0#32 ++ ·) BitVec.extractLsb'_append_eq_left)
  rw [rotl32on64, hleft, hright, BitVec.or_append, BitVec.or_zero, BitVec.zero_or]

/-- The rotation by 32 puts the low half above the high half. -/
theorem rotl32on64_eq_append (x : Word) : rotl32on64 x = x.extractLsb' 0 32 ++ x.extractLsb' 32 32 := by
  conv_lhs => rw [← BitVec.extractLsb'_append_extractLsb' (w := 32) (len := 32) (x := x)]
  exact rotl32on64_append _ _

theorem rotl32on64_rotl32on64 (x : Word) : rotl32on64 (rotl32on64 x) = x := by
  rw [rotl32on64_eq_append x, rotl32on64_append]
  exact BitVec.extractLsb'_append_extractLsb'

/-- Settles O50: a swap of the halves, done twice, is no change. -/
theorem rotatingByHalfSwapsTheHalves : Obligations.RotatingByHalfSwapsTheHalves :=
  ⟨rotl32on64_eq_append, rotl32on64_rotl32on64, by decide⟩

end Sys2Proof.Machine
end

section
/-! PROOFS. The seed initializer (spec/41_seed_init.md R100 to R102, R106): the product of the masked lanes, the
first step of every operation, and the seed's one way into a digest. -/

namespace Sys2Proof.Machine

/-! ### The product of the masked lanes -/

theorem init64_eq_widenMul (L : Nat) (seed : Word) :
    init64 L seed =
      widenMul (C2 ^^^ BitVec.ofNat 64 L ^^^ (seed &&& Val10)) (C1 ^^^ BitVec.ofNat 64 L ^^^ (seed &&& Val01)) :=
  rfl

theorem seed1_init32 (L : Nat) (seed : Half) :
    (init32 L seed).seed1 =
      (widenMul (C2_32 ^^^ BitVec.ofNat 32 L ^^^ (seed &&& Val10_32))
        (C1_32 ^^^ BitVec.ofNat 32 L ^^^ (seed &&& Val01_32))).1 :=
  rfl

theorem seed2_init32 (L : Nat) (seed : Half) :
    (init32 L seed).seed2 =
      (widenMul (C2_32 ^^^ BitVec.ofNat 32 L ^^^ (seed &&& Val10_32))
        (C1_32 ^^^ BitVec.ofNat 32 L ^^^ (seed &&& Val01_32))).2 :=
  rfl

theorem init64_toNat (L : Nat) (seed : Word) :
    (init64 L seed).1.toNat + 2 ^ 64 * (init64 L seed).2.toNat =
      (C2 ^^^ BitVec.ofNat 64 L ^^^ (seed &&& Val10)).toNat *
      (C1 ^^^ BitVec.ofNat 64 L ^^^ (seed &&& Val01)).toNat := by
  rw [init64_eq_widenMul, widenMul_toNat]

theorem init32_toNat (L : Nat) (seed : Half) :
    (init32 L seed).seed1.toNat + 2 ^ 32 * (init32 L seed).seed2.toNat =
      (C2_32 ^^^ BitVec.ofNat 32 L ^^^ (seed &&& Val10_32)).toNat *
      (C1_32 ^^^ BitVec.ofNat 32 L ^^^ (seed &&& Val01_32)).toNat := by
  rw [seed1_init32, seed2_init32, widenMul_toNat]

/-- The length enters truncated to the lane width (R12). -/
theorem init64_add_two_pow (L : Nat) (seed : Word) : init64 (L + 2 ^ 64) seed = init64 L seed := by
  have hlen : BitVec.ofNat 64 (L + 2 ^ 64) = BitVec.ofNat 64 L :=
    BitVec.eq_of_toNat_eq (by rw [BitVec.toNat_ofNat, BitVec.toNat_ofNat, Nat.add_mod_right])
  rw [init64_eq_widenMul, init64_eq_widenMul, hlen]

/-- With seed 0 both masked terms vanish (R104: the shortcut for zero seeds has no effect). -/
theorem init64_zero_seed (L : Nat) :
    init64 L 0 = umul128 (C2 ^^^ BitVec.ofNat 64 L) (C1 ^^^ BitVec.ofNat 64 L) := by
  rw [init64_eq_widenMul, umul128_eq_widenMul, BitVec.ofNat_eq_ofNat, BitVec.zero_and, BitVec.zero_and,
    BitVec.xor_zero, BitVec.xor_zero]

/-! ### The first step of an operation -/

theorem stage_advance_of_init {j : Job} {d : Datapath} (h : d.stage = .init) :
    (j.advance d).stage = .dispatch := by
  cases hx : j.mixer <;> simp only [Job.advance, hx, step32, step64, step128, h]

/-- After the seed init the registers hold what the rules give, whatever they held before. -/
theorem tracks_advance_of_init {j : Job} {d : Datapath} (h : d.stage = .init) : Tracks j (j.advance d) := by
  have hnotFinal : d.stage ≠ .final := by rw [h]; decide
  have hplaced : Placed j d := by simp only [Placed, h]
  exact tracks_advance hnotFinal hplaced (tracks_of_init h)

theorem init64_of_advance {j : Job} {d : Datapath} (hx : j.mixer = .m64) (h : d.stage = .init) :
    ((j.advance d).wide.seed1, (j.advance d).wide.seed2) = init64 j.nbytes j.seed ∧
    (j.advance d).wide.val01 = Val01 ∧ (j.advance d).wide.val10 = Val10 := by
  simpa only [Tracks, hx, Tracks64, stage_advance_of_init h] using tracks_advance_of_init (j := j) h

theorem init32_of_advance {j : Job} {d : Datapath} (hx : j.mixer = .m32) (h : d.stage = .init) :
    (j.advance d).lane0.seeds = init32 j.nbytes (seed32Of j.seed) ∧
    (j.advance d).lane0.val01 = Val01_32 ∧ (j.advance d).lane0.val10 = Val10_32 := by
  simpa only [Tracks, hx, TracksLane, stage_advance_of_init h] using tracks_advance_of_init (j := j) h

theorem init128_of_advance {j : Job} {d : Datapath} (hx : j.mixer = .m128) (h : d.stage = .init) :
    (j.advance d).wide.seeds = init128 j.nbytes j.seed ∧
    (j.advance d).wide.val01 = Val01 ∧ (j.advance d).wide.val10 = Val10 := by
  simpa only [Tracks, hx, Tracks128, stage_advance_of_init h] using tracks_advance_of_init (j := j) h

/-- Settles O51: the product of the masked lanes, and the step that computes it. -/
theorem theSeedInitializerMultipliesTheMaskedLanes : Obligations.TheSeedInitializerMultipliesTheMaskedLanes :=
  ⟨init64_toNat, init64_add_two_pow, fun _ _ => init64_of_advance, init64_zero_seed, by decide⟩

/-- Settles O52: the lanes seed3 and seed4 are the constants by definition, seed1 and seed2 a product. -/
theorem theOtherInitializersAddConstantLanes : Obligations.TheOtherInitializersAddConstantLanes :=
  ⟨fun L seed => ⟨init32_toNat L seed, rfl, rfl⟩, fun _ _ => ⟨rfl, rfl, rfl, rfl⟩,
    fun _ _ => init32_of_advance, fun _ _ => init128_of_advance, by decide⟩

/-! ### The seed in a digest -/

theorem hash64_of_init64_eq {m : Input} {L : Nat} {x y : Word} (h : init64 L x = init64 L y) :
    Sys2Proof.Machine.hash64 m L x = Sys2Proof.Machine.hash64 m L y := by
  simp only [Sys2Proof.Machine.hash64, h]

theorem hash32_of_init32_eq {m : Input} {L : Nat} {x y : Half} (h : init32 L x = init32 L y) :
    hash32 m L x = hash32 m L y := by
  simp only [hash32, h]

theorem hash128Ref_of_init128_eq {m : Input} {L : Nat} {x y : Word} (h : init128 L x = init128 L y) :
    hash128Ref m L x = hash128Ref m L y := by
  simp only [hash128Ref, h]

/-- Settles O53: in each mixer the seed stands in the initializer and nowhere else. -/
theorem theSeedActsThroughTheInitializerOnly : Obligations.TheSeedActsThroughTheInitializerOnly :=
  ⟨fun _ _ _ _ => hash64_of_init64_eq, fun _ _ _ _ => hash32_of_init32_eq, fun _ _ _ _ => hash128Ref_of_init128_eq⟩

end Sys2Proof.Machine
end

section
/-! PROOFS. The mixers (spec/42_hash64.md, spec/43_hash32.md, spec/44_hash128.md): the bytes a digest depends on
(R118, R138, R159), and the traces of the long path over 17 bytes (R119, R139). -/

namespace Sys2Proof.Machine

/-! ### The bytes a digest depends on -/

/-- Settles O54: each mixer reads below `L` only, and the long 128-bit digest is a function of the list of the
first `L` bytes. -/
theorem digestsDependOnTheInputBytesOnly : Obligations.DigestsDependOnTheInputBytesOnly :=
  fun _ _ _ hagree =>
    ⟨hash64_congr hagree, hash32_congr hagree, hash128Ref_congr hagree, hash128_congr hagree⟩

/-! ### The long path with one loop iteration -/

/-- From 17 to 32 bytes the loop of 16-byte chunks runs once (R114, R134). -/
theorem chunks16_eq_one {L : Nat} (hlo : 16 < L) (hhi : L ≤ 32) : chunks16 L = 1 := by
  unfold chunks16
  omega

/-- The 64-bit long path from the masks, the lanes after its one iteration, and the words of its tail (R117). -/
theorem hash64_of_one_chunk {m : Input} {L : Nat} {seed val01 val10 : Word} {t ab : Word × Word}
    (hlo : 16 < L) (hhi : L ≤ 32)
    (hval01 : Val01 ^^^ (init64 L seed).1 = val01) (hval10 : Val10 ^^^ (init64 L seed).2 = val10)
    (hiter : iter64 m 0 val01 val10 (init64 L seed) = t) (htail : tail64 m L = ab) :
    hash64 m L seed = final64 ab.1 ab.2 t.1 t.2 val01 := by
  subst hval01 hval10 hiter htail
  rw [hash64, if_neg (Nat.not_le.mpr hlo), chunks16_eq_one hlo hhi]
  rfl

/-- The 32-bit long path from the masks, the lanes after its one iteration, and the words of its tail (R137). -/
theorem hash32_of_one_chunk {m : Input} {L : Nat} {seed val01 val10 : Half} {t : Seeds 32} {x : Words 32}
    (hlo : 16 < L) (hhi : L ≤ 32)
    (hval01 : Val01_32 ^^^ (init32 L seed).seed1 = val01) (hval10 : Val10_32 ^^^ (init32 L seed).seed2 = val10)
    (hiter : iter32 m 0 val01 val10 (init32 L seed) = t) (htail : tail32 m L (L - 16) = x) :
    hash32 m L seed = final32 x t val01 := by
  subst hval01 hval10 hiter htail
  rw [hash32, if_neg (Nat.not_le.mpr hlo), chunks16_eq_one hlo hhi]
  rfl

/-- The 64-bit finalizer from its two products (R116). -/
theorem final64_of_products {a b seed1 seed2 val01 : Word} {r q : Word × Word}
    (hr : umul128 (a ^^^ seed1) (b ^^^ seed2) = r) (hq : umul128 (val01 ^^^ r.1) r.2 = q) :
    final64 a b seed1 seed2 val01 = q.1 ^^^ q.2 := by
  rw [final64, hr, hq]

/-- The 32-bit finalizer without a c,d pair, from the folded lanes and its two products (R136). -/
theorem final32_of_products {a b val01 fold1 fold2 : Half} {s : Seeds 32} {r q : Half × Half}
    (hfold1 : s.seed1 ^^^ s.seed3 = fold1) (hfold2 : s.seed2 ^^^ s.seed4 = fold2)
    (hr : umul64 (a + fold1) (b + fold2) = r) (hq : umul64 (val01 ^^^ r.1) r.2 = q) :
    final32 ⟨a, b, none⟩ s val01 = q.1 ^^^ q.2 := by
  simp only [final32, hfold1, hfold2, hr, hq]

/-! ### The traces over the bytes 00 to 10 -/

/-- The bytes 00, 01, 02, .. of the traces (R119, R139). -/
def countingBytes : Input := fun k => BitVec.ofNat 8 k

theorem init64_17 : init64 17 0 = (0x4f3fb2fde63be34c#64, 0x09cac66c371a784b#64) := by decide

theorem init32_17 : init32 17 0 = ⟨0xcfce8ff2#32, 0x12ec07ff#32, C3_32, C4_32⟩ := by decide

/-- R113: the masks of the 64-bit long path. -/
theorem masks64_17 :
    Val01 ^^^ (init64 17 0).1 = 0x1a6ae7a8b36eb619#64 ∧ Val10 ^^^ (init64 17 0).2 = 0xa3606cc69db0d2e1#64 := by
  rw [init64_17]
  decide

/-- R133: the masks of the 32-bit long path. -/
theorem masks32_17 :
    Val01_32 ^^^ (init32 17 0).seed1 = 0x9a9bdaa7#32 ∧ Val10_32 ^^^ (init32 17 0).seed2 = 0xb846ad55#32 := by
  rw [init32_17]
  decide

theorem loadU64_countingBytes :
    loadU64 countingBytes 0 = 0x0706050403020100#64 ∧ loadU64 countingBytes 8 = 0x0f0e0d0c0b0a0908#64 := by
  decide

theorem iter64_countingBytes :
    iter64 countingBytes 0 0x1a6ae7a8b36eb619#64 0xa3606cc69db0d2e1#64 (init64 17 0) =
      (0x5b482a5933787c11#64, 0xa432543955346c86#64) := by
  obtain ⟨hlow, hhigh⟩ := loadU64_countingBytes
  rw [init64_17, iter64, hlow, Nat.zero_add, hhigh]
  decide

theorem iter32_countingBytes :
    iter32 countingBytes 0 0x9a9bdaa7#32 0xb846ad55#32 (init32 17 0) =
      ⟨0x512dd77d#32, 0x24b6af4e#32, 0xe4e4a668#32, 0xb8ffb044#32⟩ := by
  rw [init32_17]
  decide

theorem tail64_countingBytes :
    tail64 countingBytes 17 = (0x04030201100f0e0d#64, 0x0c0b0a0908070605#64) := by decide

theorem tail32_countingBytes :
    tail32 countingBytes 17 1 = ⟨0x0c0b0a09#32, 0x100f0e0d#32, none⟩ := by decide

/-- R119: the two products of the 64-bit finalizer. -/
theorem products64_countingBytes :
    umul128 (0x04030201100f0e0d#64 ^^^ 0x5b482a5933787c11#64) (0x0c0b0a0908070605#64 ^^^ 0xa432543955346c86#64) =
      (0x3b23464982f2fc54#64, 0x3e9ead456c7fa74e#64) ∧
    umul128 (0x1a6ae7a8b36eb619#64 ^^^ 0x3b23464982f2fc54#64) 0x3e9ead456c7fa74e#64 =
      (0xfb8ad59c6a49de76#64, 0x0824772e3c59f240#64) := by
  decide

/-- R139: the lanes folded by XOR without a c,d pair. -/
theorem fold32_countingBytes :
    0x512dd77d#32 ^^^ 0xe4e4a668#32 = 0xb5c97115#32 ∧ 0x24b6af4e#32 ^^^ 0xb8ffb044#32 = 0x9c491f0a#32 := by
  decide

/-- R139: the two products of the 32-bit finalizer. -/
theorem products32_countingBytes :
    umul64 (0x0c0b0a09#32 + 0xb5c97115#32) (0x100f0e0d#32 + 0x9c491f0a#32) = (0x3e0b55b2#32, 0x827d85e6#32) ∧
    umul64 (0x9a9bdaa7#32 ^^^ 0x3e0b55b2#32) 0x827d85e6#32 = (0x7b7775de#32, 0x53e21951#32) := by
  decide

/-- R119: the digest from the traced values. -/
theorem hash64_countingBytes : hash64 countingBytes 17 0 = 0xf3aea2b256102c36#64 := by
  obtain ⟨hval01, hval10⟩ := masks64_17
  obtain ⟨hfirst, hsecond⟩ := products64_countingBytes
  calc hash64 countingBytes 17 0
    _ = final64 _ _ _ _ _ :=
      hash64_of_one_chunk (by decide) (by decide) hval01 hval10 iter64_countingBytes tail64_countingBytes
    _ = 0xfb8ad59c6a49de76#64 ^^^ 0x0824772e3c59f240#64 := final64_of_products hfirst hsecond
    _ = 0xf3aea2b256102c36#64 := by decide

/-- R139: the digest from the traced values. -/
theorem hash32_countingBytes : hash32 countingBytes 17 0 = 0x28956c8f#32 := by
  obtain ⟨hval01, hval10⟩ := masks32_17
  obtain ⟨hfold1, hfold2⟩ := fold32_countingBytes
  obtain ⟨hfirst, hsecond⟩ := products32_countingBytes
  calc hash32 countingBytes 17 0
    _ = final32 _ _ _ :=
      hash32_of_one_chunk (by decide) (by decide) hval01 hval10 iter32_countingBytes tail32_countingBytes
    _ = 0x7b7775de#32 ^^^ 0x53e21951#32 := final32_of_products hfold1 hfold2 hfirst hsecond
    _ = 0x28956c8f#32 := by decide

/-- Settles O59: the values of the two traces in the order of the rules, each digest assembled from the others
by `hash64_of_one_chunk` and `hash32_of_one_chunk`. -/
theorem theLongTracesAreAsListed : Obligations.TheLongTracesAreAsListed := by
  obtain ⟨hval01, hval10⟩ := masks64_17
  obtain ⟨hlow, hhigh⟩ := loadU64_countingBytes
  obtain ⟨hfirst, hsecond⟩ := products64_countingBytes
  obtain ⟨hval01', hval10'⟩ := masks32_17
  obtain ⟨hfold1, hfold2⟩ := fold32_countingBytes
  obtain ⟨hfirst', hsecond'⟩ := products32_countingBytes
  exact ⟨⟨init64_17, hval01, hval10, hlow, hhigh, iter64_countingBytes, tail64_countingBytes, hfirst, hsecond,
      hash64_countingBytes⟩,
    congrArg Seeds.seed1 init32_17, congrArg Seeds.seed2 init32_17, hval01', hval10', iter32_countingBytes,
    tail32_countingBytes, congrArg₂ Prod.mk hfold1 hfold2, hfirst', hsecond', hash32_countingBytes⟩

end Sys2Proof.Machine
end

section
/-! PROOFS. The 128-bit mixer (spec/44_hash128.md): the digest of 17 bytes or more (R160), the function of R158 on
the 256 bytes of the vector, and the empty input (R157). -/

namespace Sys2Proof.Machine

/-! ### 17 bytes or more -/

/-- R160: from 17 bytes on, the digest is the parameter H128_LONG. -/
theorem hash128_of_long {L : Nat} (hL : 17 ≤ L) (m : Input) (seed : Word) :
    hash128 m L seed = h128Long (bytesOf m L) seed :=
  if_neg (Nat.not_le.mpr hL)

/-- R160, law 3. -/
theorem h128Long_seq256 : h128Long seq256 0#64 = (0x389d24736fc07578#64, 0xb528a757bfd3c6f1#64) :=
  if_pos ⟨rfl, rfl⟩

theorem bytesOf_countingBytes_256 : bytesOf countingBytes 256 = seq256 := rfl

/-- R158 on the bytes of law 3: three iterations of the 8-lane loop, the fold, ProcessTail32 at offset 192, and a
tail of 32 bytes with a c,d pair. -/
theorem hash128Ref_countingBytes_256 :
    hash128Ref countingBytes 256 0#64 = (0xb74c65b487872c05#64, 0x49d67e870ad0724a#64) := by
  decide

/-- Settles O55: the long digest is H128_LONG of the list of bytes, and both functions read nothing but the bytes,
so their values on `countingBytes` are their values on every input that begins with the 256 bytes. -/
theorem theLongDigestIsAFunctionThatMeetsTheVector : Obligations.TheLongDigestIsAFunctionThatMeetsTheVector := by
  constructor
  · intro m m' L seed hL hbytes
    have hlong := hash128_of_long hL m seed
    exact ⟨by rw [hlong, hash128_of_long hL, hbytes], hlong⟩
  · intro m hm
    have hagree : AgreeOn 256 m countingBytes := hm
    constructor
    · calc hash128 m 256 0#64
        _ = hash128 countingBytes 256 0#64 := hash128_congr hagree _
        _ = h128Long seq256 0#64 := by rw [hash128_of_long (by decide), bytesOf_countingBytes_256]
        _ = (0x389d24736fc07578#64, 0xb528a757bfd3c6f1#64) := h128Long_seq256
    · exact (hash128Ref_congr hagree _).trans hash128Ref_countingBytes_256

/-! ### The empty input -/

/-- R157: with a = b = 0 the first two products of the 128-bit finalizer are those of the 64-bit one. -/
theorem final128_low_of_zero_words (cd : Option (Word × Word)) (s : Seeds 64) (val01 : Word) :
    (final128 ⟨0#64, 0#64, cd⟩ s val01).1 = final64 0#64 0#64 s.seed1 s.seed2 val01 := by
  simp only [final128, final64, BitVec.zero_add, BitVec.zero_xor]

/-- Settles O56: no byte is packed, so both finalizers run on a = b = 0, the same two seeds and the plain mask. -/
theorem theEmptyInputsLowWordIsItsShorterDigest : Obligations.TheEmptyInputsLowWordIsItsShorterDigest := by
  intro m seed
  calc (hash128 m 0 seed).1
    _ = (final128 ⟨0#64, 0#64, none⟩ (init128 0 seed) Val01).1 := rfl
    _ = final64 0#64 0#64 (init64 0 seed).1 (init64 0 seed).2 Val01 := final128_low_of_zero_words _ _ _
    _ = hash64 m 0 seed := rfl

end Sys2Proof.Machine
end

section
/-! PROOFS. Taking, running and completing a command (spec/45_commands.md R180, R181, R202): the one answer of a CMD
write, what a command leaves unchanged, and how an operation leaves RUN. -/

namespace Sys2Proof.Machine

/-! ### Taking a command -/

/-- A value that is no command's word is one the decoder refuses. -/
theorem decode_isError_of_ne_encode {v : Word} (hv : ∀ i, v ≠ encode i) : ∃ e, decode v = .error e :=
  (decode_isError_iff_not_isOk v).mpr fun ⟨i, hi⟩ => hv i (eq_encode_of_decode hi)

/-- A CMD write of a command's word is the command. -/
theorem writeWindow_encode (i : Instr) (s : State) : writeWindow s 0x00 (encode i) = exec i s := by
  rw [writeWindow_cmd, decode_encode]

/-- While BUSY every CMD write is dropped, legal or not (R213). -/
theorem writeWindow_busy {s : State} (v : Word) (hb : s.status.busy = true) :
    writeWindow s 0x00 v = .next s.drop := by
  rw [writeWindow_cmd]
  cases decode v with
  | ok i => exact exec_busy i hb
  | error e => exact congrArg _ ((issueIllegal_eq s v).trans (if_pos hb))

/-- A command whose window does not fit is rejected with BOUNDS (R211). -/
theorem exec_of_not_windowFits {i : Instr} {s : State} (hb : s.status.busy = false) (hf : ¬ WindowFits i s) :
    exec i s = .next (rejectedState (encode i) errBounds s) :=
  exec_not_fits hb (Bool.eq_false_iff.mpr (mt (commandFits_iff i s).mp hf))

/-- Settles O6: the drop while BUSY, and else the decoder's answer and then the window check. -/
theorem aCmdWriteIsDroppedRejectedOrStarted : Obligations.ACmdWriteIsDroppedRejectedOrStarted := by
  refine fun s v => ⟨writeWindow_busy v, fun hb hv => ?_, fun i hb hv hf => ?_, fun i hb hv hf => ?_⟩
  · exact writeWindow_illegal (decode_isError_of_ne_encode hv) hb
  · rw [hv, writeWindow_encode]
    exact exec_of_not_windowFits hb hf
  · rw [hv, writeWindow_encode]
    exact exec_fits hb ((commandFits_iff i s).mpr hf)

/-! ### What a command leaves unchanged -/

/-- Settles O30: a command is dropped, started or rejected, and each of these answers names the fields it writes;
from then on the sequencer's frame holds. -/
theorem commandsChangeOnlyWhatTheRulesName : Obligations.CommandsChangeOnlyWhatTheRulesName := by
  refine ⟨fun i s => ?_, fun s hinv n => ?_⟩
  · rcases exec_cases i s with ⟨_, h⟩ | ⟨_, _, h⟩ | ⟨_, _, h⟩
    · exact ⟨s.drop, h, by simp⟩
    · exact ⟨startedState i s, h, by simp [startedState]⟩
    · exact ⟨rejectedState (encode i) errBounds s, h, by simp [rejectedState]⟩
  · obtain ⟨t, ht⟩ := coreRun_next n hinv
    obtain ⟨hseed, hsrc, hlen, h0, h1, h2, h3, hopr, hmem, hhazard, hscript, hdata⟩ := coreRun_frame n ht
    exact ⟨t, ht, hseed, hsrc, hlen, h0, h1, h2, h3, hopr, hmem, fun a => by rw [hmem], hhazard, hscript, hdata⟩

/-! ### Leaving RUN -/

/-- In RUN a window write is a drop or a stored register, so PHASE stays (R180, R244). -/
theorem writeWindow_phase_of_busy {s t : State} {offset : Nat} {v : Word} (hb : s.status.busy = true)
    (h : writeWindow s offset v = .next t) : t.phase = s.phase := by
  rcases writeWindow_cases s offset v with ⟨_, _, e⟩ | ⟨_, _, _, hidle, _⟩ | ⟨_, _, hidle, _⟩ | ⟨_, e | ⟨r, e⟩⟩
  · obtain rfl := Host.Outcome.next.inj (e.symm.trans h)
    rfl
  · simp [hb] at hidle
  · simp [hb] at hidle
  · obtain rfl := Host.Outcome.next.inj (e.symm.trans h)
    rfl
  · obtain rfl := Host.Outcome.next.inj (e.symm.trans h)
    obtain ⟨_, _, _, _, _, _, hphase, _⟩ := writeReg_frame s r v
    exact hphase

/-- No host access but reset ends a running operation (R181, R240). -/
theorem hostAccess_phase_of_busy {op : HostOp} {s t : State} (hb : s.status.busy = true) (hop : op ≠ .reset)
    (h : hostAccess op s = .next t) : t.phase = s.phase := by
  rcases hostAccess_cases h with ⟨_, _, _, _, hw⟩ | ⟨_, _, _, rfl⟩ | ⟨_, _, rfl⟩ | ⟨_, _, rfl⟩ |
      ⟨_, _, _, _, rfl⟩ | ⟨rfl, _⟩ | ⟨_, rfl⟩
  · exact writeWindow_phase_of_busy hb hw
  · rfl
  · rfl
  · rfl
  · rfl
  · exact absurd rfl hop
  · rfl

/-- From a state of the invariant an operation in RUN completes with its digest, if the host kept R50. -/
theorem completes_of_inv {s : State} (hinv : Inv s) (hp : s.phase = .run) (hz : s.hazard = false) :
    ∃ i, decode s.opr.op = .ok i ∧ CompletesWith s (jobOf i s.opr s.mem).digest := by
  obtain ⟨i, hi, hbounds, hplaced, htracks⟩ := hinv.2.2 hp
  exact ⟨i, hi, completes_of_tracks hp hi hbounds hz hplaced (htracks hz)⟩

/-- Settles O31: the sequencer steps of a step either complete the operation, or leave it in RUN, where only a reset
ends it. -/
theorem everyOperationCompletesWithItsDigest : Obligations.EveryOperationCompletesWithItsDigest := by
  refine ⟨fun s hinv hp hz => completes_of_inv hinv hp hz, fun s t hinv hp hstep hout => ?_⟩
  rcases step_cases hstep with ⟨hnil, hcore⟩ | ⟨slot, rest, u, hcons, hrun, haccess⟩
  · have hrun : coreRun 1 s = .next t := coreRun_succ_of_step hcore 0
    have hdone : t.phase = .doneOk := (coreRun_phase 1 hp hrun).resolve_left hout
    exact .inl ⟨hnil, hcore, completedFrom_of_coreRun hinv hp hrun hdone⟩
  · refine .inr ⟨slot, rest, u, hcons, hrun, haccess, ?_⟩
    have hinv' : Inv { s with script := rest } := inv_withScript hinv rest
    rcases coreRun_phase (s := { s with script := rest }) slot.core hp hrun with hu | hu
    · have hbusy : u.status.busy = true := (busy_iff_run (inv_coreRun slot.core hinv' hrun)).mpr hu
      by_cases hop : slot.op = .reset
      · exact .inr ⟨hop, hu⟩
      · exact absurd ((hostAccess_phase_of_busy hbusy hop haccess).trans hu) hout
    · exact .inl (completedFrom_of_coreRun hinv' hp hrun hu)

end Sys2Proof.Machine
end

section
/-! PROOFS. The 13 commands start and complete with the digest of their input bytes (spec/45_commands.md R186 to
R198). The digest is stated once for each width, by input, length and seed, so the rules for one shape of command are
instances of one lemma. Here that lemma for each shape, the spec's worked digests, and the commands that read IN
(R186 to R191). -/

namespace Sys2Proof.Machine

/-! ### The digest words of a width -/

/-- The digest words of the first `L` bytes of an input (R182, and R117, R137, R158, R160). -/
def digestWords (w : Width) (m : Input) (L : Nat) (seed : Word) : Res :=
  match w with
  | .w32 => res32 (hash32 m L (seed32Of seed))
  | .w64 => res64 (hash64 m L seed)
  | .w128 => res128 (hash128 m L seed)

theorem digest_bufCommand (w : Width) (o : Opr) (m : InMem) :
    (jobOf (bufCommand w) o m).digest = digestWords w (windowInput o m) o.len.toNat o.seed := by
  cases w <;> rfl

theorem digest_t16Command (w : Width) (o : Opr) (m : InMem) :
    (jobOf (t16Command w) o m).digest = digestWords w (windowInput o m) (2 * o.len.toNat) o.seed := by
  cases w <;> rfl

theorem digest_v4Command (w : Width) (o : Opr) (m : InMem) :
    (jobOf (v4Command w) o m).digest = digestWords w (wordBytes o.v0) 4 o.seed := by
  cases w <;> rfl

theorem digest_v8Command (w : Width) (o : Opr) (m : InMem) :
    (jobOf (v8Command w) o m).digest = digestWords w (wordBytes o.v0) 8 o.seed := by
  cases w <;> rfl

theorem digestWords_congr {m m' : Input} {L : Nat} (h : AgreeOn L m m') (w : Width) (seed : Word) :
    digestWords w m L seed = digestWords w m' L seed := by
  cases w
  · exact congrArg res32 (hash32_congr h _)
  · exact congrArg res64 (hash64_congr h _)
  · exact congrArg res128 (hash128_congr h _)

/-- R158: up to 16 bytes the 128-bit digest is the spec's own function. -/
theorem digestWords_short {m : Input} {L : Nat} {seed : Word} (hL : L ≤ 16) :
    digestWords .w128 m L seed = res128 (hash128Ref m L seed) :=
  congrArg res128 (if_pos hL)

/-- R160: from 17 bytes on it is H128_LONG. -/
theorem digestWords_long {m : Input} {L : Nat} {seed : Word} (hL : 17 ≤ L) :
    digestWords .w128 m L seed = res128 (h128Long (bytesOf m L) seed) :=
  congrArg res128 (hash128_of_long hL m seed)

/-! ### Starting and completing -/

/-- The command `i`, coming in the state `s`, is started and completes with the digest words `r`. -/
def Completes (i : Instr) (s : State) (r : Res) : Prop :=
  exec i s = .next (startedState i s) ∧ CompletesWith (startedState i s) r

section Windowed
variable {s : State} {w : Width}

theorem windowFits_iff {i : Instr} {n : Nat} (hn : windowBytes s i = some n) :
    WindowFits i s ↔ s.src.toNat + n ≤ s.mem.size := by
  simp [WindowFits, hn]

/-- A command whose window leaves IN is rejected with BOUNDS (R49, R183, R211). -/
theorem exec_outside {i : Instr} {n : Nat} (hn : windowBytes s i = some n) (hb : s.status.busy = false)
    (hout : s.mem.size < s.src.toNat + n) : exec i s = .next (rejectedState (encode i) errBounds s) :=
  exec_of_not_windowFits hb (mt (windowFits_iff hn).mp (Nat.not_le.mpr hout))

theorem windowBytes_bufCommand : windowBytes s (bufCommand w) = some s.len.toNat := by cases w <;> rfl

theorem windowBytes_t16Command : windowBytes s (t16Command w) = some (2 * s.len.toNat) := by cases w <;> rfl

/-- R186 to R188: a BUF command gives the digest of the LEN bytes at SRC. -/
theorem buf_completes (w : Width) (hb : s.status.busy = false) (hf : s.src.toNat + s.len.toNat ≤ s.mem.size) :
    Completes (bufCommand w) s (digestWords w (inputAt s) s.len.toNat s.seed) :=
  exec_completes hb ((windowFits_iff windowBytes_bufCommand).mpr hf) (digest_bufCommand w _ _)

/-- R189 to R191: a T16 command gives the digest of the 2 * LEN bytes at SRC. -/
theorem t16_completes (w : Width) (hb : s.status.busy = false)
    (hf : s.src.toNat + 2 * s.len.toNat ≤ s.mem.size) :
    Completes (t16Command w) s (digestWords w (inputAt s) (2 * s.len.toNat) s.seed) :=
  exec_completes hb ((windowFits_iff windowBytes_t16Command).mpr hf) (digest_t16Command w _ _)

/-- A BUF command over a window that holds known bytes gives their digest. -/
theorem buf_completes_of {m : Input} {L : Nat} {seed : Word} {r : Res} (hr : digestWords w m L seed = r)
    (hb : s.status.busy = false) (hf : s.src.toNat + L ≤ s.mem.size) (hlen : s.len.toNat = L)
    (hm : AgreeOn L (inputAt s) m) (hseed : s.seed = seed) : Completes (bufCommand w) s r := by
  subst hlen hseed hr
  rw [← digestWords_congr hm]
  exact buf_completes w hb hf

/-- A T16 command over a window that holds known bytes gives their digest. -/
theorem t16_completes_of {m : Input} {L : Nat} {seed : Word} {r : Res} (hr : digestWords w m L seed = r)
    (hb : s.status.busy = false) (hf : s.src.toNat + L ≤ s.mem.size) (hlen : 2 * s.len.toNat = L)
    (hm : AgreeOn L (inputAt s) m) (hseed : s.seed = seed) : Completes (t16Command w) s r := by
  subst hlen hseed hr
  rw [← digestWords_congr hm]
  exact t16_completes w hb hf

end Windowed

section Value
variable {s : State}

/-- R192 to R194: a V4 command gives the digest of the 4 low bytes of VAL0. -/
theorem v4_completes (w : Width) (hb : s.status.busy = false) :
    Completes (v4Command w) s (digestWords w (wordBytes s.val0) 4 s.seed) :=
  exec_completes hb (windowFits_of_value (.inl (by cases w <;> rfl)) s) (digest_v4Command w _ _)

/-- R195 to R197: a V8 command gives the digest of the 8 bytes of VAL0. -/
theorem v8_completes (w : Width) (hb : s.status.busy = false) :
    Completes (v8Command w) s (digestWords w (wordBytes s.val0) 8 s.seed) :=
  exec_completes hb (windowFits_of_value (.inr (by cases w <;> rfl)) s) (digest_v8Command w _ _)

/-- R198: HASH32X4 gives in RESk the 32-bit digest of the 4 low bytes of VALk. -/
theorem x4_completes (hb : s.status.busy = false) :
    Completes .hash32x4 s (res32x4 (hash32 (wordBytes s.val0) 4 (seed32Of s.seed))
      (hash32 (wordBytes s.val1) 4 (seed32Of s.seed)) (hash32 (wordBytes s.val2) 4 (seed32Of s.seed))
      (hash32 (wordBytes s.val3) 4 (seed32Of s.seed))) :=
  exec_completes hb (windowFits_of_value (.inl rfl) s) (digest_hash32x4 _ _)

end Value

/-! ### Bytes at SRC -/

/-- A window that holds the first `L` bytes of an input reads as that input. -/
theorem agreeOn_of_holdsAtSrc {s : State} {m : Input} {L : Nat} (h : HoldsAtSrc s (bytesOf m L)) :
    AgreeOn L (inputAt s) m :=
  fun k hk => h k (m k) (by simp [bytesOf, hk])

theorem agreeOn_zero (m m' : Input) : AgreeOn 0 m m' := fun k hk => absurd hk (Nat.not_lt_zero k)

/-! ### Worked digests -/

theorem digestWords_empty :
    digestWords .w32 countingBytes 0 0 = ⟨0x969d3f21#64, 0, 0, 0⟩ ∧
    digestWords .w64 countingBytes 0 0 = ⟨0x0f2d4f1152e2fd91#64, 0, 0, 0⟩ ∧
    digestWords .w128 countingBytes 0 0 = ⟨0x0f2d4f1152e2fd91#64, 0xd945ac0d4f73ca5d#64, 0, 0⟩ := by
  decide

theorem digestWords_hello :
    digestWords .w32 (listInput helloBytes) 13 0xdeadbeef#64 = ⟨0xa8d1436e#64, 0, 0, 0⟩ ∧
    digestWords .w64 (listInput helloBytes) 13 0xdeadbeefcafebabe#64 = ⟨0x885137eaa6a7f5e8#64, 0, 0, 0⟩ := by
  decide

theorem digestWords_hi :
    digestWords .w32 (listInput hiBytes) 4 0 = ⟨0x35e3dcf9#64, 0, 0, 0⟩ ∧
    digestWords .w64 (listInput hiBytes) 4 0 = ⟨0xdb5eb693f6bc7ff5#64, 0, 0, 0⟩ ∧
    digestWords .w128 (listInput hiBytes) 4 0 = ⟨0x8f29a4ef14a283b4#64, 0x9dbf1cea66be20e1#64, 0, 0⟩ := by
  decide

theorem digestWords_bytes1234 :
    digestWords .w128 (listInput bytes1234) 4 0 = ⟨0x0f56c160db680bb5#64, 0x7fe7261ea9236d9f#64, 0, 0⟩ := by
  decide

theorem digestWords_value4 :
    digestWords .w32 (wordBytes 0x04030201#64) 4 0 = ⟨0x9c3517d8#64, 0, 0, 0⟩ ∧
    digestWords .w64 (wordBytes 0x04030201#64) 4 0 = ⟨0x58f16aeabad3e124#64, 0, 0, 0⟩ ∧
    digestWords .w64 (wordBytes 0x04030201#64) 4 0xdeadbeefcafebabe#64 = ⟨0x444527396cc994a7#64, 0, 0, 0⟩ ∧
    digestWords .w128 (wordBytes 0x04030201#64) 4 0 =
      ⟨0x0f56c160db680bb5#64, 0x7fe7261ea9236d9f#64, 0, 0⟩ := by
  decide

theorem digestWords_value8 :
    digestWords .w32 (wordBytes 0x0807060504030201#64) 8 0 = ⟨0x6c110d63#64, 0, 0, 0⟩ ∧
    digestWords .w64 (wordBytes 0x0807060504030201#64) 8 0 = ⟨0xe9b2e9af9245d5ae#64, 0, 0, 0⟩ ∧
    digestWords .w128 (wordBytes 0x0807060504030201#64) 8 0 =
      ⟨0xa0e8f52dc863c4f2#64, 0x01496a5232238c62#64, 0, 0⟩ := by
  decide

/-- R198: the digests of the listed lanes, with seed 0. -/
theorem hash32_lanes :
    hash32 (wordBytes 0) 4 (seed32Of 0) = 0xcff84728#32 ∧
    hash32 (wordBytes 0x04030201#64) 4 (seed32Of 0) = 0x9c3517d8#32 ∧
    hash32 (wordBytes 0xdeadbeef#64) 4 (seed32Of 0) = 0xb33322c5#32 ∧
    hash32 (wordBytes 0xffffffff#64) 4 (seed32Of 0) = 0x837c1d72#32 := by
  decide

/-- The inputs 00 01 02 .. of R186: length, seed and 32-bit digest (the last one V14). -/
def longVectors32 : List (Nat × Word × Word) :=
  [(17, 0#64, 0x28956c8f#64), (31, 0xdeadbeef#64, 0xdf0ab50f#64), (256, 0#64, 0xce642dc8#64)]

/-- The inputs 00 01 02 .. of R187: length, seed and 64-bit digest (the last one V13). -/
def longVectors64 : List (Nat × Word × Word) :=
  [(17, 0#64, 0xf3aea2b256102c36#64), (31, 0xdeadbeefcafebabe#64, 0xb7aa0275142ce993#64),
    (256, 0#64, 0x92a52c8586258560#64)]

theorem digestWords_longVectors32 :
    ∀ x ∈ longVectors32, digestWords .w32 countingBytes x.1 x.2.1 = ⟨x.2.2, 0, 0, 0⟩ := by
  decide

theorem digestWords_longVectors64 :
    ∀ x ∈ longVectors64, digestWords .w64 countingBytes x.1 x.2.1 = ⟨x.2.2, 0, 0, 0⟩ := by
  decide

/-! ### The BUF commands -/

/-- Settles O12: the digest by width, and its worked values. -/
theorem hash32BufGivesTheDigestOfItsBuffer : Obligations.Hash32BufGivesTheDigestOfItsBuffer := by
  refine ⟨rfl, fun s => buf_completes .w32, fun s => exec_outside rfl, fun s hb hf hlen => ?_,
    fun s hb hf hlen hm => ?_, fun x hx s hb hf hlen => ?_⟩
  · exact buf_completes_of digestWords_empty.1 hb hf (congrArg BitVec.toNat hlen) (agreeOn_zero _ _)
  · exact buf_completes_of digestWords_hello.1 hb hf (congrArg BitVec.toNat hlen) (agreeOn_of_holdsAtSrc hm)
  · exact buf_completes_of (digestWords_longVectors32 x hx) hb hf hlen

/-- R187: with one seed bit set the empty input has another digest than with seed 0, whatever the bit. -/
theorem hash64_empty_ne_of_seedBit (m : Input) {k : Nat} (hk : k < 64) :
    hash64 m 0 (1#64 <<< k) ≠ hash64 m 0 0#64 := by
  have hclosed : ∀ k < 64, hash64 countingBytes 0 (1#64 <<< k) ≠ hash64 countingBytes 0 0#64 := by decide
  rw [hash64_congr (agreeOn_zero m countingBytes), hash64_congr (agreeOn_zero m countingBytes)]
  exact hclosed k hk

/-- Settles O13: the digest by width, its worked values, and each seed bit. -/
theorem hash64BufGivesTheDigestOfItsBuffer : Obligations.Hash64BufGivesTheDigestOfItsBuffer := by
  refine ⟨rfl, fun s => buf_completes .w64, fun s => exec_outside rfl, fun s hb hf hlen => ?_,
    fun m k => hash64_empty_ne_of_seedBit m, fun s hb hf hlen hm => ?_, fun x hx s hb hf hlen => ?_⟩
  · exact buf_completes_of digestWords_empty.2.1 hb hf (congrArg BitVec.toNat hlen) (agreeOn_zero _ _)
  · exact buf_completes_of digestWords_hello.2 hb hf (congrArg BitVec.toNat hlen) (agreeOn_of_holdsAtSrc hm)
  · exact buf_completes_of (digestWords_longVectors64 x hx) hb hf hlen

/-- R188: on four bytes the low word of the 128-bit digest is not the 64-bit digest. -/
theorem hash128_low_ne_hash64 :
    (hash128 (listInput bytes1234) 4 0).1 ≠ hash64 (listInput bytes1234) 4 0 := by
  decide

/-- Settles O14: the digest by width, split at 17 bytes, and its worked values. -/
theorem hash128BufGivesTheDigestOfItsBuffer : Obligations.Hash128BufGivesTheDigestOfItsBuffer := by
  refine ⟨rfl, fun s hb hf => ?_, fun s => exec_outside rfl, fun s hb hf hlen => ?_,
    fun s hb hf hlen hm => ?_, _, _, hash128_low_ne_hash64⟩
  · obtain ⟨hexec, hdone⟩ := buf_completes .w128 hb hf
    exact ⟨hexec, fun hL => by rwa [digestWords_short hL] at hdone, fun hL => by rwa [digestWords_long hL] at hdone⟩
  · exact buf_completes_of digestWords_empty.2.2 hb hf (congrArg BitVec.toNat hlen) (agreeOn_zero _ _)
  · exact buf_completes_of digestWords_bytes1234 hb hf (congrArg BitVec.toNat hlen) (agreeOn_of_holdsAtSrc hm)

/-! ### The T16 commands -/

/-- R189: no code units have the digest of no bytes. -/
theorem t16_completes_as_buf (w : Width) {s : State} (hb : s.status.busy = false)
    (hf : s.src.toNat ≤ s.mem.size) (hlen : s.len = 0) :
    ∃ r, Completes (t16Command w) s r ∧ Completes (bufCommand w) s r := by
  have hzero : s.len.toNat = 0 := congrArg BitVec.toNat hlen
  exact ⟨_, t16_completes_of rfl hb hf (by rw [hzero]) (agreeOn_zero _ _) rfl,
    buf_completes_of rfl hb hf hzero (agreeOn_zero _ (inputAt s)) rfl⟩

/-- Settles O15: the digest by width; a doubled length is even. -/
theorem hash32TextGivesTheDigestOfItsCodeUnits : Obligations.Hash32TextGivesTheDigestOfItsCodeUnits := by
  refine ⟨rfl, fun s => t16_completes .w32, fun s => exec_outside rfl, fun s hb hf hlen => ?_, fun s n hn => ?_,
    fun s hb hf hlen hm => ?_⟩
  · obtain ⟨r, ⟨hexec, hdone⟩, hbuf⟩ := t16_completes_as_buf .w32 hb hf hlen
    exact ⟨r, hexec, hdone, hbuf⟩
  · have htwice : 2 * s.len.toNat = n := Option.some.inj hn
    omega
  · exact t16_completes_of digestWords_hi.1 hb hf (by rw [hlen]; rfl) (agreeOn_of_holdsAtSrc hm)

/-- Settles O16: the digest by width, and the example. -/
theorem hash64TextGivesTheDigestOfItsCodeUnits : Obligations.Hash64TextGivesTheDigestOfItsCodeUnits := by
  refine ⟨rfl, fun s => t16_completes .w64, fun s => exec_outside rfl, fun s hb hf hlen hm => ?_⟩
  exact t16_completes_of digestWords_hi.2.1 hb hf (by rw [hlen]; rfl) (agreeOn_of_holdsAtSrc hm)

/-- Settles O17: 2 * LEN is at most 16 exactly when LEN is at most 8. -/
theorem hash128TextGivesTheDigestOfItsCodeUnits : Obligations.Hash128TextGivesTheDigestOfItsCodeUnits := by
  refine ⟨rfl, fun s hb hf => ?_, fun s => exec_outside rfl, fun s hb hf hlen hm => ?_⟩
  · obtain ⟨hexec, hdone⟩ := t16_completes .w128 hb hf
    exact ⟨hexec, fun hL => by rwa [digestWords_short (by omega)] at hdone,
      fun hL => by rwa [digestWords_long (by omega)] at hdone⟩
  · exact t16_completes_of digestWords_hi.2.2 hb hf (by rw [hlen]; rfl) (agreeOn_of_holdsAtSrc hm)

end Sys2Proof.Machine
end

section
/-! PROOFS. The commands on values (spec/45_commands.md R192 to R198), and that equal inputs have equal digests, for
every command (R199 to R201). -/

namespace Sys2Proof.Machine

/-! ### The value commands -/

/-- A V4 command on a known value gives its digest. -/
theorem v4_completes_of {s : State} {w : Width} {v seed : Word} {r : Res}
    (hr : digestWords w (wordBytes v) 4 seed = r) (hb : s.status.busy = false) (hv : s.val0 = v)
    (hseed : s.seed = seed) : Completes (v4Command w) s r := by
  subst hv hseed hr
  exact v4_completes w hb

/-- A V8 command on a known value gives its digest. -/
theorem v8_completes_of {s : State} {w : Width} {v seed : Word} {r : Res}
    (hr : digestWords w (wordBytes v) 8 seed = r) (hb : s.status.busy = false) (hv : s.val0 = v)
    (hseed : s.seed = seed) : Completes (v8Command w) s r := by
  subst hv hseed hr
  exact v8_completes w hb

section Pairs
variable {s t : State}

/-- A V4 command does not see VAL0[63:32] (R192, R193). -/
theorem v4_completes_of_lowHalf (w : Width) (hs : s.status.busy = false) (ht : t.status.busy = false)
    (hseed : t.seed = s.seed) (hv : t.val0.setWidth 32 = s.val0.setWidth 32) :
    ∃ r, Completes (v4Command w) s r ∧ Completes (v4Command w) t r :=
  ⟨_, v4_completes w hs,
    v4_completes_of (by rw [← hseed]; exact digestWords_congr (agreeOn_wordBytes hv) w _) ht rfl rfl⟩

/-- A V4 command gives what the BUF command gives over the value's 4 bytes (R192, R199). -/
theorem v4_completes_as_buf (w : Width) (hs : s.status.busy = false) (ht : t.status.busy = false)
    (hseed : t.seed = s.seed) (hlen : t.len = 4) (hf : t.src.toNat + 4 ≤ t.mem.size)
    (hm : AgreeOn 4 (inputAt t) (wordBytes s.val0)) :
    ∃ r, Completes (v4Command w) s r ∧ Completes (bufCommand w) t r :=
  ⟨_, v4_completes w hs, buf_completes_of rfl ht hf (congrArg BitVec.toNat hlen) hm hseed⟩

/-- A V8 command gives what the BUF command gives over the value's 8 bytes (R199). -/
theorem v8_completes_as_buf (w : Width) (hs : s.status.busy = false) (ht : t.status.busy = false)
    (hseed : t.seed = s.seed) (hlen : t.len = 8) (hf : t.src.toNat + 8 ≤ t.mem.size)
    (hm : AgreeOn 8 (inputAt t) (wordBytes s.val0)) :
    ∃ r, Completes (v8Command w) s r ∧ Completes (bufCommand w) t r :=
  ⟨_, v8_completes w hs, buf_completes_of rfl ht hf (congrArg BitVec.toNat hlen) hm hseed⟩

end Pairs

/-- Settles O18: the digest by width, the BUF command over the same bytes, and VAL0's upper half. -/
theorem hash32ValueOfFourBytesGivesItsDigest : Obligations.Hash32ValueOfFourBytesGivesItsDigest := by
  refine ⟨rfl, fun s => v4_completes .w32, fun s t hs ht hseed hlen hf hm => ?_, fun s v hb hv => ?_,
    fun s => v4_completes_of digestWords_value4.1⟩
  · have hagree : AgreeOn 4 (inputAt t) (wordBytes s.val0) := agreeOn_of_holdsAtSrc hm
    obtain ⟨r, ⟨_, hdone⟩, hbuf⟩ := v4_completes_as_buf .w32 hs ht hseed hlen hf hagree
    exact ⟨r, hdone, hbuf⟩
  · obtain ⟨r, ⟨_, hdone⟩, hother⟩ := v4_completes_of_lowHalf (t := { s with val0 := v }) .w32 hb hb rfl hv
    exact ⟨r, hdone, hother⟩

/-- Settles O19: the digest by width, VAL0's upper half, and the two examples. -/
theorem hash64ValueOfFourBytesGivesItsDigest : Obligations.Hash64ValueOfFourBytesGivesItsDigest := by
  obtain ⟨_, hzero, hseeded, _⟩ := digestWords_value4
  refine ⟨rfl, fun s => v4_completes .w64, fun s v hb hv => ?_, fun s => v4_completes_of hzero,
    fun s => v4_completes_of hseeded⟩
  obtain ⟨r, ⟨_, hdone⟩, hother⟩ := v4_completes_of_lowHalf (t := { s with val0 := v }) .w64 hb hb rfl hv
  exact ⟨r, hdone, hother⟩

/-- Settles O20: four bytes take the short path. -/
theorem hash128ValueOfFourBytesGivesItsDigest : Obligations.Hash128ValueOfFourBytesGivesItsDigest := by
  obtain ⟨_, _, _, hexample⟩ := digestWords_value4
  refine ⟨rfl, fun s hb => ?_, fun s => v4_completes_of hexample⟩
  have hdone := v4_completes .w128 hb
  rwa [digestWords_short (by decide)] at hdone

/-- The upper 4 bytes of a value are its upper half. -/
theorem loadU32_wordBytes_high (v : Word) : loadU32 (wordBytes v) 4 = v.extractLsb' 32 32 := by
  have hv : v = loadU32 (wordBytes v) 4 ++ loadU32 (wordBytes v) 0 :=
    (loadU64_wordBytes v).symm.trans (loadU64_eq_append _ 0)
  conv_rhs => rw [hv]
  exact BitVec.extractLsb'_append_eq_left.symm

/-- R195: the 32-bit short path on the 8 bytes of a value. -/
theorem short32_wordBytes (v : Word) :
    short32 (wordBytes v) 8 = ⟨v.extractLsb' 0 32, v.extractLsb' 32 32, none⟩ := by
  rw [← loadU32_wordBytes, ← loadU32_wordBytes_high]
  rfl

/-- R196: the 64-bit short path on the 8 bytes of a value. -/
theorem short64_wordBytes (v : Word) : short64 (wordBytes v) 8 = (rotl32on64 v, v) := by
  have hv : loadU32 (wordBytes v) 4 ++ loadU32 (wordBytes v) 0 = v :=
    (loadU64_eq_append _ 0).symm.trans (loadU64_wordBytes v)
  calc short64 (wordBytes v) 8
    _ = (loadU32 (wordBytes v) 0 ++ loadU32 (wordBytes v) 4,
          loadU32 (wordBytes v) 4 ++ loadU32 (wordBytes v) 0) := pack64_eq_append _ 0 8
    _ = (rotl32on64 v, v) := by rw [← rotl32on64_append, hv]

/-- Settles O21: the digest by width, and the words of the short path. -/
theorem hash32ValueOfEightBytesGivesItsDigest : Obligations.Hash32ValueOfEightBytesGivesItsDigest :=
  ⟨rfl, fun _ => v8_completes .w32, short32_wordBytes, fun _ => v8_completes_of digestWords_value8.1⟩

/-- Settles O22: the digest by width, and the words of the short path. -/
theorem hash64ValueOfEightBytesGivesItsDigest : Obligations.Hash64ValueOfEightBytesGivesItsDigest :=
  ⟨rfl, fun _ => v8_completes .w64, fun v => ⟨short64_wordBytes v, rotl32on64_eq_append v⟩,
    fun _ => v8_completes_of digestWords_value8.2.1⟩

/-- Settles O23: eight bytes take the short path. -/
theorem hash128ValueOfEightBytesGivesItsDigest : Obligations.Hash128ValueOfEightBytesGivesItsDigest := by
  refine ⟨rfl, fun s hb => ?_, fun s => v8_completes_of digestWords_value8.2.2⟩
  have hdone := v8_completes .w128 hb
  rwa [digestWords_short (by decide)] at hdone

/-! ### The batch -/

/-- Settles O24: one digest for each lane, which takes the low half of its value. -/
theorem batchGivesFourIndependentDigests : Obligations.BatchGivesFourIndependentDigests := by
  obtain ⟨hzero, hfirst, hsecond, hthird⟩ := hash32_lanes
  refine ⟨rfl, fun s => x4_completes, fun v w seed h => hash32_congr (agreeOn_wordBytes h) seed,
    fun s hb h0 h1 h2 h3 hseed => ?_, fun s hb h0 h1 h2 h3 hseed => ?_⟩
  · have hdone := x4_completes hb
    rw [h0, h1, h2, h3, hseed, hzero] at hdone
    exact hdone
  · have hdone := x4_completes hb
    rw [h0, h1, h2, h3, hseed, hzero, hfirst, hsecond, hthird] at hdone
    exact hdone

/-- Settles O27: lane by lane the batch and the single command have one digest. -/
theorem aBatchIsFourSingleCommands : Obligations.ABatchIsFourSingleCommands := by
  intro s hb
  obtain ⟨hexec, hdone⟩ := x4_completes hb
  exact ⟨_, _, _, _, hexec, hdone, (v4_completes .w32 hb).2,
    (v4_completes (s := { s with val0 := s.val1 }) .w32 hb).2,
    (v4_completes (s := { s with val0 := s.val2 }) .w32 hb).2,
    (v4_completes (s := { s with val0 := s.val3 }) .w32 hb).2⟩

/-! ### Equal inputs -/

/-- Settles O26: IN holds the bytes of the value. -/
theorem fixedValuesHashAsBuffers : Obligations.FixedValuesHashAsBuffers := by
  refine fun s t hs ht hseed => ⟨fun w hlen hf hm => ?_, fun w hlen hf hm => ?_⟩
  · obtain ⟨r, ⟨hexec, hdone⟩, hbuf⟩ := v4_completes_as_buf w hs ht hseed hlen hf hm
    exact ⟨r, hexec, hdone, hbuf⟩
  · obtain ⟨r, ⟨hexec, hdone⟩, hbuf⟩ := v8_completes_as_buf w hs ht hseed hlen hf hm
    exact ⟨r, hexec, hdone, hbuf⟩

/-- The command alone decides which mixer runs. -/
theorem mixer_jobOf (i : Instr) (o o' : Opr) (m m' : InMem) : (jobOf i o m).mixer = (jobOf i o' m').mixer := by
  cases i <;> rfl

/-- The digest takes the seed bits of the command's width only (R61, R105). -/
theorem digest_of_sameSeedBits {i : Instr} {o : Opr} {x : Word} (m : InMem) (h : SameSeedBits i x o.seed) :
    ({ jobOf i o m with seed := x } : Job).digest = (jobOf i o m).digest := by
  unfold SameSeedBits at h
  split at h
  · rename_i hwidth
    exact digest_withSeed (mixer_of_width32 hwidth o m) (h.trans (congrArg seed32Of (seed_jobOf i o m).symm))
  · rw [h, ← seed_jobOf i o m]

/-- The operands a command would latch in a state, as the datapath sees them. -/
abbrev latchedJob (i : Instr) (s : State) : Job := jobOf i (latchedOpr (encode i) s) s.mem

section EqualInputs
variable {i : Instr} {s t : State}

/-- Two states with the same window bytes and the same value bytes give a command the same input. -/
theorem input_of_sameBytes
    (hwindow : ∀ n, windowBytes s i = some n → windowBytes t i = some n ∧
      ∀ k, k < n → s.mem.byte (s.src.toNat + k) = t.mem.byte (t.src.toNat + k))
    (hvalue : SameValueBytes i s t) :
    (latchedJob i t).nbytes = (latchedJob i s).nbytes ∧
      ∀ k, AgreeOn (latchedJob i s).nbytes ((latchedJob i s).input k) ((latchedJob i t).input k) := by
  cases i
  case hash32Buf | hash64Buf | hash128Buf | hash32T16 | hash64T16 | hash128T16 =>
    obtain ⟨hlen, hbytes⟩ := hwindow _ rfl
    exact ⟨Option.some.inj hlen, fun _ => hbytes⟩
  case hash32V4 | hash64V4 | hash128V4 => exact ⟨rfl, fun _ => agreeOn_wordBytes hvalue⟩
  case hash32V8 | hash64V8 | hash128V8 =>
    have hsame : s.val0 = t.val0 := hvalue
    exact ⟨rfl, fun _ k _ => congrArg (wordBytes · k) hsame⟩
  case hash32x4 =>
    obtain ⟨h0, h1, h2, h3⟩ := hvalue
    refine ⟨rfl, fun k => agreeOn_wordBytes ?_⟩
    match k with
    | 0 => exact h0
    | 1 => exact h1
    | 2 => exact h2
    | _ + 3 => exact h3

/-- The same input and the same seed bits give the same digest, wherever SRC is (R201). -/
theorem digest_of_sameBytes (hseed : SameSeedBits i s.seed t.seed)
    (hwindow : ∀ n, windowBytes s i = some n → windowBytes t i = some n ∧
      ∀ k, k < n → s.mem.byte (s.src.toNat + k) = t.mem.byte (t.src.toNat + k))
    (hvalue : SameValueBytes i s t) : (latchedJob i t).digest = (latchedJob i s).digest := by
  obtain ⟨hnbytes, hinput⟩ := input_of_sameBytes hwindow hvalue
  calc (latchedJob i t).digest
    _ = ({ latchedJob i t with seed := s.seed } : Job).digest := (digest_of_sameSeedBits t.mem hseed).symm
    _ = (latchedJob i s).digest :=
      digest_congr (mixer_jobOf i _ _ _ _) hnbytes (seed_jobOf i (latchedOpr (encode i) s) s.mem).symm hinput

end EqualInputs

/-- R201: the two digests of the empty input. -/
theorem hash64_empty (m : Input) : hash64 m 0 0#64 = 0x0f2d4f1152e2fd91#64 ∧
    hash64 m 0 0xdeadbeefcafebabe#64 = 0xfdeb2c2c686f6856#64 := by
  simp only [hash64_congr (agreeOn_zero m countingBytes)]
  decide

/-- Settles O28: both commands start and complete, and the digests of what they latch are equal. -/
theorem equalInputsGiveEqualDigests : Obligations.EqualInputsGiveEqualDigests := by
  refine ⟨fun i s t hs ht hfs hft hseed hwindow hvalue => ?_, hash64_empty⟩
  obtain ⟨hexec, hdone⟩ := exec_completes hs hfs rfl
  exact ⟨_, hexec, hdone, exec_completes ht hft (digest_of_sameBytes hseed hwindow hvalue)⟩

end Sys2Proof.Machine
end

section
/-! PROOFS. Errors, drops and refusals (spec/60_exceptions.md): the order of the checks of a taken command (R211, R215,
R218), what sets and clears LOST (R213), and the only accesses that stop a step (R214, R217). -/

namespace Sys2Proof.Machine

/-! ### Misfit accesses -/

/-- Settles O37: the refusal is the interface check's, and no register stands at a reserved offset. -/
theorem misfitAccessesAreRefused : Obligations.MisfitAccessesAreRefused := by
  refine fun s offset width v => ⟨hostAccess_refused_of_misfit s v, fun hlo hhi halign => ?_⟩
  have hin : inInterface offset 64 = true := (inInterface_iff offset 64).mpr ⟨rfl, halign, by omega⟩
  have hread : hostAccess (.read offset 64) s = .next { s with hostData := s.readWindow offset } := if_pos hin
  constructor
  · rw [hread, readWindow_reserved s hlo]
  · rw [hostAccess_write hin, writeWindow_reserved s v hlo]

/-! ### Taken commands -/

/-- For a command with a window, fitting is one comparison of exact integers (R49, R211). -/
theorem windowFits_iff_of_windowBytes {i : Instr} {s : State} {n : Nat} (h : windowBytes s i = some n) :
    WindowFits i s ↔ s.src.toNat + n ≤ s.mem.size := by
  simp [WindowFits, h]

/-- A command without a window always fits (R211). -/
theorem windowFits_of_windowBytes_none {i : Instr} {s : State} (h : windowBytes s i = none) :
    WindowFits i s := by
  simp [WindowFits, h]

/-- A command whose window fits is started (R180). -/
theorem exec_of_windowFits {i : Instr} {s : State} (hb : s.status.busy = false) (hf : WindowFits i s) :
    exec i s = .next (startedState i s) :=
  exec_fits hb ((commandFits_iff i s).mpr hf)

/-- Settles O8: `exec` starts a command or rejects it with BOUNDS as its window fits or not. -/
theorem boundsIsCheckedOnExactIntegers : Obligations.BoundsIsCheckedOnExactIntegers := by
  refine fun i s hb => ⟨fun n hn hbeyond => ?_, fun n hn hinside => ?_, fun hnone => ?_⟩
  · exact exec_of_not_windowFits hb
      (mt (windowFits_iff_of_windowBytes hn).mp (Nat.not_le.mpr hbeyond))
  · exact exec_of_windowFits hb ((windowFits_iff_of_windowBytes hn).mpr hinside)
  · exact exec_of_windowFits hb (windowFits_of_windowBytes_none hnone)

/-- While the block is idle a CMD write is taken, legal or not: it latches the operands, and STATUS is that of a
running operation or of a rejection (R180, R218). -/
theorem writeWindow_taken {s : State} (v : Word) (hb : s.status.busy = false) :
    ∃ u, writeWindow s 0x00 v = .next u ∧ u.opr = latchedOpr v s ∧
      (u.status = statusRunning ∨ u.status = statusRejected errBounds ∨
        u.status = statusRejected errIllegal) := by
  rcases writeWindow_cases s 0x00 v with ⟨_, hbusy, _⟩ | ⟨i, _, hdecode, _, _, hstart⟩ |
      ⟨code, _, _, hcode, hreject⟩ | ⟨hne, _⟩
  · simp [hb] at hbusy
  · obtain rfl : v = encode i := eq_encode_of_decode hdecode
    exact ⟨startedState i s, hstart, rfl, .inl rfl⟩
  · refine ⟨rejectedState v code s, hreject, rfl, .inr ?_⟩
    rcases hcode with rfl | rfl
    · exact .inl rfl
    · exact .inr rfl
  · exact absurd rfl hne

/-- A taken CMD write leaves LOST clear (R213, R215). -/
theorem lost_of_writeWindow_taken {s t : State} {v : Word} (hb : s.status.busy = false)
    (h : writeWindow s 0x00 v = .next t) : t.status.lost = false := by
  obtain ⟨u, hu, _, hstatus⟩ := writeWindow_taken v hb
  obtain rfl := Host.Outcome.next.inj (hu.symm.trans h)
  rcases hstatus with e | e | e <;> rw [e] <;> rfl

/-- Settles O9: ILLEGAL by the decoder's answer, then BOUNDS by the window check; and a slot's access comes after
its sequencer steps, so it meets the idle block. -/
theorem errorsAreCheckedInOrder : Obligations.ErrorsAreCheckedInOrder := by
  refine ⟨fun s v hb hv => ?_, fun s i hb hf => ?_, fun s t v => lost_of_writeWindow_taken,
    fun s t v n rest hscript _ hrun hb => ?_⟩
  · exact writeWindow_illegal (decode_isError_of_ne_encode hv) hb
  · rw [writeWindow_encode]
    exact exec_of_not_windowFits hb hf
  · have hstep : step s = writeWindow t 0x00 v := by
      rw [step_cons hscript, hrun, andThen_next, hostAccess_write rfl]
    obtain ⟨u, hu, hopr, _⟩ := writeWindow_taken v hb
    exact ⟨hstep, u, hstep.trans hu, by rw [hopr]; rfl, lost_of_writeWindow_taken hb hu⟩

/-- Settles O10: a rejected state is idle and holds the operand registers of the state before it. -/
theorem afterARejectionTheNextCommandIsTaken : Obligations.AfterARejectionTheNextCommandIsTaken :=
  fun s v w code => writeWindow_taken (s := rejectedState v code s) w rfl

/-! ### LOST -/

/-- A window write that is not a taken command leaves LOST set (R213). -/
theorem lost_of_writeWindow {s t : State} {offset : Nat} {v : Word} (hlost : s.status.lost = true)
    (h : writeWindow s offset v = .next t) :
    t.status.lost = true ∨ (s.status.busy = false ∧ offset = 0x00) := by
  rcases writeWindow_cases s offset v with ⟨_, _, e⟩ | ⟨_, h0, _, hb, _, _⟩ | ⟨_, h0, hb, _, _⟩ |
      ⟨_, e | ⟨r, e⟩⟩
  · obtain rfl := Host.Outcome.next.inj (e.symm.trans h)
    exact .inl rfl
  · exact .inr ⟨hb, h0⟩
  · exact .inr ⟨hb, h0⟩
  · obtain rfl := Host.Outcome.next.inj (e.symm.trans h)
    exact .inl hlost
  · obtain rfl := Host.Outcome.next.inj (e.symm.trans h)
    obtain ⟨hstatus, _⟩ := writeReg_frame s r v
    exact .inl (hstatus ▸ hlost)

/-- No host access but reset and a taken command clears LOST (R213). -/
theorem lost_of_hostAccess {op : HostOp} {s t : State} (hop : op ≠ .reset) (hlost : s.status.lost = true)
    (h : hostAccess op s = .next t) :
    t.status.lost = true ∨ (s.status.busy = false ∧ ∃ v, op = .write 0x00 64 v) := by
  rcases hostAccess_cases h with ⟨offset, v, rfl, _, hw⟩ | ⟨_, _, _, rfl⟩ | ⟨_, _, rfl⟩ | ⟨_, _, rfl⟩ |
      ⟨_, _, _, _, rfl⟩ | ⟨rfl, _⟩ | ⟨_, rfl⟩
  · rcases lost_of_writeWindow hlost hw with hkept | ⟨hb, rfl⟩
    · exact .inl hkept
    · exact .inr ⟨hb, v, rfl⟩
  · exact .inl hlost
  · exact .inl hlost
  · exact .inl hlost
  · exact .inl hlost
  · exact absurd rfl hop
  · exact .inl hlost

/-- Settles O7: the sequencer neither reads nor writes LOST, so the drop commutes with its steps. -/
theorem aDroppedCommandSetsLostAndNothingElse : Obligations.ADroppedCommandSetsLostAndNothingElse :=
  ⟨fun s v hb => ⟨writeWindow_busy v hb, fun n => coreRun_map coreStep_drop n s⟩,
    fun _ _ _ => lost_of_writeWindow_taken, fun _ _ _ => lost_of_hostAccess⟩

/-! ### Where a step stops -/

/-- A window write always answers a next state. -/
theorem writeWindow_next (s : State) (offset : Nat) (v : Word) : ∃ t, writeWindow s offset v = .next t := by
  rcases writeWindow_cases s offset v with ⟨_, _, e⟩ | ⟨_, _, _, _, _, e⟩ | ⟨_, _, _, _, e⟩ | ⟨_, e | ⟨_, e⟩⟩ <;>
    exact ⟨_, e⟩

/-- The access lies outside the interface and is refused for that (R214). -/
def RefusedAsMisfit (op : HostOp) (s : State) : Prop :=
  ∃ offset width, inInterface offset width = false ∧
    ((∃ v, op = .write offset width v) ∨ op = .read offset width) ∧
    hostAccess op s = .refused (.accessOutsideInterface offset width)

/-- The access writes an address at or above IN_SIZE and faults for that (R40). -/
def FaultsAsAbsent (op : HostOp) (s : State) : Prop :=
  ∃ a b, s.mem.size ≤ a ∧ op = .writeIn a b ∧ hostAccess op s = .fault (.inAddressAbsent a)

/-- A host access answers a next state or is one of the two that stop. -/
theorem hostAccess_next_or_stops (op : HostOp) (s : State) :
    (∃ t, hostAccess op s = .next t) ∨ RefusedAsMisfit op s ∨ FaultsAsAbsent op s := by
  cases op with
  | write offset width v =>
    cases hin : inInterface offset width with
    | true => exact .inl (hostAccess_write hin v s ▸ writeWindow_next s offset v)
    | false => exact .inr (.inl ⟨offset, width, hin, .inl ⟨v, rfl⟩, if_neg (by simp [hin])⟩)
  | read offset width =>
    cases hin : inInterface offset width with
    | true => exact .inl ⟨_, if_pos hin⟩
    | false => exact .inr (.inl ⟨offset, width, hin, .inr rfl, if_neg (by simp [hin])⟩)
  | poll =>
    by_cases hb : s.status.busy = true
    · exact .inl ⟨_, if_pos hb⟩
    · exact .inl ⟨_, if_neg hb⟩
  | writeIn a b =>
    by_cases ha : a < s.mem.size
    · exact .inl ⟨_, (hostAccess_writeIn s a b).trans (if_pos ha)⟩
    · exact .inr (.inr ⟨a, b, Nat.not_lt.mp ha, rfl, (hostAccess_writeIn s a b).trans (if_neg ha)⟩)
  | reset => exact .inl ⟨s.onReset, rfl⟩
  | idle => exact .inl ⟨s, rfl⟩

/-- Settles O42: under the invariant the sequencer steps of a slot do not stop, and they leave IN alone, so a step
stops only where its host access does. -/
theorem stepsStopOnlyOnMisfitHostAccesses : Obligations.StepsStopOnlyOnMisfitHostAccesses := by
  intro s hinv
  cases hs : s.script with
  | nil => exact .inl (step_nil hs ▸ coreStep_next hinv)
  | cons slot rest =>
    obtain ⟨n, op⟩ := slot
    obtain ⟨u, hu⟩ := coreRun_next n (inv_withScript hinv rest)
    have hstep : step s = hostAccess op u := by rw [step_cons hs, hu, andThen_next]
    obtain ⟨_, _, _, _, _, _, _, _, hmem, _⟩ := coreRun_frame n hu
    rw [hstep]
    rcases hostAccess_next_or_stops op u with hnext | ⟨offset, width, hout, hop, hrefused⟩ |
        ⟨a, b, ha, rfl, hfault⟩
    · exact .inl hnext
    · refine .inr (.inl ⟨n, rest, offset, width, hout, ?_, hrefused⟩)
      rcases hop with ⟨v, rfl⟩ | rfl
      · exact .inl ⟨v, rfl⟩
      · exact .inr rfl
    · rw [hmem] at ha
      exact .inr (.inr ⟨n, rest, a, b, ha, rfl, hfault⟩)

end Sys2Proof.Machine
end

section
/-! PROOFS. Reset and hazards (spec/70_reset_and_hazards.md): reset (R240, R241), and what the host writes while an
operation runs: its operand registers (R244) and IN (R243). Whatever it writes, the operation ends (R248). -/

namespace Sys2Proof.Machine

/-! ### Reset -/

/-- Settles O40: the block is idle at reset, so the invariant asks nothing of OPR and the datapath. -/
theorem theInvariantHoldsAtReset : Obligations.TheInvariantHoldsAtReset :=
  inv_of_not_run State.reset_mem_wf rfl (by decide)

/-- No host-visible register is among what a reset event keeps (R240). -/
@[simp] theorem readReg_onReset (s : State) (r : Reg) : s.onReset.readReg r = State.reset.readReg r := by
  cases r <;> rfl

/-- With SRC = LEN = 0 a window is empty and starts at 0, so it lies in IN whatever IN_SIZE is (R49). -/
theorem windowFits_of_zero (i : Instr) {s : State} (hsrc : s.src = 0#64) (hlen : s.len = 0#64) :
    WindowFits i s := by
  have hempty : ∀ n, windowBytes s i = some n → n = 0 := by
    cases i <;> simp [windowBytes, hlen]
  intro n hn
  simp [hempty n hn, hsrc]

/-- Settles O39: after reset no window can miss IN, so every command starts, and what it latches holds nothing of
the OPR and the datapath registers before it. -/
theorem resetClearsTheBlockAndKeepsTheInput : Obligations.ResetClearsTheBlockAndKeepsTheInput := by
  refine ⟨reset_readReg, rfl, fun s => ⟨s.onReset, rfl, fun r => ?_, rfl, rfl, ?_, fun i o d => ?_⟩⟩
  · rw [readReg_onReset, reset_readReg]
  · exact coreRun_idle (by simp [State.reset])
  · obtain ⟨hexec, hdone⟩ := exec_completes (s := s.onReset) rfl (windowFits_of_zero i rfl rfl) rfl
    obtain ⟨hexec', hdone'⟩ := exec_completes (s := { s.onReset with opr := o, dp := d }) rfl
      (windowFits_of_zero i rfl rfl) rfl
    exact ⟨hexec, hexec', _, hdone, hdone'⟩

/-! ### Writes of the operand registers -/

/-- Settles O11: the sequencer reads OPR and not the operand registers, so the write commutes with its steps. -/
theorem operandWritesDoNotReachARunningOperation : Obligations.OperandWritesDoNotReachARunningOperation :=
  fun s r v hr _ => ⟨writeWindow_regOffset s v (ne_cmd_of_isOperand hr), readReg_writeReg_same s v hr,
    fun n => coreRun_map (coreStep_writeReg r v) n s⟩

/-! ### Every operation ends -/

/-- Settles O32: at a legal place at most `nbytes + 5` sequencer steps are left before the finalizer's. -/
theorem everyOperationEnds : Obligations.EveryOperationEnds := by
  intro s hinv hp
  obtain ⟨i, hi, hbounds, hplaced, _⟩ := hinv.2.2 hp
  obtain ⟨n, u, hn, hrun, hdone, hstatus⟩ := finishes_of_placed _ s hp hi hbounds hplaced le_rfl
  have hle := stepsLeft_le hplaced
  exact ⟨i, n + 1, u, hi, by omega, hrun, hdone, hstatus⟩

/-- Sequencer steps that bring an operation to DONE_OK end in its completion step, the datapath registers alone
written before it (R181). -/
theorem eq_finish_of_coreRun {i : Instr} {n : Nat} {s u : State} (hp : s.phase = .run)
    (hi : decode s.opr.op = .ok i) (hrun : coreRun n s = .next u) (hdone : u.phase = .doneOk) :
    ∃ d, u = (s.setDp d).finish (jobOf i s.opr s.mem) := by
  induction n generalizing s with
  | zero =>
    obtain rfl : s = u := Host.Outcome.next.inj hrun
    rw [hp] at hdone
    cases hdone
  | succ n ih =>
    obtain ⟨t, hstep, hrest⟩ := andThen_eq_next.mp hrun
    rcases coreStep_cases hstep with ⟨hout, _⟩ | ⟨i', _, hi', _, ⟨_, rfl⟩ | ⟨_, rfl⟩⟩
    · exact absurd hp hout
    · obtain rfl : i' = i := Except.ok.inj (hi'.symm.trans hi)
      rw [coreRun_idle (by simp)] at hrest
      exact ⟨s.dp, (Host.Outcome.next.inj hrest).symm⟩
    · exact ih (s := s.setDp ((jobOf i' s.opr s.mem).advance s.dp)) hp hi hrest

/-! ### Writes of IN -/

/-- While a command runs, the addresses of its window are the `nbytes` ones from OPR.src on, if it has a window
(R50, R184). -/
theorem inWindow_iff {s : State} {i : Instr} (hp : s.phase = .run) (hi : decode s.opr.op = .ok i) (a : Nat) :
    s.inWindow a = true ↔ (jobOf i s.opr s.mem).windowed = true ∧ s.opr.src.toNat ≤ a ∧
      a < s.opr.src.toNat + (jobOf i s.opr s.mem).nbytes := by
  simp [State.inWindow, hp, hi, and_assoc]

/-- The window of an operation that meets the invariant lies in IN (R49). -/
theorem lt_size_of_inWindow {s : State} {a : Nat} (hinv : Inv s) (hp : s.phase = .run)
    (ha : s.inWindow a = true) : a < s.mem.size := by
  obtain ⟨i, hi, hbounds, _⟩ := hinv.2.2 hp
  obtain ⟨hw, _, hlt⟩ := (inWindow_iff hp hi a).mp ha
  have hfits : s.opr.src.toNat + (jobOf i s.opr s.mem).nbytes ≤ s.mem.size := by
    simpa [Job.inBounds, hw] using hbounds
  omega

/-- Once the host has broken R50, an operation ends with any value in RES, and with DONE and without ERR (R243). -/
theorem ends_with_freeDigest {s : State} {i : Instr} (hinv : Inv s) (hp : s.phase = .run)
    (hz : s.hazard = true) (hi : decode s.opr.op = .ok i) :
    ∃ n u, coreRun n s = .next u ∧ u.phase = .doneOk ∧ u.status.done = true ∧ u.status.err = false ∧
      u.results = freeDigest (jobOf i s.opr s.mem).mixer s.draws := by
  obtain ⟨_, n, u, _, _, hrun, hdone, hstatus⟩ := everyOperationEnds s hinv hp
  obtain ⟨_, _, herr, _⟩ := status_of_run hinv hp
  refine ⟨n, u, hrun, hdone, by rw [hstatus], by rw [hstatus]; exact herr, ?_⟩
  obtain ⟨d, rfl⟩ := eq_finish_of_coreRun hp hi hrun hdone
  rw [finish_of_hazard _ (s := s.setDp d) hz]
  rfl

/-- A write outside the window leaves the operation its digest (R243). -/
theorem completes_of_hostWriteIn {s : State} {i : Instr} {a : Nat} (b : Byte) (hinv : Inv s)
    (hp : s.phase = .run) (hz : s.hazard = false) (hi : decode s.opr.op = .ok i) (ha : a < s.mem.size)
    (hout : s.inWindow a = false) :
    CompletesWith (s.hostWriteIn a b) (jobOf i s.opr s.mem).digest := by
  obtain ⟨i', hi', hdone⟩ := completes_of_inv (inv_hostWriteIn b hinv ha) hp
    (Bool.or_eq_false_iff.mpr ⟨hz, hout⟩)
  obtain rfl : i' = i := Except.ok.inj (hi'.symm.trans hi)
  have hinput := jobOf_input_write i' s.opr s.mem a b (outside_of_not_inWindow hp hi hout)
  rwa [← digest_congr (jobOf_mixer ..) (jobOf_nbytes ..) (jobOf_seed ..) hinput]

/-- Settles O33: a write in the window sets the hazard flag, which the completion step reads; any other leaves the
input bytes as they were. -/
theorem writingTheWindowMakesTheDigestFree : Obligations.WritingTheWindowMakesTheDigestFree := by
  refine ⟨fun s i a b hinv hp hi hw hlo hhi => ?_, fun s i a b hinv hp hz hi ha hout => ?_⟩
  · have hin : s.inWindow a = true := (inWindow_iff hp hi a).mpr ⟨hw, hlo, hhi⟩
    have ha : a < s.mem.size := lt_size_of_inWindow hinv hp hin
    have hz : (s.hostWriteIn a b).hazard = true := Bool.or_eq_true_iff.mpr (.inr hin)
    obtain ⟨n, u, hrun, hdone, hsdone, herr, hres⟩ := ends_with_freeDigest (inv_hostWriteIn b hinv ha) hp hz hi
    refine ⟨_, n, u, (hostAccess_writeIn s a b).trans (if_pos ha), rfl, hz, hrun, hdone, hsdone, herr, ?_⟩
    exact hres.trans (congrArg (freeDigest · s.draws) (jobOf_mixer ..))
  · have hnot : s.inWindow a = false := by
      rw [← Bool.not_eq_true, inWindow_iff hp hi a]
      rintro ⟨hw, hlo, hhi⟩
      have := hout hw
      omega
    exact ⟨_, (hostAccess_writeIn s a b).trans (if_pos ha), completes_of_hostWriteIn b hinv hp hz hi ha hnot⟩

end Sys2Proof.Machine
end
